-- ==== Sys2Proof/Word.lean ====
section
/-!
DEFINITION. The words fpe4j-core is made of: 32-bit words, bytes, register numbers and the element-size bit
(spec/00_scope.md R8, R11; spec/30_encoding.md R115, R118).
-/

namespace Sys2Proof

/-- A command word, a control or status register, a host access (R40, R93, R112). -/
abbrev Word := BitVec 32

/-- A byte is 8 bits (R11). -/
abbrev Byte := BitVec 8

/-- The number of an integer register: every number from 0 to 15 names one (R31). -/
abbrev Reg := Fin 16

/-- The element size of NUM and STR (R86, R115): `byte` is `esz = 0`, `half` is `esz = 1`. -/
inductive ElemSize where
  | byte
  | half
deriving DecidableEq, Repr

end Sys2Proof
end

