-- ==== Sys2Proof/Syntax.lean ====
section
/-!
DEFINITION. The commands of fpe4j-core as data: one constructor per row of spec/opcode_table.json
(spec/30_encoding.md R113 to R119).
-/

namespace Sys2Proof

/-- A command (R112). Its operand fields have exactly the values the encoding admits (R118), so there is no
ill-formed command. -/
inductive Instr where
  /-- NOP: do nothing (R254). -/
  | nop
  /-- KEYLD: load the AES key from the buffer (R250). -/
  | keyld
  /-- KEYCLR: forget the key (R252). -/
  | keyclr
  /-- CIPH: AES-ECB over a positive multiple of 16 bytes (R210). -/
  | ciph
  /-- PRF: AES-CBC-MAC with zero IV (R213). -/
  | prf
  /-- NUM.B and NUM.H: symbol array to integer (R140). -/
  | num (r : Reg) (esz : ElemSize)
  /-- STR.B and STR.H: integer to symbol array (R142). -/
  | str (r : Reg) (esz : ElemSize)
  /-- NUMB: byte string to integer (R144). -/
  | numb (r : Reg)
  /-- BSTR: integer to byte string (R146). -/
  | bstr (r : Reg)
  /-- ADD (R170). -/
  | add (rd rs1 rs2 : Reg)
  /-- SUB (R172). -/
  | sub (rd rs1 rs2 : Reg)
  /-- MUL (R174). -/
  | mul (rd rs1 rs2 : Reg)
  /-- MOD: the Euclidean remainder (R176). -/
  | mod (rd rs1 rs2 : Reg)
  /-- LDI: load a 16-bit immediate (R178). -/
  | ldi (rd : Reg) (imm : BitVec 16)
deriving DecidableEq, Repr

end Sys2Proof
end

