-- ==== Sys2Proof/Decode.lean ====
section
/-!
DEFINITION. Decoding a command word, the encoder, and the opcode table (spec/30_encoding.md R111 to R121,
spec/opcode_table.json). A word that no row matches is rejected by name; the core then raises ILLEGAL_COMMAND.
-/

namespace Sys2Proof

/-- Why a word is no command (R120). -/
inductive DecodeReject where
  /-- Bits [7:0] hold an opcode that is not in the map of R119. -/
  | reservedOpcode
  /-- The opcode is listed and a reserved field of its format is not 0. -/
  | reservedField
deriving DecidableEq, Repr

/-- Bits [7:0]: the opcode (R112). -/
def opcodeField (w : Word) : Byte := w.extractLsb' 0 8

/-- The 4-bit register field whose lowest bit is `lo` (R118). -/
def regField (w : Word) (lo : Nat) : Reg :=
  ⟨(w.extractLsb' lo 4).toNat, (w.extractLsb' lo 4).isLt⟩

/-- Bit 16: the element size of format C (R115). -/
def eszField (w : Word) : ElemSize := if w.extractLsb' 16 1 = 0#1 then .byte else .half

/-- `i`, unless the reserved fields of the word are not all 0 (R120). -/
def unlessReserved (reservedZero : Bool) (i : Instr) : Except DecodeReject Instr :=
  if reservedZero then .ok i else .error .reservedField

/-- Format N: [31:8] reserved (R113). -/
def formatN (w : Word) (i : Instr) : Except DecodeReject Instr :=
  unlessReserved (w.extractLsb' 8 24 == 0#24) i

/-- Format R: rd [11:8], rs1 [15:12], rs2 [19:16], [31:20] reserved (R114). -/
def formatR (w : Word) (mk : Reg → Reg → Reg → Instr) : Except DecodeReject Instr :=
  unlessReserved (w.extractLsb' 20 12 == 0#12) (mk (regField w 8) (regField w 12) (regField w 16))

/-- Format C: r [11:8], [15:12] reserved, esz [16], [31:17] reserved (R115). -/
def formatC (w : Word) (mk : Reg → ElemSize → Instr) : Except DecodeReject Instr :=
  unlessReserved (w.extractLsb' 12 4 == 0#4 && w.extractLsb' 17 15 == 0#15)
    (mk (regField w 8) (eszField w))

/-- Format B: r [11:8], [31:12] reserved (R116). -/
def formatB (w : Word) (mk : Reg → Instr) : Except DecodeReject Instr :=
  unlessReserved (w.extractLsb' 12 20 == 0#20) (mk (regField w 8))

/-- Format I: rd [11:8], [15:12] reserved, imm16 [31:16] (R117). -/
def formatI (w : Word) (mk : Reg → BitVec 16 → Instr) : Except DecodeReject Instr :=
  unlessReserved (w.extractLsb' 12 4 == 0#4) (mk (regField w 8) (w.extractLsb' 16 16))

/-- Decode a word, or name what is wrong with it (R111, R119, R120). -/
def decodeNamed (w : Word) : Except DecodeReject Instr :=
  let op := opcodeField w
  if op = 0x00#8 then formatN w .nop
  else if op = 0x01#8 then formatN w .keyld
  else if op = 0x02#8 then formatN w .keyclr
  else if op = 0x10#8 then formatN w .ciph
  else if op = 0x11#8 then formatN w .prf
  else if op = 0x20#8 then formatC w .num
  else if op = 0x21#8 then formatC w .str
  else if op = 0x22#8 then formatB w .numb
  else if op = 0x23#8 then formatB w .bstr
  else if op = 0x30#8 then formatR w .add
  else if op = 0x31#8 then formatR w .sub
  else if op = 0x32#8 then formatR w .mul
  else if op = 0x33#8 then formatR w .mod
  else if op = 0x40#8 then formatI w .ldi
  else .error .reservedOpcode

/-- The command a word decodes to, if any (R111). -/
def decode (w : Word) : Option Instr :=
  match decodeNamed w with
  | .ok i => some i
  | .error _ => none

/-- The instruction the decoder reads from an instruction whose `nbits` table bits are `w`. A command is one 32-bit
word and is never stored as bytes (R98, R121), so the numbering of the table is the numbering of the word. -/
def decodeTableWord (nbits w : Nat) : Option Instr :=
  if nbits ≤ 32 then decode (BitVec.ofNat 32 (w % 2 ^ nbits)) else none

/-- A register number as its 4-bit field (R118). -/
def regBits (r : Reg) : BitVec 4 := BitVec.ofNat 4 r.val

/-- The element size as its bit (R115). -/
def eszBit : ElemSize → BitVec 1
  | .byte => 0#1
  | .half => 1#1

/-- A field's value at its place in the word, its lowest bit at `lo` (R112). -/
def place (n : Nat) (x : BitVec n) (lo : Nat) : Word := x.setWidth 32 <<< lo

/-- The word of format N (R113): reserved fields are 0. -/
def wordN (op : Byte) : Word := place 8 op 0

/-- The word of format R: rd [11:8], rs1 [15:12], rs2 [19:16] (R114). -/
def wordR (op : Byte) (rd rs1 rs2 : Reg) : Word :=
  place 8 op 0 ||| place 4 (regBits rd) 8 ||| place 4 (regBits rs1) 12 ||| place 4 (regBits rs2) 16

/-- The word of format C: r [11:8], esz [16] (R115). -/
def wordC (op : Byte) (r : Reg) (esz : ElemSize) : Word :=
  place 8 op 0 ||| place 4 (regBits r) 8 ||| place 1 (eszBit esz) 16

/-- The word of format B: r [11:8] (R116). -/
def wordB (op : Byte) (r : Reg) : Word := place 8 op 0 ||| place 4 (regBits r) 8

/-- The word of format I: rd [11:8], imm16 [31:16] (R117). -/
def wordI (op : Byte) (rd : Reg) (imm : BitVec 16) : Word :=
  place 8 op 0 ||| place 4 (regBits rd) 8 ||| place 16 imm 16

/-- The word of a command (R113 to R119). -/
def encode : Instr → Word
  | .nop => wordN 0x00#8
  | .keyld => wordN 0x01#8
  | .keyclr => wordN 0x02#8
  | .ciph => wordN 0x10#8
  | .prf => wordN 0x11#8
  | .num r esz => wordC 0x20#8 r esz
  | .str r esz => wordC 0x21#8 r esz
  | .numb r => wordB 0x22#8 r
  | .bstr r => wordB 0x23#8 r
  | .add rd rs1 rs2 => wordR 0x30#8 rd rs1 rs2
  | .sub rd rs1 rs2 => wordR 0x31#8 rd rs1 rs2
  | .mul rd rs1 rs2 => wordR 0x32#8 rd rs1 rs2
  | .mod rd rs1 rs2 => wordR 0x33#8 rd rs1 rs2
  | .ldi rd imm => wordI 0x40#8 rd imm

/-- A row of the opcode map: a word `w` matches when `w AND mask = pattern` (R111, R119). -/
structure OpcodeRow where
  mnemonic : String
  pattern : Word
  mask : Word
deriving DecidableEq, Repr

/-- Does the word match the row (R111)? -/
def OpcodeRow.matchesWord (row : OpcodeRow) (w : Word) : Bool := (w &&& row.mask) == row.pattern

/-- The opcode map of R119, its match and mask columns letter for letter. -/
def opcodeTable : List OpcodeRow :=
  [ ⟨"NOP", 0x00000000#32, 0xFFFFFFFF#32⟩,
    ⟨"KEYLD", 0x00000001#32, 0xFFFFFFFF#32⟩,
    ⟨"KEYCLR", 0x00000002#32, 0xFFFFFFFF#32⟩,
    ⟨"CIPH", 0x00000010#32, 0xFFFFFFFF#32⟩,
    ⟨"PRF", 0x00000011#32, 0xFFFFFFFF#32⟩,
    ⟨"NUM", 0x00000020#32, 0xFFFEF0FF#32⟩,
    ⟨"STR", 0x00000021#32, 0xFFFEF0FF#32⟩ ] ++
  [ ⟨"NUMB", 0x00000022#32, 0xFFFFF0FF#32⟩,
    ⟨"BSTR", 0x00000023#32, 0xFFFFF0FF#32⟩,
    ⟨"ADD", 0x00000030#32, 0xFFF000FF#32⟩,
    ⟨"SUB", 0x00000031#32, 0xFFF000FF#32⟩,
    ⟨"MUL", 0x00000032#32, 0xFFF000FF#32⟩,
    ⟨"MOD", 0x00000033#32, 0xFFF000FF#32⟩,
    ⟨"LDI", 0x00000040#32, 0x0000F0FF#32⟩ ]

/-- The mnemonic of a command in the opcode map (R119). -/
def mnemonicOf : Instr → String
  | .nop => "NOP"
  | .keyld => "KEYLD"
  | .keyclr => "KEYCLR"
  | .ciph => "CIPH"
  | .prf => "PRF"
  | .num _ _ => "NUM"
  | .str _ _ => "STR"
  | .numb _ => "NUMB"
  | .bstr _ => "BSTR"
  | .add _ _ _ => "ADD"
  | .sub _ _ _ => "SUB"
  | .mul _ _ _ => "MUL"
  | .mod _ _ _ => "MOD"
  | .ldi _ _ => "LDI"

end Sys2Proof
end

