-- ==== Sys2Proof/Config.lean ====
section
/-!
DEFINITION. What one instance of fpe4j-core fixes (spec/00_scope.md R7, R9) and the free values of the spec
(spec/93_implementation_defined.md items 4 and 6).
-/

namespace Sys2Proof

/-- The implementation parameters (R7). An instance shows them in ID, CAP_INTBITS, CAP_MAXLEN and CAP_BUFBYTES
(R41 to R44). -/
structure Config where
  /-- INT_BITS: the width of an integer register. -/
  intBits : Nat
  /-- MAXLEN: the largest operand length of the conversions, CIPH and PRF. -/
  maxLen : Nat
  /-- BUF_BYTES: the size of the data buffer in bytes. -/
  bufBytes : Nat
  /-- ID_VALUE: the value of the ID register. -/
  idValue : Word
deriving DecidableEq, Repr

/-- CFG-A, the first example configuration (R9). -/
def Config.cfgA : Config :=
  { intBits := 512, maxLen := 256, bufBytes := 1024, idValue := 0x46504531#32 }

/-- CFG-B, the example configuration that makes the bounds easy to reach (R9). -/
def Config.cfgB : Config :=
  { intBits := 32, maxLen := 16, bufBytes := 64, idValue := 0x46504531#32 }

/-- FREE VALUE (log entry 6): the word the `n`-th draw of the model returns for a host read of the buffer window
while a command is pending (R312: "any 32-bit value"). Nothing constrains it. -/
opaque Config.busyWord : Nat → Word

/-- FREE VALUE (log entry 7): byte `i` of KEY where the `n`-th draw of the model leaves it unspecified (item 6:
KEY after KEYCLR, `KEY[n..32)` after a KEYLD of `n < 32` bytes). Nothing constrains it. -/
opaque Config.keyByte : Nat → Nat → Byte

end Sys2Proof
end

