-- ==== Sys2Proof/Machine/State.lean ====
section
/-!
DEFINITION. The state of one fpe4j-core instance (spec/10_state.md R30), the model's own bookkeeping, and reset
(spec/70_reset_and_hazards.md R300).
-/

namespace Sys2Proof.Machine

/-- The model faults of R280. They are the records that `FAULTS` holds (R38) and the reasons a step has no
successor. -/
inductive Fault where
  /-- `UNINIT_READ(a, n)`: a command or a host window read needs a byte of `[a, a+n)` that nothing has written
  since reset (R83, R91). Raised by the meanings of KEYLD, CIPH, PRF, NUM and NUMB and by a window read. The
  hardware returns unspecified bytes there; stopping is safe. -/
  | uninitRead (a n : Nat)
  /-- `HOST_PROTOCOL(o)`: a host write to CMD, SRC, DST, LEN, RADIX or the window at offset `o` while a command is
  pending (R310). Raised by the host's turn. The hardware's response is unspecified; stopping is safe. -/
  | hostProtocol (o : Nat)
deriving DecidableEq, Repr

/-- What the model gives no meaning to. -/
inductive Refusal where
  /-- An instruction rejected by name in `exec`. No arm raises it: every instruction has its meaning. Safe. -/
  | notModelled (mnemonic : String)
  /-- A host access of `bits` bits at offset `o` that is not an aligned 32-bit access (R93, R281). Raised by the
  host's turn. Safe: the hardware's response is unspecified. -/
  | hostAccessForm (bits o : Nat)
deriving DecidableEq, Repr

/-- The error kinds of R270, under the names of its table. -/
inductive ErrKind where
  | nullArgument
  | invalidArgument
  | invalidKey
  | arithmeticError
  /-- FATAL is reserved: nothing raises it (R274). -/
  | fatal
  | illegalCommand
deriving DecidableEq, Repr

/-- How a command's pseudocode ends without writes: an error (R13 `raise`) or a model fault (R110, R280). -/
inductive Stop where
  | raises (e : ErrKind)
  | faults (f : Fault)
deriving DecidableEq, Repr

/-- The legal values of the key store's `KEYLEN`: 0, 16, 24 or 32 (R35). -/
inductive KeyLen where
  | empty
  | k16
  | k24
  | k32
deriving DecidableEq, Repr

/-- Whose move it is, and what the host does with it (R93, R95). Offsets are byte offsets in the 128 KiB aperture
(R81, R90). The model's own: log entry 4. -/
inductive Turn where
  /-- The core takes its step if a command is pending. -/
  | core
  /-- A 32-bit host read at offset `o`. -/
  | hostRead (o : BitVec 17)
  /-- A 32-bit host write of `v` at offset `o`. -/
  | hostWrite (o : BitVec 17) (v : Word)
  /-- A host access of another width; it is always refused (R93, R281). -/
  | hostOther (bits : Nat) (o : BitVec 17)
deriving DecidableEq, Repr

/-- The data buffer BUF as its written bytes, addresses strictly rising (R80). An address that is not listed is
unwritten: it holds no value. -/
abbrev Memory := List Host.Cell

/-- The whole state (R30) and, after it, the model's own fields. `STATUS.BUSY` is a view of `pending`,
`STATUS.KEYV` and the KEYLEN register are views of `keyLen`, and CTRL stores nothing (Machine/Flags.lean). -/
structure State where
  /-- ID, CAP_INTBITS, CAP_MAXLEN, CAP_BUFBYTES: constants of the instance (R41 to R44). -/
  cfg : Config
  /-- I0 to I15; `none` is an invalid register (R31). -/
  regs : Vector (Option Int) 16
  /-- KEY[0..32) of the key store (R35). -/
  key : Vector Byte 32
  /-- KEYLEN of the key store (R35). -/
  keyLen : KeyLen
  /-- BUF (R80). -/
  buf : Memory
  /-- PENDING: the command in execution, or none (R37). -/
  pending : Option Word
  /-- STATUS.ERR (R46). -/
  err : Bool
  /-- ERRCODE[2:0] (R47). -/
  errcode : BitVec 3
  /-- CMD: the last command word taken (R48). -/
  cmd : Word
  /-- SRC (R49). -/
  src : Word
  /-- DST (R50). -/
  dst : Word
  /-- LEN (R51). -/
  len : Word
  /-- RADIX (R52). -/
  radix : Word
  /-- FAULTS: the set of model faults recorded since power-on, as a list with no repeats (R38). -/
  faults : List Fault
  /-- MODEL'S OWN (log entry 3): the model fault after which only a soft reset steps (R110, R280). -/
  stopped : Option Fault
  /-- MODEL'S OWN (log entry 4): the turns to come, oldest first. When it is empty the core runs what is pending. -/
  turns : List Turn
  /-- MODEL'S OWN (log entry 5): the words the host's reads have returned, oldest first. -/
  replies : List Word
  /-- MODEL'S OWN (log entry 6): how many free values have been drawn. -/
  draws : Nat
deriving DecidableEq, Repr

/-- Power-on reset of an instance with parameters `c` (R300). DESIGN CHOICE (log entry 2): KEY, unspecified in R300
and never observable while KEYLEN is 0, is 32 zero bytes. -/
def State.resetWith (c : Config) : State :=
  { cfg := c
    regs := Vector.replicate 16 none
    key := Vector.replicate 32 0#8
    keyLen := .empty
    buf := []
    pending := none
    err := false
    errcode := 0#3
    cmd := 0#32
    src := 0#32
    dst := 0#32
    len := 0#32
    radix := 0#32
    faults := []
    stopped := none
    turns := []
    replies := []
    draws := 0 }

/-- The machine right after power-on reset. DESIGN CHOICE (log entry 1): the instance is CFG-A (R9); statements
hold for every configuration. -/
def State.reset : State := State.resetWith Config.cfgA

end Sys2Proof.Machine
end

