-- ==== Sys2Proof/Machine/Flags.lean ====
section
/-!
DEFINITION. The flags (spec/10_state.md R46, R55), the error code (R47, spec/60_exceptions.md R270) and the words the
status registers read as.
-/

namespace Sys2Proof.Machine

/-- The code of an error kind in ERRCODE (R270). -/
def ErrKind.code : ErrKind → BitVec 3
  | .nullArgument => 1#3
  | .invalidArgument => 2#3
  | .invalidKey => 3#3
  | .arithmeticError => 4#3
  | .fatal => 5#3
  | .illegalCommand => 6#3

/-- KEYLEN in bytes (R35). -/
def KeyLen.bytes : KeyLen → Nat
  | .empty => 0
  | .k16 => 16
  | .k24 => 24
  | .k32 => 32

/-- The legal key length of `n` bytes, if there is one (R250). -/
def KeyLen.ofBytes (n : Nat) : Option KeyLen :=
  if n = 16 then some .k16
  else if n = 24 then some .k24
  else if n = 32 then some .k32
  else none

/-- STATUS.BUSY: a command is pending (R37, R46). -/
def State.busy (s : State) : Bool := s.pending.isSome

/-- STATUS.KEYV: a key is loaded (R46). -/
def State.keyv (s : State) : Bool := s.keyLen.bytes != 0

/-- The word STATUS reads as: BUSY, ERR, KEYV in bits 0, 1, 2 and 0 above (R46). -/
def State.statusWord (s : State) : Word :=
  0#29 ++ BitVec.ofBool s.keyv ++ BitVec.ofBool s.err ++ BitVec.ofBool s.busy

/-- The word ERRCODE reads as: the code in bits [2:0] and 0 above (R47). -/
def State.errcodeWord (s : State) : Word := 0#29 ++ s.errcode

/-- The word KEYLEN reads as (R53). -/
def State.keyLenWord (s : State) : Word := BitVec.ofNat 32 s.keyLen.bytes

end Sys2Proof.Machine
end

