-- ==== Sys2Proof/Machine/Memory.lean ====
section
/-!
DEFINITION. The data buffer: one byte read and written in one place, and the wider accesses built from them
(spec/20_memory.md R80 to R84). The byte order of wider accesses is in Operands.lean and HostPort.lean.
-/

namespace Sys2Proof.Machine

/-- The canonical form of the buffer: addresses strictly rising. An unlisted address reads as unwritten, which no
listed cell can, so no other condition is needed. -/
abbrev Memory.wf (m : Memory) : Prop := m.Pairwise (fun x y => x.1 < y.1)

/-- Every written byte is at an address of BUF (R80). -/
abbrev Memory.below (m : Memory) (bound : Nat) : Prop := ∀ c ∈ m, c.1 < bound

/-- The byte at an address, or `none` when it is unwritten (R80). -/
def Memory.read : Memory → Nat → Option Byte
  | [], _ => none
  | (k, b) :: m, a => if k = a then some b else Memory.read m a

/-- Store one byte; it becomes written (R80, R84). -/
def Memory.write : Memory → Nat → Byte → Memory
  | [], a, b => [(a, b)]
  | (k, c) :: m, a, b =>
    if a < k then (a, b) :: (k, c) :: m
    else if a = k then (a, b) :: m
    else (k, c) :: Memory.write m a b

/-- The bytes of `[a, a+n)`, or `none` when one of them is unwritten (R83). -/
def Memory.readRange (m : Memory) (a : Nat) : Nat → Option (List Byte)
  | 0 => some []
  | n + 1 =>
    match Memory.read m a, Memory.readRange m (a + 1) n with
    | some b, some bs => some (b :: bs)
    | _, _ => none

/-- Store a byte string at `[a, a + length)` (R84). -/
def Memory.writeRange (m : Memory) (a : Nat) : List Byte → Memory
  | [] => m
  | b :: bs => Memory.writeRange (Memory.write m a b) (a + 1) bs

end Sys2Proof.Machine
end

