-- ==== Sys2Proof/Machine/Ops.lean ====
section
/-!
DEFINITION. The named operations every meaning is built from: the pseudocode primitives of spec/00_scope.md R13, the
commit of R14 and R110, the error completion of spec/60_exceptions.md R272 (which takes the place of trap entry) and,
beside it, the CMD write that ends an error's report (R48, R273).
-/

namespace Sys2Proof.Machine

/-- A computation of a command's pseudocode: a value, or the stop it ends on (R14). -/
abbrev Cmd (α : Type) := Except Stop α

/-- `check c else e` (R13). -/
def check (c : Bool) (e : ErrKind) : Cmd Unit :=
  if c then .ok () else .error (.raises e)

/-- An integer register's range: `−2^(INT_BITS−1) ≤ v ≤ 2^(INT_BITS−1) − 1` (R32). -/
def inRange (c : Config) (v : Int) : Bool :=
  decide (-(2 ^ (c.intBits - 1) : Int) ≤ v) && decide (v ≤ 2 ^ (c.intBits - 1) - 1)

/-- `x[i]`: the value of an integer register; NULL_ARGUMENT when it is invalid (R13, R31). -/
def readReg (s : State) (r : Reg) : Cmd Int :=
  match s.regs[r] with
  | some v => .ok v
  | none => .error (.raises .nullArgument)

/-- `x[i] <- v`: ARITHMETIC_ERROR when `v` is out of range; the write makes the register valid (R13, R31, R32). -/
def writeReg (s : State) (r : Reg) (v : Int) : Cmd State :=
  if inRange s.cfg v then .ok { s with regs := s.regs.set r (some v) }
  else .error (.raises .arithmeticError)

/-- Is `[a, a+n)` in bounds, on exact integers (R82)? -/
def inBounds (c : Config) (a n : Nat) : Bool := decide (a + n ≤ c.bufBytes)

/-- `MemRead(a, n)`: the bytes, or the model fault UNINIT_READ(a, n) (R83). -/
def memRead (s : State) (a n : Nat) : Cmd (List Byte) :=
  match s.buf.readRange a n with
  | some bs => .ok bs
  | none => .error (.faults (.uninitRead a n))

/-- `MemWrite(a, n, B)` with `n` the length of `B` (R84). -/
def memWrite (s : State) (a : Nat) (bs : List Byte) : State :=
  { s with buf := s.buf.writeRange a bs }

/-- The AES key `K = KEY[0..KEYLEN)`; NULL_ARGUMENT when no key is loaded (R35, R210). -/
def loadedKey (s : State) : Cmd (List Byte) :=
  if s.keyLen.bytes != 0 then .ok (s.key.toList.take s.keyLen.bytes)
  else .error (.raises .nullArgument)

/-- KEY with `bs` in its first bytes; the bytes after them are unspecified, so each is a free value of the model's
draw `draw` (R250, item 6 of spec/93_implementation_defined.md). -/
@[irreducible] def keyStore (bs : List Byte) (draw : Nat) : Vector Byte 32 :=
  Vector.ofFn fun i => (bs[i.val]?).getD (Config.keyByte draw i.val)

/-- Load the key store: `KEY[0..n) <- B ; KEYLEN <- n` (R250). -/
def setKey (s : State) (k : KeyLen) (bs : List Byte) : State :=
  { s with key := keyStore bs s.draws, keyLen := k, draws := s.draws + 1 }

/-- Forget the key: `KEYLEN <- 0`, KEY unspecified (R252, item 6). -/
def clearKey (s : State) : State := setKey s .empty []

/-- Completion without error: ERR and ERRCODE become 0, PENDING none (R110). -/
def complete (s : State) : State :=
  { s with err := false, errcode := 0#3, pending := none }

/-- Error completion: ERR becomes 1, ERRCODE the kind's code, PENDING none, nothing else changes (R272). -/
def raise (e : ErrKind) (s : State) : State :=
  { s with err := true, errcode := e.code, pending := none }

/-- A CMD write taken while idle: CMD and PENDING hold the word, ERR and ERRCODE are cleared (R48). It is the only
way back from an error besides a reset (R273). -/
def takeCommand (s : State) (v : Word) : State :=
  { s with cmd := v, pending := some v, err := false, errcode := 0#3 }

/-- Commit a command that started in `s` (R14, R110): apply its writes and complete, or apply none and report the
error, or stop on the model fault. -/
def commit (s : State) : Cmd State → Host.Outcome State Fault Refusal
  | .ok t => .next (complete t)
  | .error (.raises e) => .next (raise e s)
  | .error (.faults f) => .fault f

/-- Record a model fault in FAULTS, a set, and let the core take no further step (R38, R110, R280). -/
def recordFault (s : State) (f : Fault) : State :=
  { s with faults := if f ∈ s.faults then s.faults else s.faults ++ [f], stopped := some f }

/-- Soft reset: every state of R300 back to its reset value, except FAULTS (R301). The host's turns and replies and the
model's draw counter are not the block's. -/
def softReset (s : State) : State :=
  { State.resetWith s.cfg with
    faults := s.faults, turns := s.turns, replies := s.replies, draws := s.draws }

end Sys2Proof.Machine
end

