-- ==== Sys2Proof/Machine/Operands.lean ====
section
/-!
DEFINITION. Operand forms: the operand registers as unsigned numbers (spec/30_encoding.md R118), the big-endian
readings (spec/00_scope.md R12), the digits of an integer (spec/40_radix.md R142, R146) and the layout of symbols in
the buffer (spec/20_memory.md R86).
-/

namespace Sys2Proof.Machine

/-- SRC as an unsigned number (R49, R118). -/
def State.srcAddr (s : State) : Nat := s.src.toNat
/-- DST as an unsigned number (R50, R118). -/
def State.dstAddr (s : State) : Nat := s.dst.toNat
/-- LEN as an unsigned number (R51, R118). -/
def State.lenVal (s : State) : Nat := s.len.toNat
/-- RADIX as an unsigned number (R52, R118). -/
def State.radixVal (s : State) : Nat := s.radix.toNat

/-- The immediate of LDI, zero-extended (R118, R178). -/
def immValue (imm : BitVec 16) : Int := imm.toNat

/-- `es = esz + 1`: the bytes of one symbol (R86, spec/40_radix.md). -/
def elemWidth : ElemSize → Nat
  | .byte => 1
  | .half => 2

/-- `numr(X, r) = Σ X[i]·r^(n−1−i)`: the first symbol is the most significant (R12, R140). -/
def numr (r : Nat) : List Nat → Nat
  | [] => 0
  | x :: xs => x * r ^ xs.length + numr r xs

/-- `be(B)`: the unsigned big-endian value of a byte string (R12). -/
def be (bs : List Byte) : Nat := numr 256 (bs.map BitVec.toNat)

/-- The `m` digits of `v` in radix `r`: `X[i] = (v div r^(m−1−i)) mod r` (R142, R146). -/
def digits (r m v : Nat) : List Nat :=
  (List.range m).map fun i => v / r ^ (m - 1 - i) % r

/-- The symbols of a byte string, element by element (R86). -/
def symbolsOf : ElemSize → List Byte → List Nat
  | .byte, bs => bs.map BitVec.toNat
  | .half, hi :: lo :: bs => (hi.toNat * 256 + lo.toNat) :: symbolsOf .half bs
  | .half, _ => []

/-- One symbol as its bytes: `hi ∥ lo`, or one byte (R86, R142). -/
def symbolBytes : ElemSize → Nat → List Byte
  | .byte, x => [BitVec.ofNat 8 x]
  | .half, x => [BitVec.ofNat 8 (x / 256), BitVec.ofNat 8 (x % 256)]

/-- A symbol array as its bytes (R86, R142). -/
def symbolArrayBytes (esz : ElemSize) (xs : List Nat) : List Byte := xs.flatMap (symbolBytes esz)

/-- The checks NUM and STR make of RADIX and `esz`: `2 ≤ RADIX ≤ 65536`, and byte symbols need `RADIX ≤ 256`
(R140, R142). -/
def checkRadix (esz : ElemSize) (rdx : Nat) : Cmd Unit := do
  check (decide (2 ≤ rdx) && decide (rdx ≤ 65536)) .invalidArgument
  check (esz == .half || decide (rdx ≤ 256)) .invalidArgument

/-- The check `1 ≤ n ≤ MAXLEN` (R140, R142, R144). -/
def checkLen (c : Config) (n : Nat) : Cmd Unit :=
  check (decide (1 ≤ n) && decide (n ≤ c.maxLen)) .invalidArgument

/-- The check that `[a, a+n)` is in bounds (R82). -/
def checkBounds (c : Config) (a n : Nat) : Cmd Unit := check (inBounds c a n) .invalidArgument

/-- The length checks of CIPH and PRF: a positive multiple of 16, at most MAXLEN (R210, R213). -/
def checkBlockLen (c : Config) (n : Nat) : Cmd Unit := do
  check (decide (16 ≤ n) && decide (n % 16 = 0)) .invalidArgument
  check (decide (n ≤ c.maxLen)) .invalidArgument

end Sys2Proof.Machine
end

