-- ==== Sys2Proof/Machine/Arith.lean ====
section
/-!
DEFINITION. The integer commands ADD, SUB, MUL, MOD and LDI (spec/41_arith.md).
-/

namespace Sys2Proof.Machine

/-- `x[rd] <- op(x[rs1], x[rs2])`, both sources read first (R14, R170 to R174). -/
def binaryOp (op : Int → Int → Int) (rd rs1 rs2 : Reg) (s : State) : Cmd State := do
  let a ← readReg s rs1
  let b ← readReg s rs2
  writeReg s rd (op a b)

/-- ADD (R170). -/
def execAdd (rd rs1 rs2 : Reg) (s : State) : Host.Outcome State Fault Refusal :=
  commit s (binaryOp (fun a b => a + b) rd rs1 rs2 s)

/-- SUB (R172). -/
def execSub (rd rs1 rs2 : Reg) (s : State) : Host.Outcome State Fault Refusal :=
  commit s (binaryOp (fun a b => a - b) rd rs1 rs2 s)

/-- MUL (R174). -/
def execMul (rd rs1 rs2 : Reg) (s : State) : Host.Outcome State Fault Refusal :=
  commit s (binaryOp (fun a b => a * b) rd rs1 rs2 s)

/-- MOD (R176): `a − m·floor(a / m)` for `m > 0`, ARITHMETIC_ERROR for `m ≤ 0`. -/
def execMod (rd rs1 rs2 : Reg) (s : State) : Host.Outcome State Fault Refusal :=
  commit s do
    let a ← readReg s rs1
    let m ← readReg s rs2
    check (decide (0 < m)) .arithmeticError
    writeReg s rd (a - m * Int.fdiv a m)

/-- LDI (R178). -/
def execLdi (rd : Reg) (imm : BitVec 16) (s : State) : Host.Outcome State Fault Refusal :=
  commit s (writeReg s rd (immValue imm))

end Sys2Proof.Machine
end

