-- ==== Sys2Proof/Machine/Aes.lean ====
section
/-!
DEFINITION. The AES forward cipher `E_K` (spec/42_cipher.md R200 to R209), for keys of 16, 24 and 32 bytes. The spec
takes these rules from FIPS-197 (spec/93_implementation_defined.md G1 to G8).
-/

namespace Sys2Proof.Machine

/-- Four bytes: a column of the cipher's state, or a word of the key schedule; `b0` is row 0, the first byte
(R203, R207, R208). -/
structure Column where
  b0 : Byte
  b1 : Byte
  b2 : Byte
  b3 : Byte
deriving DecidableEq, Repr

/-- The 4×4 state by columns: `s[r][c]` is byte `r` of column `c` (R203). -/
structure Block where
  c0 : Column
  c1 : Column
  c2 : Column
  c3 : Column
deriving DecidableEq, Repr

/-- `2•b` in GF(2^8) (R201). -/
def xtime (b : Byte) : Byte := (b <<< 1) ^^^ (if 0x80#8 ≤ b then 0x1B#8 else 0x00#8)

/-- `3•b = xtime(b) XOR b` (R201). -/
def times3 (b : Byte) : Byte := xtime b ^^^ b

/-- Multiplication in GF(2^8): the sum of `x^i•a` over the bits `i` of `b` that are 1, lowest bit first, over the
lowest `n` bits of `b` (R201). -/
def gfMulBits : Nat → Byte → Byte → Byte
  | 0, _, _ => 0x00#8
  | n + 1, a, b => (if b.getLsbD 0 then a else 0x00#8) ^^^ gfMulBits n (xtime a) (b >>> 1)

/-- The product of two bytes in GF(2^8) (R201). -/
def gfMul (a b : Byte) : Byte := gfMulBits 8 a b

/-- The affine map `Aff` of R202, bit by bit, with `q = 0x63`. -/
def sboxAffine (c : Byte) : Byte :=
  c ^^^ c.rotateRight 4 ^^^ c.rotateRight 5 ^^^ c.rotateRight 6 ^^^ c.rotateRight 7 ^^^ 0x63#8

/-- The S-box table of R202, rows 0 to 7; the row is the high nibble and the column the low one. -/
def sboxLow : List (List Byte) :=
  [ [0x63#8, 0x7c#8, 0x77#8, 0x7b#8, 0xf2#8, 0x6b#8, 0x6f#8, 0xc5#8, 0x30#8, 0x01#8, 0x67#8, 0x2b#8, 0xfe#8, 0xd7#8, 0xab#8, 0x76#8],
    [0xca#8, 0x82#8, 0xc9#8, 0x7d#8, 0xfa#8, 0x59#8, 0x47#8, 0xf0#8, 0xad#8, 0xd4#8, 0xa2#8, 0xaf#8, 0x9c#8, 0xa4#8, 0x72#8, 0xc0#8],
    [0xb7#8, 0xfd#8, 0x93#8, 0x26#8, 0x36#8, 0x3f#8, 0xf7#8, 0xcc#8, 0x34#8, 0xa5#8, 0xe5#8, 0xf1#8, 0x71#8, 0xd8#8, 0x31#8, 0x15#8],
    [0x04#8, 0xc7#8, 0x23#8, 0xc3#8, 0x18#8, 0x96#8, 0x05#8, 0x9a#8, 0x07#8, 0x12#8, 0x80#8, 0xe2#8, 0xeb#8, 0x27#8, 0xb2#8, 0x75#8],
    [0x09#8, 0x83#8, 0x2c#8, 0x1a#8, 0x1b#8, 0x6e#8, 0x5a#8, 0xa0#8, 0x52#8, 0x3b#8, 0xd6#8, 0xb3#8, 0x29#8, 0xe3#8, 0x2f#8, 0x84#8],
    [0x53#8, 0xd1#8, 0x00#8, 0xed#8, 0x20#8, 0xfc#8, 0xb1#8, 0x5b#8, 0x6a#8, 0xcb#8, 0xbe#8, 0x39#8, 0x4a#8, 0x4c#8, 0x58#8, 0xcf#8],
    [0xd0#8, 0xef#8, 0xaa#8, 0xfb#8, 0x43#8, 0x4d#8, 0x33#8, 0x85#8, 0x45#8, 0xf9#8, 0x02#8, 0x7f#8, 0x50#8, 0x3c#8, 0x9f#8, 0xa8#8],
    [0x51#8, 0xa3#8, 0x40#8, 0x8f#8, 0x92#8, 0x9d#8, 0x38#8, 0xf5#8, 0xbc#8, 0xb6#8, 0xda#8, 0x21#8, 0x10#8, 0xff#8, 0xf3#8, 0xd2#8] ]

/-- The S-box table of R202, rows 8 to f. -/
def sboxHigh : List (List Byte) :=
  [ [0xcd#8, 0x0c#8, 0x13#8, 0xec#8, 0x5f#8, 0x97#8, 0x44#8, 0x17#8, 0xc4#8, 0xa7#8, 0x7e#8, 0x3d#8, 0x64#8, 0x5d#8, 0x19#8, 0x73#8],
    [0x60#8, 0x81#8, 0x4f#8, 0xdc#8, 0x22#8, 0x2a#8, 0x90#8, 0x88#8, 0x46#8, 0xee#8, 0xb8#8, 0x14#8, 0xde#8, 0x5e#8, 0x0b#8, 0xdb#8],
    [0xe0#8, 0x32#8, 0x3a#8, 0x0a#8, 0x49#8, 0x06#8, 0x24#8, 0x5c#8, 0xc2#8, 0xd3#8, 0xac#8, 0x62#8, 0x91#8, 0x95#8, 0xe4#8, 0x79#8],
    [0xe7#8, 0xc8#8, 0x37#8, 0x6d#8, 0x8d#8, 0xd5#8, 0x4e#8, 0xa9#8, 0x6c#8, 0x56#8, 0xf4#8, 0xea#8, 0x65#8, 0x7a#8, 0xae#8, 0x08#8],
    [0xba#8, 0x78#8, 0x25#8, 0x2e#8, 0x1c#8, 0xa6#8, 0xb4#8, 0xc6#8, 0xe8#8, 0xdd#8, 0x74#8, 0x1f#8, 0x4b#8, 0xbd#8, 0x8b#8, 0x8a#8],
    [0x70#8, 0x3e#8, 0xb5#8, 0x66#8, 0x48#8, 0x03#8, 0xf6#8, 0x0e#8, 0x61#8, 0x35#8, 0x57#8, 0xb9#8, 0x86#8, 0xc1#8, 0x1d#8, 0x9e#8],
    [0xe1#8, 0xf8#8, 0x98#8, 0x11#8, 0x69#8, 0xd9#8, 0x8e#8, 0x94#8, 0x9b#8, 0x1e#8, 0x87#8, 0xe9#8, 0xce#8, 0x55#8, 0x28#8, 0xdf#8],
    [0x8c#8, 0xa1#8, 0x89#8, 0x0d#8, 0xbf#8, 0xe6#8, 0x42#8, 0x68#8, 0x41#8, 0x99#8, 0x2d#8, 0x0f#8, 0xb0#8, 0x54#8, 0xbb#8, 0x16#8] ]

/-- `S(b)`, read from the table of R202. -/
def sbox (b : Byte) : Byte :=
  (((sboxLow ++ sboxHigh).getD (b.toNat / 16) []).getD (b.toNat % 16) 0x00#8)

/-- Bytewise XOR of two columns. -/
def Column.xor (a b : Column) : Column :=
  ⟨a.b0 ^^^ b.b0, a.b1 ^^^ b.b1, a.b2 ^^^ b.b2, a.b3 ^^^ b.b3⟩

/-- `SubWord`: `S` of each byte (R208). -/
def subWord (a : Column) : Column := ⟨sbox a.b0, sbox a.b1, sbox a.b2, sbox a.b3⟩

/-- `RotWord(b0, b1, b2, b3) = (b1, b2, b3, b0)` (R208). -/
def rotWord (a : Column) : Column := ⟨a.b1, a.b2, a.b3, a.b0⟩

/-- MixColumns of one column (R206). -/
def mixColumn (a : Column) : Column :=
  ⟨xtime a.b0 ^^^ times3 a.b1 ^^^ a.b2 ^^^ a.b3,
   a.b0 ^^^ xtime a.b1 ^^^ times3 a.b2 ^^^ a.b3,
   a.b0 ^^^ a.b1 ^^^ xtime a.b2 ^^^ times3 a.b3,
   times3 a.b0 ^^^ a.b1 ^^^ a.b2 ^^^ xtime a.b3⟩

/-- `SubBytes` (R204). -/
def subBytes (s : Block) : Block := ⟨subWord s.c0, subWord s.c1, subWord s.c2, subWord s.c3⟩

/-- `ShiftRows`: `s'[r][c] = s[r][(c + r) mod 4]` (R205). -/
def shiftRows (s : Block) : Block :=
  ⟨⟨s.c0.b0, s.c1.b1, s.c2.b2, s.c3.b3⟩,
   ⟨s.c1.b0, s.c2.b1, s.c3.b2, s.c0.b3⟩,
   ⟨s.c2.b0, s.c3.b1, s.c0.b2, s.c1.b3⟩,
   ⟨s.c3.b0, s.c0.b1, s.c1.b2, s.c2.b3⟩⟩

/-- `MixColumns` (R206). -/
def mixColumns (s : Block) : Block := ⟨mixColumn s.c0, mixColumn s.c1, mixColumn s.c2, mixColumn s.c3⟩

/-- Bytewise XOR of two blocks (R11). -/
def Block.xor (a b : Block) : Block :=
  ⟨a.c0.xor b.c0, a.c1.xor b.c1, a.c2.xor b.c2, a.c3.xor b.c3⟩

/-- The block of 16 zero bytes (R11). -/
def Block.zero : Block :=
  ⟨⟨0#8, 0#8, 0#8, 0#8⟩, ⟨0#8, 0#8, 0#8, 0#8⟩, ⟨0#8, 0#8, 0#8, 0#8⟩, ⟨0#8, 0#8, 0#8, 0#8⟩⟩

/-- Word `j` of a byte string, the word's first byte first (R208). -/
def wordAt (bs : List Byte) (j : Nat) : Column :=
  ⟨bs.getD (4 * j) 0#8, bs.getD (4 * j + 1) 0#8, bs.getD (4 * j + 2) 0#8, bs.getD (4 * j + 3) 0#8⟩

/-- The input block sets `s[r][c] = X[r + 4c]` (R203). -/
def Block.ofBytes (bs : List Byte) : Block := ⟨wordAt bs 0, wordAt bs 1, wordAt bs 2, wordAt bs 3⟩

/-- A column's bytes in order. -/
def Column.bytes (a : Column) : List Byte := [a.b0, a.b1, a.b2, a.b3]

/-- The output is `Y[r + 4c] = s[r][c]` (R203). -/
def Block.bytes (s : Block) : List Byte := s.c0.bytes ++ s.c1.bytes ++ s.c2.bytes ++ s.c3.bytes

/-- The round constant `rc[j]`, `j` from 1 to 10 (R208). -/
def roundConstant (j : Nat) : Byte :=
  [0x01#8, 0x02#8, 0x04#8, 0x08#8, 0x10#8, 0x20#8, 0x40#8, 0x80#8, 0x1b#8, 0x36#8].getD (j - 1) 0x00#8

/-- The zero word, what a missing round-key word reads as; no rule reads one. -/
def zeroColumn : Column := ⟨0#8, 0#8, 0#8, 0#8⟩

/-- The next word `w[i]` of the key schedule, `i` the number of words so far (R208). -/
def nextKeyWord (nk : Nat) (w : List Column) : Column :=
  let i := w.length
  let t := w.getD (i - 1) zeroColumn
  let t' :=
    if i % nk = 0 then (subWord (rotWord t)).xor ⟨roundConstant (i / nk), 0#8, 0#8, 0#8⟩
    else if nk = 8 ∧ i % nk = 4 then subWord t
    else t
  (w.getD (i - nk) zeroColumn).xor t'

/-- Extend the key schedule by `n` words (R208). -/
def extendKey (nk : Nat) : Nat → List Column → List Column
  | 0, w => w
  | n + 1, w => extendKey nk n (w ++ [nextKeyWord nk w])

/-- `Nk = KEYLEN / 4` for a key given as its bytes (R200). -/
def keyWords (key : List Byte) : Nat := key.length / 4

/-- `Nr = Nk + 6` (R200). -/
def rounds (key : List Byte) : Nat := keyWords key + 6

/-- The key schedule: `4·(Nr+1)` words (R208). -/
def expandKey (key : List Byte) : List Column :=
  extendKey (keyWords key) (4 * (rounds key + 1) - keyWords key)
    ((List.range (keyWords key)).map (wordAt key))

/-- The round key of round `rnd` as a block: its column `c` is `w[4·rnd + c]` (R207). -/
def roundKey (w : List Column) (rnd : Nat) : Block :=
  ⟨w.getD (4 * rnd) zeroColumn, w.getD (4 * rnd + 1) zeroColumn,
   w.getD (4 * rnd + 2) zeroColumn, w.getD (4 * rnd + 3) zeroColumn⟩

/-- `AddRoundKey(rnd)` (R207). -/
def addRoundKey (w : List Column) (rnd : Nat) (s : Block) : Block := s.xor (roundKey w rnd)

/-- A round with MixColumns (R209). -/
def fullRound (w : List Column) (s : Block) (rnd : Nat) : Block :=
  addRoundKey w rnd (mixColumns (shiftRows (subBytes s)))

/-- The last round, without MixColumns (R209). -/
def lastRound (w : List Column) (s : Block) (rnd : Nat) : Block :=
  addRoundKey w rnd (shiftRows (subBytes s))

/-- `E_K(X)` on blocks: round key 0, rounds 1 to `Nr − 1` in full, then the last round (R209). -/
def encryptBlock (key : List Byte) (x : Block) : Block :=
  let w := expandKey key
  let nr := rounds key
  lastRound w ((List.range' 1 (nr - 1)).foldl (fullRound w) (addRoundKey w 0 x)) nr

end Sys2Proof.Machine
end

