-- ==== Sys2Proof/Machine/Cipher.lean ====
section
/-!
DEFINITION. The cipher commands CIPH and PRF (spec/42_cipher.md R210 to R214).
-/

namespace Sys2Proof.Machine

/-- The first `k` 16-byte blocks of a byte string (R210, R213). -/
def blocksOf : Nat → List Byte → List Block
  | 0, _ => []
  | k + 1, bs => Block.ofBytes (bs.take 16) :: blocksOf k (bs.drop 16)

/-- `E_K(X[0..16)) ∥ E_K(X[16..32)) ∥ …` over `k` blocks (R210). -/
def ecb (key : List Byte) (k : Nat) (x : List Byte) : List Byte :=
  (blocksOf k x).flatMap fun b => (encryptBlock key b).bytes

/-- `Y := E_K(Y ⊕ X[16j..16j+16))` over `k` blocks, starting from 16 zero bytes (R213). -/
def cbcMac (key : List Byte) (k : Nat) (x : List Byte) : Block :=
  (blocksOf k x).foldl (fun y b => encryptBlock key (y.xor b)) Block.zero

/-- CIPH (R210). -/
def execCiph (s : State) : Host.Outcome State Fault Refusal :=
  commit s do
    let key ← loadedKey s
    let n := s.lenVal
    let a := s.srcAddr
    let d := s.dstAddr
    checkBlockLen s.cfg n
    checkBounds s.cfg a n
    checkBounds s.cfg d n
    let x ← memRead s a n
    pure (memWrite s d (ecb key (n / 16) x))

/-- PRF (R213). -/
def execPrf (s : State) : Host.Outcome State Fault Refusal :=
  commit s do
    let key ← loadedKey s
    let n := s.lenVal
    let a := s.srcAddr
    let d := s.dstAddr
    checkBlockLen s.cfg n
    checkBounds s.cfg a n
    checkBounds s.cfg d 16
    let x ← memRead s a n
    pure (memWrite s d (cbcMac key (n / 16) x).bytes)

end Sys2Proof.Machine
end

