-- ==== Sys2Proof/Machine/KeyControl.lean ====
section
/-!
DEFINITION. The key and control commands KEYLD, KEYCLR and NOP (spec/43_control.md).
-/

namespace Sys2Proof.Machine

/-- The key length a KEYLD asks for; INVALID_KEY unless it is 16, 24 or 32 (R250). -/
def checkKeyLen (n : Nat) : Cmd KeyLen :=
  match KeyLen.ofBytes n with
  | some k => .ok k
  | none => .error (.raises .invalidKey)

/-- KEYLD (R250). -/
def execKeyld (s : State) : Host.Outcome State Fault Refusal :=
  commit s do
    let n := s.lenVal
    let a := s.srcAddr
    let k ← checkKeyLen n
    checkBounds s.cfg a n
    let bs ← memRead s a n
    pure (setKey s k bs)

/-- KEYCLR (R252). -/
def execKeyclr (s : State) : Host.Outcome State Fault Refusal :=
  commit s (pure (clearKey s))

/-- NOP (R254). -/
def execNop (s : State) : Host.Outcome State Fault Refusal :=
  commit s (pure s)

end Sys2Proof.Machine
end

