-- ==== Sys2Proof/Machine/Radix.lean ====
section
/-!
DEFINITION. The radix conversions NUM, STR, NUMB and BSTR (spec/40_radix.md). The checks stand in the order of each
rule's pseudocode, which is the order of spec/60_exceptions.md R271.
-/

namespace Sys2Proof.Machine

/-- NUM.B and NUM.H (R140). -/
def execNum (r : Reg) (esz : ElemSize) (s : State) : Host.Outcome State Fault Refusal :=
  commit s do
    let rdx := s.radixVal
    let n := s.lenVal
    let a := s.srcAddr
    checkRadix esz rdx
    checkLen s.cfg n
    checkBounds s.cfg a (elemWidth esz * n)
    let bs ← memRead s a (elemWidth esz * n)
    let xs := symbolsOf esz bs
    check (xs.all fun x => decide (x < rdx)) .invalidArgument
    writeReg s r (numr rdx xs)

/-- STR.B and STR.H (R142). -/
def execStr (r : Reg) (esz : ElemSize) (s : State) : Host.Outcome State Fault Refusal :=
  commit s do
    let v ← readReg s r
    let rdx := s.radixVal
    let m := s.lenVal
    let d := s.dstAddr
    checkRadix esz rdx
    checkLen s.cfg m
    checkBounds s.cfg d (elemWidth esz * m)
    check (decide (0 ≤ v) && decide (v < (rdx ^ m : Nat))) .invalidArgument
    pure (memWrite s d (symbolArrayBytes esz (digits rdx m v.toNat)))

/-- NUMB (R144). -/
def execNumb (r : Reg) (s : State) : Host.Outcome State Fault Refusal :=
  commit s do
    let n := s.lenVal
    let a := s.srcAddr
    checkLen s.cfg n
    checkBounds s.cfg a n
    let bs ← memRead s a n
    writeReg s r (be bs)

/-- BSTR (R146): `LEN = 0` is legal. -/
def execBstr (r : Reg) (s : State) : Host.Outcome State Fault Refusal :=
  commit s do
    let v ← readReg s r
    let n := s.lenVal
    let d := s.dstAddr
    check (decide (n ≤ s.cfg.maxLen)) .invalidArgument
    checkBounds s.cfg d n
    check (decide (0 ≤ v)) .invalidArgument
    check (decide (v < (256 ^ n : Nat))) .invalidArgument
    pure (memWrite s d (symbolArrayBytes .byte (digits 256 n v.toNat)))

end Sys2Proof.Machine
end

