-- ==== Sys2Proof/Machine/Dispatch.lean ====
section
/-!
DEFINITION. The meaning of each command (spec/30_encoding.md R110 outcome 2): one arm per constructor of `Instr`.
-/

namespace Sys2Proof.Machine

def exec (i : Instr) (s : State) : Host.Outcome State Fault Refusal :=
  match i with
  | .nop => Sys2Proof.Machine.execNop s
  | .keyld => Sys2Proof.Machine.execKeyld s
  | .keyclr => Sys2Proof.Machine.execKeyclr s
  | .ciph => Sys2Proof.Machine.execCiph s
  | .prf => Sys2Proof.Machine.execPrf s
  | .num r esz => Sys2Proof.Machine.execNum r esz s
  | .str r esz => Sys2Proof.Machine.execStr r esz s
  | .numb r => Sys2Proof.Machine.execNumb r s
  | .bstr r => Sys2Proof.Machine.execBstr r s
  | .add rd rs1 rs2 => Sys2Proof.Machine.execAdd rd rs1 rs2 s
  | .sub rd rs1 rs2 => Sys2Proof.Machine.execSub rd rs1 rs2 s
  | .mul rd rs1 rs2 => Sys2Proof.Machine.execMul rd rs1 rs2 s
  | .mod rd rs1 rs2 => Sys2Proof.Machine.execMod rd rs1 rs2 s
  | .ldi rd imm => Sys2Proof.Machine.execLdi rd imm s

end Sys2Proof.Machine
end

