-- ==== Sys2Proof/Machine/HostPort.lean ====
section
/-!
DEFINITION. The host's side: the register map (spec/10_state.md R40 to R54), the aperture and the buffer window
(spec/20_memory.md R90 to R93), and what the host may do while a command is pending
(spec/70_reset_and_hazards.md R301, R310 to R312).
-/

namespace Sys2Proof.Machine

/-- The registers of the map (R40). -/
inductive Csr where
  | id
  | capIntBits
  | capMaxLen
  | capBufBytes
  | ctrl
  | status
  | errcode
  | cmd
  | src
  | dst
  | len
  | radix
  | keyLen
deriving DecidableEq, Repr

/-- The registers in the order of the map (R40). -/
def csrMap : List Csr :=
  [.id, .capIntBits, .capMaxLen, .capBufBytes, .ctrl, .status, .errcode, .cmd, .src, .dst, .len, .radix, .keyLen]

/-- A register's byte offset in the aperture (R40). -/
def csrOffset : Csr → Nat
  | .id => 0x000
  | .capIntBits => 0x004
  | .capMaxLen => 0x008
  | .capBufBytes => 0x00C
  | .ctrl => 0x010
  | .status => 0x014
  | .errcode => 0x018
  | .cmd => 0x01C
  | .src => 0x020
  | .dst => 0x024
  | .len => 0x028
  | .radix => 0x02C
  | .keyLen => 0x030

/-- What an aligned aperture offset reaches (R90). -/
inductive Target where
  | csr (c : Csr)
  | reserved
  | window (a : Nat)
deriving DecidableEq, Repr

/-- The first byte of the buffer window (R91). -/
def windowBase : Nat := 0x10000

/-- The address map of the aperture (R90): the window from 0x10000, the registers to 0x030, the rest reserved. -/
def targetOf (o : BitVec 17) : Target :=
  if windowBase ≤ o.toNat then .window (o.toNat - windowBase)
  else
    match csrMap.find? fun c => csrOffset c == o.toNat with
    | some c => .csr c
    | none => .reserved

/-- What a register reads as; CTRL is write-only and reads 0 (R41 to R53). -/
def csrRead (c : Csr) (s : State) : Word :=
  match c with
  | .id => s.cfg.idValue
  | .capIntBits => BitVec.ofNat 32 s.cfg.intBits
  | .capMaxLen => BitVec.ofNat 32 s.cfg.maxLen
  | .capBufBytes => BitVec.ofNat 32 s.cfg.bufBytes
  | .ctrl => 0#32
  | .status => s.statusWord
  | .errcode => s.errcodeWord
  | .cmd => s.cmd
  | .src => s.src
  | .dst => s.dst
  | .len => s.len
  | .radix => s.radix
  | .keyLen => s.keyLenWord

/-- Four bytes as a big-endian word: the first byte in bits [31:24] (R85, R91). -/
def wordOfBytes : List Byte → Word
  | [b0, b1, b2, b3] => b0 ++ b1 ++ b2 ++ b3
  | _ => 0#32

/-- A word as its four bytes, bits [31:24] first (R91). -/
def bytesOfWord (v : Word) : List Byte :=
  [v.extractLsb' 24 8, v.extractLsb' 16 8, v.extractLsb' 8 8, v.extractLsb' 0 8]

/-- The host gets the word `v` from a read; the read changes nothing of the block (R88). -/
def reply (s : State) (v : Word) : State := { s with replies := s.replies ++ [v] }

/-- A host read of the buffer window at buffer address `a` (R91, R312). -/
def windowRead (a : Nat) (s : State) : State :=
  if s.busy then { reply s (Config.busyWord s.draws) with draws := s.draws + 1 }
  else if a + 4 ≤ s.cfg.bufBytes then
    match s.buf.readRange a 4 with
    | some bs => reply s (wordOfBytes bs)
    | none => recordFault s (.uninitRead a 4)
  else reply s 0#32

/-- A host write of the buffer window at buffer address `a` while idle (R91). -/
def windowWrite (a : Nat) (v : Word) (s : State) : State :=
  if a + 4 ≤ s.cfg.bufBytes then memWrite s a (bytesOfWord v) else s

/-- A host write of a register the host may write while idle, and of nothing else (R48 to R52). -/
def csrWrite (c : Csr) (v : Word) (s : State) : State :=
  match c with
  | .cmd => takeCommand s v
  | .src => { s with src := v }
  | .dst => { s with dst := v }
  | .len => { s with len := v }
  | .radix => { s with radix := v }
  | .ctrl => if v.getLsbD 0 then softReset s else s
  | .id | .capIntBits | .capMaxLen | .capBufBytes | .status | .errcode | .keyLen => s

/-- The writes that the busy hazard forbids (R310); every other write is allowed while busy (R311). -/
def hazardous : Target → Bool
  | .csr .cmd | .csr .src | .csr .dst | .csr .len | .csr .radix => true
  | .csr _ => false
  | .reserved => false
  | .window _ => true

/-- Does the write soft-reset the block (R45, R301)? -/
def isSoftReset (t : Target) (v : Word) : Bool := t == .csr .ctrl && v.getLsbD 0

/-- An aligned 32-bit host read (R92, R311). -/
def hostRead (o : BitVec 17) (s : State) : State :=
  match targetOf o with
  | .csr c => reply s (csrRead c s)
  | .reserved => reply s 0#32
  | .window a => windowRead a s

/-- An aligned 32-bit host write (R92, R310, R311). -/
def hostWrite (o : BitVec 17) (v : Word) (s : State) : State :=
  if s.busy && hazardous (targetOf o) then recordFault s (.hostProtocol o.toNat)
  else
    match targetOf o with
    | .csr c => csrWrite c v s
    | .reserved => s
    | .window a => windowWrite a v s

/-- Is the offset a multiple of 4 (R93)? -/
def aligned (o : BitVec 17) : Bool := o.toNat % 4 == 0

/-- The host's turn: one access, refused unless it is an aligned 32-bit one (R93, R281). After a model fault nothing
but a soft reset steps (R280, items 1 to 3 and 20 of spec/93_implementation_defined.md). -/
def hostTurn (t : Turn) (s : State) : Host.Outcome State Fault Refusal :=
  match t with
  | .core => .next s
  | .hostOther bits o => .refused (.hostAccessForm bits o.toNat)
  | .hostRead o =>
    if aligned o then
      match s.stopped with
      | some f => .fault f
      | none => .next (hostRead o s)
    else .refused (.hostAccessForm 32 o.toNat)
  | .hostWrite o v =>
    if aligned o then
      match s.stopped with
      | some f => if isSoftReset (targetOf o) v then .next (softReset s) else .fault f
      | none => .next (hostWrite o v s)
    else .refused (.hostAccessForm 32 o.toNat)

end Sys2Proof.Machine
end

