-- ==== Sys2Proof/Machine/Cycle.lean ====
section
/-!
DEFINITION. The core's step (spec/30_encoding.md R110) and whose turn it is (spec/20_memory.md R95).
-/

namespace Sys2Proof.Machine

/-- Execute a command word (R110, R111): ILLEGAL_COMMAND when it does not decode, else its meaning. A model fault is
recorded in FAULTS and the core takes no further step; the block stays busy. -/
def runCommand (w : Word) (s : State) : Host.Outcome State Fault Refusal :=
  match decode w with
  | none => .next (raise .illegalCommand s)
  | some i =>
    match exec i s with
    | .next t => .next t
    | .fault f => .next (recordFault s f)
    | .refused r => .refused r

/-- The core's turn: it has a step whenever a command is pending (R110); otherwise the block is idle and all state
survives (R295). After a model fault the core has no step (R110, R280). -/
def coreTurn (s : State) : Host.Outcome State Fault Refusal :=
  match s.stopped with
  | some f => .fault f
  | none =>
    match s.pending with
    | some w => runCommand w s
    | none => .next s

/-- The oldest turn to come is taken. When the host has no more to do the core runs what is pending, so a pending
command always completes (R95, R315). -/
def takeTurn (s : State) : Host.Outcome State Fault Refusal :=
  match s.turns with
  | [] => coreTurn s
  | .core :: ts => coreTurn { s with turns := ts }
  | t :: ts => hostTurn t { s with turns := ts }

/-- `w` placed as the pending command, the CMD write that starts it having been taken (R48), and the next turn the
core's, with no model fault standing. -/
def placeCommand (s : State) (w : Word) : State :=
  { takeCommand s w with stopped := none, turns := .core :: s.turns }

end Sys2Proof.Machine
end

