-- ==== Sys2Proof/Machine/Assembler.lean ====
section
/-!
DEFINITION. Assembler syntax, pseudo-instructions and host program notation (spec/30_encoding.md R122 to R124). A host
program is a list of turns; nothing here is a step of the block.
-/

namespace Sys2Proof.Machine

/-- A register operand, `I0` to `I15` (R122). -/
def asmReg (r : Reg) : String := "I" ++ toString r.val

/-- The suffix of NUM and STR (R122). -/
def asmSize : ElemSize → String
  | .byte => ".B "
  | .half => ".H "

/-- The operands of format R: `Id, Is1, Is2` (R122). -/
def asmRegs (rd rs1 rs2 : Reg) : String :=
  " " ++ asmReg rd ++ ", " ++ asmReg rs1 ++ ", " ++ asmReg rs2

/-- The assembler line of a command, its immediate in decimal (R122). -/
def asm : Instr → String
  | .nop => "NOP"
  | .keyld => "KEYLD"
  | .keyclr => "KEYCLR"
  | .ciph => "CIPH"
  | .prf => "PRF"
  | .num r esz => "NUM" ++ asmSize esz ++ asmReg r
  | .str r esz => "STR" ++ asmSize esz ++ asmReg r
  | .numb r => "NUMB " ++ asmReg r
  | .bstr r => "BSTR " ++ asmReg r
  | .add rd rs1 rs2 => "ADD" ++ asmRegs rd rs1 rs2
  | .sub rd rs1 rs2 => "SUB" ++ asmRegs rd rs1 rs2
  | .mul rd rs1 rs2 => "MUL" ++ asmRegs rd rs1 rs2
  | .mod rd rs1 rs2 => "MOD" ++ asmRegs rd rs1 rs2
  | .ldi rd imm => "LDI " ++ asmReg rd ++ ", " ++ toString imm.toNat

/-- The pseudo-instructions (R123). -/
inductive Pseudo where
  | clr (d : Reg)
  | mov (d s : Reg)
  | modadd (d a b m : Reg)
  | modsub (d a b m : Reg)
  | ldw (d t : Reg) (imm : Word)
deriving DecidableEq, Repr

/-- The Condition column of R123. MOV with `d = s` is legal and expands to nothing. -/
def pseudoWf : Pseudo → Bool
  | .clr _ => true
  | .mov _ _ => true
  | .modadd d _ _ m => d != m
  | .modsub d _ _ m => d != m
  | .ldw d t _ => d != t

/-- The Expansion column of R123. -/
def expandPseudo : Pseudo → List Instr
  | .clr d => [.ldi d 0#16]
  | .mov d s => if d = s then [] else [.ldi d 0#16, .add d s d]
  | .modadd d a b m => [.add d a b, .mod d d m]
  | .modsub d a b m => [.sub d a b, .mod d d m]
  | .ldw d t imm =>
    [.ldi d (imm.extractLsb' 16 16), .ldi t 256#16, .mul d d t, .mul d d t,
     .ldi t (imm.extractLsb' 0 16), .add d d t]

/-- Commands issued in order, each completing before the next (R123). A command that raises leaves the effects of
those before it. DESIGN CHOICE (log entry 13): the commands after one that raises are still issued, where R123 speaks
only of those before it; the run ends at the first fault or refusal. DESIGN CHOICE (log entry 13): each command is its
meaning alone, without the host's CMD write that issues it (R48), so CMD keeps the value it had. -/
def execAll : List Instr → State → Host.Outcome State Fault Refusal
  | [], s => .next s
  | i :: is, s =>
    match exec i s with
    | .next t => execAll is t
    | .fault f => .fault f
    | .refused r => .refused r

/-- `wr NAME, v` (R124). -/
def wr (c : Csr) (v : Word) : List Turn := [.hostWrite (BitVec.ofNat 17 (csrOffset c)) v]

/-- `rdCsr NAME`: a 32-bit host read of a register, as the vectors of spec/95_test_vectors.md use it. -/
def rdCsr (c : Csr) : List Turn := [.hostRead (BitVec.ofNat 17 (csrOffset c))]

/-- `wrbuf a: w0 w1 …` (R124). -/
def wrbuf (a : Nat) : List Word → List Turn
  | [] => []
  | w :: ws => .hostWrite (BitVec.ofNat 17 (windowBase + a)) w :: wrbuf (a + 4) ws

/-- `rdbuf a, n` (R124). -/
def rdbuf (a : Nat) : Nat → List Turn
  | 0 => []
  | n + 1 => .hostRead (BitVec.ofNat 17 (windowBase + a)) :: rdbuf (a + 4) n

/-- `wait` with `polls` reads of STATUS before the core's step and one after it (R124). -/
def waitIdle (polls : Nat) : List Turn :=
  (List.replicate polls (rdCsr .status)).flatten ++ [.core] ++ rdCsr .status

/-- `do X` (R124): write CMD, then poll until the block is idle. -/
def doCommand (polls : Nat) (i : Instr) : List Turn := wr .cmd (encode i) ++ waitIdle polls

end Sys2Proof.Machine
end

