-- ==== Sys2Proof/WellFormed.lean ====
section
/-!
DEFINITION. Well-formedness. A command needs no check: every field of `Instr` has exactly the values its encoding
admits (spec/30_encoding.md R118), so an ill-formed command cannot be written. What can be ill formed is a
configuration (spec/00_scope.md R7), and a pseudo-instruction (Machine/Assembler.lean, R123).
-/

namespace Sys2Proof

/-- A legal configuration: the constraints of R7. DEDUCED (log entry 1): `INT_BITS` also fits the 32-bit register
CAP_INTBITS that shows it (R42). -/
def Config.wf (c : Config) : Bool :=
  decide (32 ≤ c.intBits) && decide (c.intBits < 2 ^ 32)
    && decide (16 ≤ c.maxLen) && decide (c.maxLen ≤ c.bufBytes)
    && decide (c.bufBytes % 16 = 0) && decide (64 ≤ c.bufBytes) && decide (c.bufBytes ≤ 65536)

end Sys2Proof
end

