-- ==== Sys2Proof/Safety.lean ====
section
/-!
DEFINITION. What claims about fpe4j-core are said in: the invariant of its states, the end of a run, and the parts of the
state a command leaves alone.
-/

namespace Sys2Proof.Machine

/-- Every valid integer register is in range (R32). -/
def RegsInRange (s : State) : Prop := ∀ (r : Reg) (v : Int), s.regs[r] = some v → inRange s.cfg v = true

/-- BUF is in canonical form and every written byte is inside it (R80). -/
def BufferOk (s : State) : Prop := s.buf.wf ∧ s.buf.below s.cfg.bufBytes

/-- ERR and ERRCODE report one thing (R46, R55), the reserved codes 5 and 7 are never reported (R270, R274), and
both read 0 while a command is pending (R47, R311). -/
def ReportOk (s : State) : Prop :=
  (s.err = true ↔ s.errcode ≠ 0#3) ∧ s.errcode ≠ 5#3 ∧ s.errcode ≠ 7#3
    ∧ (s.pending ≠ none → s.err = false)

/-- CMD reads the pending command (R48). -/
def CommandOk (s : State) : Prop := ∀ w, s.pending = some w → s.cmd = w

/-- FAULTS is a set, and what the core stopped on is recorded in it (R38, R110). -/
def FaultsOk (s : State) : Prop := s.faults.Nodup ∧ ∀ f, s.stopped = some f → f ∈ s.faults

/-- The invariant of the states of an instance with legal parameters. -/
structure State.Inv (s : State) : Prop where
  config : s.cfg.wf = true
  regs : RegsInRange s
  buffer : BufferOk s
  report : ReportOk s
  command : CommandOk s
  faults : FaultsOk s

/-- A host program's run is over (R316): no host access is left, nothing is pending, no model fault is recorded. -/
def State.runOver (s : State) : Prop :=
  (∀ t ∈ s.turns, t = .core) ∧ s.pending = none ∧ s.faults = []

/-- The core is to move: no model fault stands, and the next turn is the core's or the host has no more (R95, R110). -/
def CoreToMove (s : State) : Prop := s.stopped = none ∧ (s.turns = [] ∨ s.turns.head? = some .core)

/-- The state with its next turn taken off. -/
def State.afterTurn (s : State) : State := { s with turns := s.turns.tail }

/-- The state after a completion without error and without writes (R110). -/
def State.done (s : State) : State := { s with err := false, errcode := 0#3, pending := none }

/-- The state after an error completion with code `code`: the state before the command, except for STATUS and
ERRCODE (R272). -/
def State.failed (s : State) (code : BitVec 3) : State :=
  { s with err := true, errcode := code, pending := none }

/-- The state with the model fault `f` in the set FAULTS and the core stopped on it (R38, R110, R280). -/
def State.faulted (s : State) (f : Fault) : State :=
  { s with faults := if f ∈ s.faults then s.faults else s.faults ++ [f], stopped := some f }

/-- `v` is in the range of an integer register (R32). -/
def Fits (c : Config) (v : Int) : Prop :=
  -(2 ^ (c.intBits - 1) : Int) ≤ v ∧ v ≤ 2 ^ (c.intBits - 1) - 1

/-- The byte string `bs` stands in the buffer at address `a` (R83, R84). -/
def BytesAt (m : Memory) (a : Nat) (bs : List Byte) : Prop :=
  ∀ (i : Nat) (h : i < bs.length), m.read (a + i) = some bs[i]

/-- A byte of `[a, a+n)` is unwritten (R83). -/
def Unwritten (m : Memory) (a n : Nat) : Prop := ∃ i, i < n ∧ m.read (a + i) = none

/-- Symbol `i` of the array at buffer address `a` is `x` (R86). -/
def SymbolAt (m : Memory) (esz : ElemSize) (a i x : Nat) : Prop :=
  match esz with
  | .byte => ∃ b : Byte, m.read (a + i) = some b ∧ x = b.toNat
  | .half => ∃ hi lo : Byte, m.read (a + 2 * i) = some hi ∧ m.read (a + 2 * i + 1) = some lo
      ∧ x = hi.toNat * 256 + lo.toNat

/-- Every byte of the buffer outside `[a, a+n)` reads as before. -/
def KeptOutside (a n : Nat) (m m' : Memory) : Prop := ∀ b, (b < a ∨ a + n ≤ b) → m'.read b = m.read b

/-- The checks of NUM and STR that need no buffer data, for an array at address `a` (R140, R142). -/
def ConversionOk (esz : ElemSize) (a : Nat) (s : State) : Prop :=
  2 ≤ s.radix.toNat ∧ s.radix.toNat ≤ 65536 ∧ (esz = .half ∨ s.radix.toNat ≤ 256)
    ∧ 1 ≤ s.len.toNat ∧ s.len.toNat ≤ s.cfg.maxLen
    ∧ a + elemWidth esz * s.len.toNat ≤ s.cfg.bufBytes

/-- The checks of CIPH and PRF after the key's, for an output of `out` bytes (R210, R213). -/
def CipherOk (out : Nat) (s : State) : Prop :=
  16 ≤ s.len.toNat ∧ s.len.toNat % 16 = 0 ∧ s.len.toNat ≤ s.cfg.maxLen
    ∧ s.src.toNat + s.len.toNat ≤ s.cfg.bufBytes ∧ s.dst.toNat + out ≤ s.cfg.bufBytes

/-- The AES key `K = KEY[0..KEYLEN)` (R35). -/
def State.aesKey (s : State) : List Byte := s.key.toList.take s.keyLen.bytes

/-- Block `j` of a byte string: its bytes `[16j, 16j+16)` (R210, R213). -/
def blockAt (x : List Byte) (j : Nat) : Block := Block.ofBytes ((x.drop (16 * j)).take 16)

/-- The entry `s[r][c]` of the cipher's state, byte `r + 4c` of the block (R203). -/
def cell (s : Block) (r c : Fin 4) : Byte := s.bytes.getD (r.val + 4 * c.val) 0#8

/-- A legal AES key length: 16, 24 or 32 bytes (R8, R200). -/
def LegalKey (key : List Byte) : Prop := key.length = 16 ∨ key.length = 24 ∨ key.length = 32

/-- What no command writes: the instance's constants, CMD, the operand registers, FAULTS and the model's fields of
the host (R14, R34, R38, R270). -/
def HostStateKept (s t : State) : Prop :=
  t.cfg = s.cfg ∧ t.cmd = s.cmd ∧ t.src = s.src ∧ t.dst = s.dst ∧ t.len = s.len ∧ t.radix = s.radix
    ∧ t.faults = s.faults ∧ t.stopped = s.stopped ∧ t.turns = s.turns ∧ t.replies = s.replies

/-- The key store and the model's draw counter are unchanged. -/
def KeyKept (s t : State) : Prop := t.key = s.key ∧ t.keyLen = s.keyLen ∧ t.draws = s.draws

/-- Two states that the host and the commands cannot tell apart: equal but for the key bytes at and beyond KEYLEN
(R35, R250). -/
def SameButHiddenKey (s t : State) : Prop :=
  t = { s with key := t.key } ∧ ∀ i : Fin 32, i.val < s.keyLen.bytes → t.key[i] = s.key[i]

/-- Two outcomes of one kind, their states related by `R` and their reasons equal. -/
def SameOutcome (R : State → State → Prop) :
    Host.Outcome State Fault Refusal → Host.Outcome State Fault Refusal → Prop
  | .next s, .next t => R s t
  | .fault f, .fault g => f = g
  | .refused x, .refused y => x = y
  | _, _ => False

end Sys2Proof.Machine
end

