-- ==== Sys2Proof/Certificates/Slice0/Obligations.lean ====
section
/-!
DEFINITION. The statements about fpe4j-core that the provers settle. Each docstring names the rule of spec/ the statement
formalises. `State.done`, `State.failed` and `State.faulted` (Safety.lean) are whole states, so an equation with one of them
is the result and the whole frame at once.
-/

open Sys2Proof Sys2Proof.Machine

/-! ## Encoding -/

/-- Decoding the word of a command gives the command back, for every command and every operand (R111 to R119). -/
def Obligations.EncodeThenDecode : Prop := ∀ i : Instr, decode (encode i) = some i

/-- A word that decodes is the word of the command it decodes to: no reserved bit is ignored (R111, R120). -/
def Obligations.DecodeThenEncode : Prop := ∀ (w : Word) (i : Instr), decode w = some i → encode i = w

/-- R111 whole: at most one row matches a word; a word decodes to the row it matches; the core reports a word no row
matches as ILLEGAL_COMMAND (code 6) and nothing else happens. -/
def Obligations.DecodeIsTheMatchingRow : Prop :=
  (∀ w : Word, ∀ row ∈ opcodeTable, ∀ row' ∈ opcodeTable,
    row.matchesWord w = true → row'.matchesWord w = true → row = row') ∧
  (∀ (w : Word) (name : String),
    (∃ i, decode w = some i ∧ mnemonicOf i = name) ↔
      ∃ row ∈ opcodeTable, row.mnemonic = name ∧ row.matchesWord w = true) ∧
  (∀ (s : State) (w : Word), CoreToMove s → s.pending = some w →
    (∀ row ∈ opcodeTable, row.matchesWord w = false) → step s = .next (s.afterTurn.failed 6#3))

/-- Words the spec writes out decode to the commands it names, and its illegal words do not decode (R122, R119, the
examples of the command rules, vectors X1 to X7). -/
def Obligations.WrittenWordsDecode : Prop :=
  decode 0x00000000#32 = some .nop ∧ decode 0x00000001#32 = some .keyld ∧
  decode 0x00000002#32 = some .keyclr ∧ decode 0x00000010#32 = some .ciph ∧
  decode 0x00000011#32 = some .prf ∧ decode 0x00010120#32 = some (.num 1 .half) ∧
  decode 0x00000421#32 = some (.str 4 .byte) ∧ decode 0x00000222#32 = some (.numb 2) ∧
  decode 0x00000123#32 = some (.bstr 1) ∧ decode 0x00023430#32 = some (.add 4 3 2) ∧
  decode 0x00021531#32 = some (.sub 5 1 2) ∧ decode 0x000BAC32#32 = some (.mul 12 10 11) ∧
  decode 0x000C4433#32 = some (.mod 4 4 12) ∧ decode 0x27100A40#32 = some (.ldi 10 10000#16) ∧
  decode 0x00000003#32 = none ∧ decode 0x00000012#32 = none ∧ decode 0x00000100#32 = none ∧
  decode 0x00010022#32 = none ∧ decode 0x00100030#32 = none ∧ decode 0x0000F040#32 = none ∧
  decode 0x000000FF#32 = none

/-! ## The core's step -/

/-- A step runs the decoded command (R110): its next state is the step's; on its model fault the step records the fault
in FAULTS and stops the core, the command still pending; no decoded command is refused. The turn taken is the only thing
the step adds. -/
def Obligations.StepRunsTheDecodedCommand : Prop :=
  ∀ (s : State) (w : Word) (i : Instr), CoreToMove s → s.pending = some w → decode w = some i →
    (∀ t, exec i s.afterTurn = .next t → step s = .next t) ∧
    (∀ f, exec i s.afterTurn = .fault f → step s = .next (s.afterTurn.faulted f)) ∧
    (∀ x, exec i s.afterTurn ≠ .refused x)

/-- With nothing pending the block is idle and all state survives (R110, R295): the step only takes the turn. -/
def Obligations.IdleKeepsEverything : Prop :=
  ∀ s : State, CoreToMove s → s.pending = none → step s = .next s.afterTurn

/-- After a model fault the core takes no further step, and no host access but a soft reset does (R110, R280; items 1 to
3 and 20 of 93_implementation_defined.md; log entry 3). -/
def Obligations.NoStepAfterAFault : Prop :=
  ∀ (s : State) (f : Fault), s.stopped = some f →
    (s.turns = [] → step s = .fault f) ∧
    (∀ ts, s.turns = .core :: ts → step s = .fault f) ∧
    (∀ o ts, s.turns = .hostRead o :: ts → o.toNat % 4 = 0 → step s = .fault f) ∧
    (∀ o v ts, s.turns = .hostWrite o v :: ts → o.toNat % 4 = 0 →
      ¬(o = 0x010#17 ∧ v.getLsbD 0 = true) → step s = .fault f)

/-! ## Key and control commands -/

/-- R254 whole: the word 0 is NOP, and it completes, writing nothing; a word with opcode 0x00 and any other bit set raises
ILLEGAL_COMMAND (6). -/
def Obligations.NopCompletes : Prop :=
  decode 0x00000000#32 = some .nop ∧ (∀ s : State, exec .nop s = .next s.done) ∧
  ∀ (s : State) (w : Word), CoreToMove s → s.pending = some w → opcodeField w = 0x00#8 → w ≠ 0x00000000#32 →
    step s = .next (s.afterTurn.failed 6#3)

/-- R252 whole: KEYCLR completes with KEYLEN 0, whatever was loaded, so STATUS.KEYV is 0; with no key CIPH and PRF raise
NULL_ARGUMENT (1), and no command but a KEYLD that completes without error ends that. Of KEY itself, and of the model's draw
counter, nothing is said: the bytes are unspecified (item 6). -/
def Obligations.KeyclrForgetsTheKey : Prop :=
  decode 0x00000002#32 = some .keyclr ∧
  (∀ s : State, ∃ (k : Vector Byte 32) (d : Nat),
    exec .keyclr s = .next { s.done with key := k, keyLen := .empty, draws := d }) ∧
  (∀ s : State, s.keyLen = .empty →
    s.keyv = false ∧ exec .ciph s = .next (s.failed 1#3) ∧ exec .prf s = .next (s.failed 1#3)) ∧
  ∀ (i : Instr) (s t : State), s.keyLen = .empty → exec i s = .next t → t.keyLen ≠ .empty →
    i = .keyld ∧ t.err = false

/-- R250 whole: KEYLD of 16, 24 or 32 written, in-bounds bytes loads them and sets KEYLEN; another length is INVALID_KEY
(3) before anything else is looked at; a range out of bounds is INVALID_ARGUMENT (2); an unwritten byte is
UNINIT_READ. -/
def Obligations.KeyldLoadsTheKey : Prop :=
  decode 0x00000001#32 = some .keyld ∧
  ∀ s : State,
    (∀ bs : List Byte, LegalKey bs → s.len.toNat = bs.length →
      s.src.toNat + bs.length ≤ s.cfg.bufBytes → BytesAt s.buf s.src.toNat bs →
      ∃ (k : Vector Byte 32) (n : KeyLen) (d : Nat),
        exec .keyld s = .next { s.done with key := k, keyLen := n, draws := d } ∧
        n.bytes = bs.length ∧ k.toList.take bs.length = bs) ∧
    (s.len.toNat ≠ 16 → s.len.toNat ≠ 24 → s.len.toNat ≠ 32 → exec .keyld s = .next (s.failed 3#3)) ∧
    (s.len.toNat = 16 ∨ s.len.toNat = 24 ∨ s.len.toNat = 32 →
      s.cfg.bufBytes < s.src.toNat + s.len.toNat → exec .keyld s = .next (s.failed 2#3)) ∧
    (s.len.toNat = 16 ∨ s.len.toNat = 24 ∨ s.len.toNat = 32 →
      s.src.toNat + s.len.toNat ≤ s.cfg.bufBytes → Unwritten s.buf s.src.toNat s.len.toNat →
      exec .keyld s = .fault (.uninitRead s.src.toNat s.len.toNat))

/-! ## Integer commands -/

/-- R170 whole: encoding, the exact sum, ARITHMETIC_ERROR (4) out of range, NULL_ARGUMENT (1) on an invalid source. The
destination may be a source. -/
def Obligations.AddIsExact : Prop :=
  ∀ rd rs1 rs2 : Reg,
    decode (BitVec.ofNat 32 (0x30 + 0x100 * rd.val + 0x1000 * rs1.val + 0x10000 * rs2.val))
      = some (.add rd rs1 rs2) ∧
    ∀ s : State,
      (∀ a b : Int, s.regs[rs1] = some a → s.regs[rs2] = some b → Fits s.cfg (a + b) →
        exec (.add rd rs1 rs2) s = .next { s.done with regs := s.regs.set rd (some (a + b)) }) ∧
      (∀ a b : Int, s.regs[rs1] = some a → s.regs[rs2] = some b → ¬Fits s.cfg (a + b) →
        exec (.add rd rs1 rs2) s = .next (s.failed 4#3)) ∧
      (s.regs[rs1] = none ∨ s.regs[rs2] = none → exec (.add rd rs1 rs2) s = .next (s.failed 1#3))

/-- R172 whole: encoding, the exact difference, which may be negative, and the errors as for ADD. -/
def Obligations.SubIsExact : Prop :=
  ∀ rd rs1 rs2 : Reg,
    decode (BitVec.ofNat 32 (0x31 + 0x100 * rd.val + 0x1000 * rs1.val + 0x10000 * rs2.val))
      = some (.sub rd rs1 rs2) ∧
    ∀ s : State,
      (∀ a b : Int, s.regs[rs1] = some a → s.regs[rs2] = some b → Fits s.cfg (a - b) →
        exec (.sub rd rs1 rs2) s = .next { s.done with regs := s.regs.set rd (some (a - b)) }) ∧
      (∀ a b : Int, s.regs[rs1] = some a → s.regs[rs2] = some b → ¬Fits s.cfg (a - b) →
        exec (.sub rd rs1 rs2) s = .next (s.failed 4#3)) ∧
      (s.regs[rs1] = none ∨ s.regs[rs2] = none → exec (.sub rd rs1 rs2) s = .next (s.failed 1#3))

/-- R174 whole: encoding, the exact full product, and the errors as for ADD; nothing is truncated. -/
def Obligations.MulIsExact : Prop :=
  ∀ rd rs1 rs2 : Reg,
    decode (BitVec.ofNat 32 (0x32 + 0x100 * rd.val + 0x1000 * rs1.val + 0x10000 * rs2.val))
      = some (.mul rd rs1 rs2) ∧
    ∀ s : State,
      (∀ a b : Int, s.regs[rs1] = some a → s.regs[rs2] = some b → Fits s.cfg (a * b) →
        exec (.mul rd rs1 rs2) s = .next { s.done with regs := s.regs.set rd (some (a * b)) }) ∧
      (∀ a b : Int, s.regs[rs1] = some a → s.regs[rs2] = some b → ¬Fits s.cfg (a * b) →
        exec (.mul rd rs1 rs2) s = .next (s.failed 4#3)) ∧
      (s.regs[rs1] = none ∨ s.regs[rs2] = none → exec (.mul rd rs1 rs2) s = .next (s.failed 1#3))

/-- R176 whole: encoding, the Euclidean remainder for `m > 0` at every sign of `a`, ARITHMETIC_ERROR (4) for `m ≤ 0`,
NULL_ARGUMENT (1) on an invalid source. `RegsInRange` (R32) is the invariant that puts the modulus in range. -/
def Obligations.ModIsTheEuclideanRemainder : Prop :=
  ∀ rd rs1 rs2 : Reg,
    decode (BitVec.ofNat 32 (0x33 + 0x100 * rd.val + 0x1000 * rs1.val + 0x10000 * rs2.val))
      = some (.mod rd rs1 rs2) ∧
    ∀ s : State,
      (∀ a m : Int, RegsInRange s → s.regs[rs1] = some a → s.regs[rs2] = some m → 0 < m →
        exec (.mod rd rs1 rs2) s = .next { s.done with regs := s.regs.set rd (some (a % m)) }) ∧
      (∀ a m : Int, s.regs[rs1] = some a → s.regs[rs2] = some m → m ≤ 0 →
        exec (.mod rd rs1 rs2) s = .next (s.failed 4#3)) ∧
      (s.regs[rs1] = none ∨ s.regs[rs2] = none → exec (.mod rd rs1 rs2) s = .next (s.failed 1#3))

/-- R182: for every `a` and every `m > 0` the registers can hold, MOD gives `r` with `0 ≤ r < m` and `a − r` a multiple
of `m`. -/
def Obligations.ModLaw : Prop :=
  ∀ (rd rs1 rs2 : Reg) (s : State) (a m : Int), RegsInRange s →
    s.regs[rs1] = some a → s.regs[rs2] = some m → 0 < m →
    ∃ (t : State) (r q : Int), exec (.mod rd rs1 rs2) s = .next t ∧ t.err = false ∧
      t.regs[rd] = some r ∧ 0 ≤ r ∧ r < m ∧ a - r = m * q

/-- R178 whole: encoding, and LDI writes the zero-extended immediate and never raises (INT_BITS is at least 32, R7). A
nonzero `w[15:12]` does not decode, and the core raises ILLEGAL_COMMAND (6) on it. -/
def Obligations.LdiLoadsTheImmediate : Prop :=
  ∀ (rd : Reg) (imm : BitVec 16),
    decode (BitVec.ofNat 32 (0x40 + 0x100 * rd.val + 0x10000 * imm.toNat)) = some (.ldi rd imm) ∧
    (∀ w : Word, opcodeField w = 0x40#8 → w.extractLsb' 12 4 ≠ 0#4 →
      decode w = none ∧
      ∀ s : State, CoreToMove s → s.pending = some w → step s = .next (s.afterTurn.failed 6#3)) ∧
    ∀ s : State, s.cfg.wf = true →
      exec (.ldi rd imm) s = .next { s.done with regs := s.regs.set rd (some (imm.toNat : Int)) }

/-- R181: with `0 ≤ a, b < M` and `2M ≤ 2^(INT_BITS−1)`, ADD then MOD gives `(a + b) mod M` and SUB then MOD gives
`(a − b) mod M`, and neither sequence raises. The destination is not the modulus (R123). -/
def Obligations.ModularAddAndSubtract : Prop :=
  ∀ (d ra rb rm : Reg) (s : State) (a b m : Int), d ≠ rm →
    s.regs[ra] = some a → s.regs[rb] = some b → s.regs[rm] = some m →
    0 ≤ a → a < m → 0 ≤ b → b < m → 2 * m ≤ 2 ^ (s.cfg.intBits - 1) →
    (∃ u t : State, exec (.add d ra rb) s = .next u ∧ u.err = false ∧
      exec (.mod d d rm) u = .next t ∧ t = { s.done with regs := s.regs.set d (some ((a + b) % m)) }) ∧
    (∃ u t : State, exec (.sub d ra rb) s = .next u ∧ u.err = false ∧
      exec (.mod d d rm) u = .next t ∧ t = { s.done with regs := s.regs.set d (some ((a - b) % m)) })

/-- The pseudo-instructions CLR, MOV and LDW have the effect their names say (R123), when the value fits; LDW overwrites
its scratch register. That CMD keeps its old value is the model's choice: `execAll` runs the meanings without the host's CMD
writes (log entry 13). -/
def Obligations.PseudoInstructionsDoWhatTheySay : Prop :=
  ∀ s : State, s.cfg.wf = true →
    (∀ d : Reg, execAll (expandPseudo (.clr d)) s = .next { s.done with regs := s.regs.set d (some 0) }) ∧
    (∀ (d r : Reg) (v : Int), d ≠ r → s.regs[r] = some v → Fits s.cfg v →
      execAll (expandPseudo (.mov d r)) s = .next { s.done with regs := s.regs.set d (some v) }) ∧
    (∀ d : Reg, execAll (expandPseudo (.mov d d)) s = .next s) ∧
    (∀ (d r : Reg) (imm : Word), pseudoWf (.ldw d r imm) = true → Fits s.cfg imm.toNat →
      execAll (expandPseudo (.ldw d r imm)) s =
        .next { s.done with
          regs := (s.regs.set r (some ((imm.toNat % 65536 : Nat) : Int))).set d (some (imm.toNat : Int)) })

/-! ## Radix conversions -/

/-- NUM completes with the value of the array, `Σ X[i]·RADIX^(n−1−i)`, for both element sizes (R140, R86, R12). -/
def Obligations.NumConverts : Prop :=
  ∀ (r : Reg) (esz : ElemSize) (s : State) (x : Nat → Nat), ConversionOk esz s.src.toNat s →
    (∀ i, i < s.len.toNat → SymbolAt s.buf esz s.src.toNat i (x i) ∧ x i < s.radix.toNat) →
    Fits s.cfg (∑ i ∈ Finset.range s.len.toNat, x i * s.radix.toNat ^ (s.len.toNat - 1 - i) : Nat) →
    exec (.num r esz) s = .next { s.done with
      regs := s.regs.set r
        (some (∑ i ∈ Finset.range s.len.toNat, x i * s.radix.toNat ^ (s.len.toNat - 1 - i) : Nat)) }

/-- Where NUM does not convert, in the order of its checks (R140, R271): a bad radix, element size, length or bound is
INVALID_ARGUMENT (2) before the buffer is read; then an unwritten byte is UNINIT_READ; then a symbol not below RADIX is
INVALID_ARGUMENT; then a value that does not fit is ARITHMETIC_ERROR (4). -/
def Obligations.NumErrors : Prop :=
  ∀ (r : Reg) (esz : ElemSize) (s : State),
    (¬ConversionOk esz s.src.toNat s → exec (.num r esz) s = .next (s.failed 2#3)) ∧
    (ConversionOk esz s.src.toNat s → Unwritten s.buf s.src.toNat (elemWidth esz * s.len.toNat) →
      exec (.num r esz) s = .fault (.uninitRead s.src.toNat (elemWidth esz * s.len.toNat))) ∧
    (∀ x : Nat → Nat, ConversionOk esz s.src.toNat s →
      (∀ i, i < s.len.toNat → SymbolAt s.buf esz s.src.toNat i (x i)) →
      (∃ i, i < s.len.toNat ∧ s.radix.toNat ≤ x i) → exec (.num r esz) s = .next (s.failed 2#3)) ∧
    (∀ x : Nat → Nat, ConversionOk esz s.src.toNat s →
      (∀ i, i < s.len.toNat → SymbolAt s.buf esz s.src.toNat i (x i) ∧ x i < s.radix.toNat) →
      ¬Fits s.cfg (∑ i ∈ Finset.range s.len.toNat, x i * s.radix.toNat ^ (s.len.toNat - 1 - i) : Nat) →
      exec (.num r esz) s = .next (s.failed 4#3))

/-- STR completes with the `LEN` digits of the integer in radix RADIX, leading zeros included, at DST, and stores nowhere
else (R142, R86). -/
def Obligations.StrConverts : Prop :=
  ∀ (r : Reg) (esz : ElemSize) (s : State) (v : Nat), ConversionOk esz s.dst.toNat s →
    s.regs[r] = some (v : Int) → v < s.radix.toNat ^ s.len.toNat →
    ∃ m : Memory, exec (.str r esz) s = .next { s.done with buf := m } ∧
      (∀ i, i < s.len.toNat →
        SymbolAt m esz s.dst.toNat i (v / s.radix.toNat ^ (s.len.toNat - 1 - i) % s.radix.toNat)) ∧
      KeptOutside s.dst.toNat (elemWidth esz * s.len.toNat) s.buf m

/-- Where STR does not convert (R142, R271): an invalid register is NULL_ARGUMENT (1) before anything else; then a bad
radix, element size, length or bound, a negative value, or a value of `RADIX^LEN` or more is INVALID_ARGUMENT (2). -/
def Obligations.StrErrors : Prop :=
  ∀ (r : Reg) (esz : ElemSize) (s : State),
    (s.regs[r] = none → exec (.str r esz) s = .next (s.failed 1#3)) ∧
    (∀ v : Int, s.regs[r] = some v →
      (¬ConversionOk esz s.dst.toNat s ∨ v < 0 ∨ (s.radix.toNat ^ s.len.toNat : Nat) ≤ v) →
      exec (.str r esz) s = .next (s.failed 2#3))

/-- NUMB completes with the unsigned big-endian value of the bytes (R144, R12). -/
def Obligations.NumbConverts : Prop :=
  ∀ (r : Reg) (s : State) (bs : List Byte), s.len.toNat = bs.length → 1 ≤ bs.length →
    bs.length ≤ s.cfg.maxLen → s.src.toNat + bs.length ≤ s.cfg.bufBytes →
    BytesAt s.buf s.src.toNat bs →
    Fits s.cfg (∑ i : Fin bs.length, bs[i].toNat * 256 ^ (bs.length - 1 - i.val) : Nat) →
    exec (.numb r) s = .next { s.done with
      regs := s.regs.set r
        (some (∑ i : Fin bs.length, bs[i].toNat * 256 ^ (bs.length - 1 - i.val) : Nat)) }

/-- BSTR completes with exactly LEN big-endian bytes at DST, LEN 0 included, and stores nowhere else (R146). -/
def Obligations.BstrConverts : Prop :=
  ∀ (r : Reg) (s : State) (v : Nat), s.len.toNat ≤ s.cfg.maxLen →
    s.dst.toNat + s.len.toNat ≤ s.cfg.bufBytes → s.regs[r] = some (v : Int) → v < 256 ^ s.len.toNat →
    ∃ m : Memory, exec (.bstr r) s = .next { s.done with buf := m } ∧
      (∀ i, i < s.len.toNat →
        SymbolAt m .byte s.dst.toNat i (v / 256 ^ (s.len.toNat - 1 - i) % 256)) ∧
      KeptOutside s.dst.toNat s.len.toNat s.buf m

/-- Where NUMB and BSTR do not convert, in the order of their checks (R144, R146, R271). -/
def Obligations.ByteConversionErrors : Prop :=
  ∀ (r : Reg) (s : State),
    (s.len.toNat = 0 ∨ s.cfg.maxLen < s.len.toNat ∨ s.cfg.bufBytes < s.src.toNat + s.len.toNat →
      exec (.numb r) s = .next (s.failed 2#3)) ∧
    (1 ≤ s.len.toNat → s.len.toNat ≤ s.cfg.maxLen → s.src.toNat + s.len.toNat ≤ s.cfg.bufBytes →
      Unwritten s.buf s.src.toNat s.len.toNat →
      exec (.numb r) s = .fault (.uninitRead s.src.toNat s.len.toNat)) ∧
    (∀ bs : List Byte, s.len.toNat = bs.length → 1 ≤ bs.length → bs.length ≤ s.cfg.maxLen →
      s.src.toNat + bs.length ≤ s.cfg.bufBytes → BytesAt s.buf s.src.toNat bs →
      ¬Fits s.cfg (∑ i : Fin bs.length, bs[i].toNat * 256 ^ (bs.length - 1 - i.val) : Nat) →
      exec (.numb r) s = .next (s.failed 4#3)) ∧
    (s.regs[r] = none → exec (.bstr r) s = .next (s.failed 1#3)) ∧
    (∀ v : Int, s.regs[r] = some v →
      (s.cfg.maxLen < s.len.toNat ∨ s.cfg.bufBytes < s.dst.toNat + s.len.toNat ∨ v < 0 ∨
        (256 ^ s.len.toNat : Nat) ≤ v) → exec (.bstr r) s = .next (s.failed 2#3))

/-- Round trips of NUM and STR (R148): STR of the value NUM read, with the same RADIX, LEN and element size, writes the
bytes NUM read; NUM of the array STR wrote gives the value back. -/
def Obligations.NumStrRoundTrips : Prop :=
  (∀ (r q : Reg) (esz : ElemSize) (s t u : State), exec (.num r esz) s = .next t → t.err = false →
    u.cfg = s.cfg → u.radix = s.radix → u.len = s.len → u.regs[q] = t.regs[r] →
    u.dst.toNat + elemWidth esz * u.len.toNat ≤ u.cfg.bufBytes →
    ∃ w : State, exec (.str q esz) u = .next w ∧ w.err = false ∧
      ∀ j, j < elemWidth esz * s.len.toNat →
        w.buf.read (u.dst.toNat + j) = s.buf.read (s.src.toNat + j)) ∧
  (∀ (r q : Reg) (esz : ElemSize) (s t : State), RegsInRange s →
    exec (.str r esz) s = .next t → t.err = false →
    ∃ w : State, exec (.num q esz) { t with src := t.dst } = .next w ∧ w.err = false ∧
      w.regs[q] = s.regs[r])

/-- Round trips of NUMB and BSTR, with LEN at least 1 (R148). -/
def Obligations.NumbBstrRoundTrips : Prop :=
  (∀ (r q : Reg) (s t u : State), exec (.numb r) s = .next t → t.err = false →
    u.cfg = s.cfg → u.len = s.len → u.regs[q] = t.regs[r] →
    u.dst.toNat + u.len.toNat ≤ u.cfg.bufBytes →
    ∃ w : State, exec (.bstr q) u = .next w ∧ w.err = false ∧
      ∀ j, j < s.len.toNat → w.buf.read (u.dst.toNat + j) = s.buf.read (s.src.toNat + j)) ∧
  (∀ (r q : Reg) (s t : State), RegsInRange s → 1 ≤ s.len.toNat →
    exec (.bstr r) s = .next t → t.err = false →
    ∃ w : State, exec (.numb q) { t with src := t.dst } = .next w ∧ w.err = false ∧
      w.regs[q] = s.regs[r])

/-! ## Cipher commands -/

/-- CIPH completes with every 16-byte block of the source, as it was before the command, enciphered on its own at DST,
whatever the overlap, and stores nowhere else (R210, R89). -/
def Obligations.CiphEnciphersEachBlock : Prop :=
  ∀ (s : State) (x : List Byte), s.keyLen ≠ .empty → CipherOk s.len.toNat s →
    x.length = s.len.toNat → BytesAt s.buf s.src.toNat x →
    ∃ m : Memory, exec .ciph s = .next { s.done with buf := m } ∧
      (∀ j, j < s.len.toNat / 16 →
        BytesAt m (s.dst.toNat + 16 * j) (encryptBlock s.aesKey (blockAt x j)).bytes) ∧
      KeptOutside s.dst.toNat s.len.toNat s.buf m

/-- PRF completes with the last block of `Y := E_K(Y ⊕ X_j)`, from 16 zero bytes, at DST, and stores nowhere else
(R213). -/
def Obligations.PrfIsTheCbcMac : Prop :=
  ∀ (s : State) (x : List Byte) (y : Nat → Block), s.keyLen ≠ .empty → CipherOk 16 s →
    x.length = s.len.toNat → BytesAt s.buf s.src.toNat x →
    y 0 = Block.zero →
    (∀ j, j < s.len.toNat / 16 → y (j + 1) = encryptBlock s.aesKey ((y j).xor (blockAt x j))) →
    ∃ m : Memory, exec .prf s = .next { s.done with buf := m } ∧
      BytesAt m s.dst.toNat (y (s.len.toNat / 16)).bytes ∧ KeptOutside s.dst.toNat 16 s.buf m

/-- Where CIPH and PRF do not complete, in the order of their checks (R210, R213, R271): with no key, NULL_ARGUMENT (1)
before anything else; then a bad length or bound, INVALID_ARGUMENT (2); then an unwritten byte, UNINIT_READ. -/
def Obligations.CipherErrors : Prop :=
  ∀ s : State,
    (s.keyLen = .empty → exec .ciph s = .next (s.failed 1#3) ∧ exec .prf s = .next (s.failed 1#3)) ∧
    (s.keyLen ≠ .empty → ¬CipherOk s.len.toNat s → exec .ciph s = .next (s.failed 2#3)) ∧
    (s.keyLen ≠ .empty → ¬CipherOk 16 s → exec .prf s = .next (s.failed 2#3)) ∧
    (s.keyLen ≠ .empty → CipherOk s.len.toNat s → Unwritten s.buf s.src.toNat s.len.toNat →
      exec .ciph s = .fault (.uninitRead s.src.toNat s.len.toNat)) ∧
    (s.keyLen ≠ .empty → CipherOk 16 s → Unwritten s.buf s.src.toNat s.len.toNat →
      exec .prf s = .fault (.uninitRead s.src.toNat s.len.toNat))

/-- R202: the S-box table is the affine map of the inverse in GF(2^8), with `inv(0) = 0`. -/
def Obligations.SboxIsTheAffineInverse : Prop :=
  sbox 0x00#8 = sboxAffine 0x00#8 ∧
  (∀ b : Byte, b ≠ 0x00#8 → ∃ c : Byte, gfMul b c = 0x01#8 ∧ sbox b = sboxAffine c) ∧
  (∀ (c : Byte) (i : Fin 8), (sboxAffine c).getLsbD i.val =
    (c.getLsbD i.val ^^ c.getLsbD ((i.val + 4) % 8) ^^ c.getLsbD ((i.val + 5) % 8)
      ^^ c.getLsbD ((i.val + 6) % 8) ^^ c.getLsbD ((i.val + 7) % 8) ^^ (0x63#8).getLsbD i.val))

/-- The block's layout and the round transformations entry by entry (R203 to R207), the products of MixColumns taken in
GF(2^8) (R201). -/
def Obligations.RoundTransformations : Prop :=
  (∀ x : List Byte, x.length = 16 → (Block.ofBytes x).bytes = x ∧
    ∀ r c : Fin 4, cell (Block.ofBytes x) r c = x.getD (r.val + 4 * c.val) 0#8) ∧
  (∀ (s : Block) (r c : Fin 4), cell (subBytes s) r c = sbox (cell s r c)) ∧
  (∀ (s : Block) (r c : Fin 4), cell (shiftRows s) r c = cell s r (c + r)) ∧
  (∀ (s : Block) (c : Fin 4),
    cell (mixColumns s) 0 c = gfMul 2#8 (cell s 0 c) ^^^ gfMul 3#8 (cell s 1 c) ^^^ cell s 2 c ^^^ cell s 3 c ∧
    cell (mixColumns s) 1 c = cell s 0 c ^^^ gfMul 2#8 (cell s 1 c) ^^^ gfMul 3#8 (cell s 2 c) ^^^ cell s 3 c ∧
    cell (mixColumns s) 2 c = cell s 0 c ^^^ cell s 1 c ^^^ gfMul 2#8 (cell s 2 c) ^^^ gfMul 3#8 (cell s 3 c) ∧
    cell (mixColumns s) 3 c = gfMul 3#8 (cell s 0 c) ^^^ cell s 1 c ^^^ cell s 2 c ^^^ gfMul 2#8 (cell s 3 c)) ∧
  (∀ (w : List Column) (rnd : Nat) (s : Block) (r c : Fin 4),
    cell (addRoundKey w rnd s) r c =
      cell s r c ^^^ (w.getD (4 * rnd + c.val) zeroColumn).bytes.getD r.val 0#8)

/-- R208: the key schedule has `4·(Nr+1)` words, begins with the key, and each later word is the recurrence's, with
`rc[j] = x^(j−1)`. -/
def Obligations.KeyExpansionRecurrence : Prop :=
  ∀ key : List Byte, LegalKey key →
    (expandKey key).length = 4 * (key.length / 4 + 7) ∧
    (∀ i, i < key.length / 4 → (expandKey key).getD i zeroColumn = wordAt key i) ∧
    (∀ i, key.length / 4 ≤ i → i < 4 * (key.length / 4 + 7) →
      (expandKey key).getD i zeroColumn =
        ((expandKey key).getD (i - key.length / 4) zeroColumn).xor
          (if i % (key.length / 4) = 0 then
            (subWord (rotWord ((expandKey key).getD (i - 1) zeroColumn))).xor
              ⟨xtime^[i / (key.length / 4) - 1] 0x01#8, 0#8, 0#8, 0#8⟩
          else if key.length / 4 = 8 ∧ i % (key.length / 4) = 4 then
            subWord ((expandKey key).getD (i - 1) zeroColumn)
          else (expandKey key).getD (i - 1) zeroColumn))

/-- R209: the cipher is round key 0, then rounds 1 to `Nr − 1` with MixColumns, then the last round without it, for
`Nr = Nk + 6` (R200). -/
def Obligations.CipherRoundSequence : Prop :=
  ∀ (key : List Byte) (x : Block) (st : Nat → Block), LegalKey key →
    st 0 = addRoundKey (expandKey key) 0 x →
    (∀ rnd, 1 ≤ rnd → rnd < key.length / 4 + 6 →
      st rnd = addRoundKey (expandKey key) rnd (mixColumns (shiftRows (subBytes (st (rnd - 1)))))) →
    encryptBlock key x =
      addRoundKey (expandKey key) (key.length / 4 + 6) (shiftRows (subBytes (st (key.length / 4 + 5))))

/-- `E_K` is a permutation of the 16-byte blocks, for each key (R211). -/
def Obligations.CipherIsAPermutation : Prop :=
  ∀ key : List Byte, LegalKey key → Function.Bijective (encryptBlock key)

/-- One CIPH of `16k` bytes has the effect of `k` CIPH commands of 16 bytes at `SRC + 16j` and `DST + 16j`, when the ranges
do not overlap across blocks (R211): each of the `k` completes without error, and the buffers at the end read alike. -/
def Obligations.CiphBlockByBlock : Prop :=
  ∀ (s u : State) (k : Nat), s.cfg.wf = true → s.len.toNat = 16 * k → exec .ciph s = .next u → u.err = false →
    (∀ j l, j < k → l < k → j ≠ l → s.dst.toNat + 16 * j + 16 ≤ s.src.toNat + 16 * l ∨
      s.src.toNat + 16 * l + 16 ≤ s.dst.toNat + 16 * j) →
    ∃ t : Nat → State, t 0 = s ∧
      (∀ j, j < k →
        exec .ciph { t j with
          src := BitVec.ofNat 32 (s.src.toNat + 16 * j)
          dst := BitVec.ofNat 32 (s.dst.toNat + 16 * j)
          len := 16#32 } = .next (t (j + 1)) ∧ (t (j + 1)).err = false) ∧
      ∀ a, (t k).buf.read a = u.buf.read a

/-- PRF chaining (R214): `PRF(A ∥ B) = PRF((PRF(A) ⊕ B_0) ∥ B')` for A of `16j` bytes, B_0 of 16 and B' of `16k`. -/
def Obligations.PrfChaining : Prop :=
  ∀ (key a b0 b' : List Byte) (j k : Nat), a.length = 16 * j → b0.length = 16 → b'.length = 16 * k →
    cbcMac key (j + (k + 1)) (a ++ (b0 ++ b')) =
      cbcMac key (k + 1) (((cbcMac key j a).xor (Block.ofBytes b0)).bytes ++ b')

/-- CBC with a non-zero IV (R216): the last CBC block under IV `P` over `Q_0 ∥ Q'` is the PRF of `(P ⊕ Q_0) ∥ Q'`. -/
def Obligations.CbcWithIvFromPrf : Prop :=
  ∀ (key q0 q' : List Byte) (p : Block) (k : Nat) (y : Nat → Block), q0.length = 16 → q'.length = 16 * k →
    y 0 = p → (∀ j, j < k + 1 → y (j + 1) = encryptBlock key ((y j).xor (blockAt (q0 ++ q') j))) →
    y (k + 1) = cbcMac key (k + 1) ((p.xor (Block.ofBytes q0)).bytes ++ q')

/-! ## Frames -/

/-- The frame of the commands that write one register: ADD, SUB, MUL, MOD, LDI, NUM and NUMB leave every other register,
the key store, every byte of the buffer, CMD, SRC, DST, LEN, RADIX and FAULTS as they were (R33, R14, R84). -/
def Obligations.RegisterCommandsFrame : Prop :=
  ∀ (i : Instr) (d : Reg) (s t : State),
    ((∃ rs1 rs2, i = .add d rs1 rs2 ∨ i = .sub d rs1 rs2 ∨ i = .mul d rs1 rs2 ∨ i = .mod d rs1 rs2) ∨
      (∃ imm, i = .ldi d imm) ∨ (∃ esz, i = .num d esz) ∨ i = .numb d) →
    exec i s = .next t →
    HostStateKept s t ∧ KeyKept s t ∧ (∀ q : Reg, q ≠ d → t.regs[q] = s.regs[q]) ∧
      (∀ a, t.buf.read a = s.buf.read a) ∧ t.pending = none

/-- The frame of the commands that write the buffer: STR, BSTR, CIPH and PRF leave every register, the key store, every
byte outside the bytes stored at DST, CMD, SRC, DST, LEN, RADIX and FAULTS as they were (R33, R84). The bytes stored are
`es·LEN`, LEN, LEN and 16. -/
def Obligations.BufferCommandsFrame : Prop :=
  ∀ (i : Instr) (n : Nat) (s t : State),
    ((∃ r esz, i = .str r esz ∧ n = elemWidth esz * s.len.toNat) ∨
      (∃ r, i = .bstr r ∧ n = s.len.toNat) ∨ (i = .ciph ∧ n = s.len.toNat) ∨ (i = .prf ∧ n = 16)) →
    exec i s = .next t →
    HostStateKept s t ∧ KeyKept s t ∧ t.regs = s.regs ∧ KeptOutside s.dst.toNat n s.buf t.buf ∧
      t.pending = none

/-- The frame of NOP, KEYLD and KEYCLR: no register, no byte of the buffer, and nothing of the host's side changes; NOP
keeps the key store too (R33, R250, R252, R254). -/
def Obligations.KeyAndControlFrame : Prop :=
  ∀ (i : Instr) (s t : State), (i = .nop ∨ i = .keyld ∨ i = .keyclr) → exec i s = .next t →
    HostStateKept s t ∧ t.regs = s.regs ∧ (∀ a, t.buf.read a = s.buf.read a) ∧ t.pending = none ∧
      (i = .nop → KeyKept s t)

/-- R272: errors are precise. A core step that ends with ERR set writes nothing else than STATUS and ERRCODE, and the code
is one of those that are raised, never 5 or 7 (R270, R274). While a command is pending ERR is 0, which the invariant
says. -/
def Obligations.ErrorsArePrecise : Prop :=
  ∀ (s t : State), CoreToMove s → s.pending ≠ none → s.err = false → step s = .next t → t.err = true →
    ∃ code ∈ [1#3, 2#3, 3#3, 4#3, 6#3], t = s.afterTurn.failed code

/-- Every core step on a pending command that answers a next state either completes it, with ERR and ERRCODE telling of one
another, or records a model fault and leaves the command pending (R110, R55). -/
def Obligations.EveryCommandCompletesOrFaults : Prop :=
  ∀ (s : State) (w : Word), CoreToMove s → s.pending = some w →
    ∃ t, step s = .next t ∧
      ((t.pending = none ∧ (t.err = true ↔ t.errcode ≠ 0#3)) ∨
        ∃ a n, t = s.afterTurn.faulted (.uninitRead a n))

/-! ## Invariants and whole-machine rules -/

/-- The invariant holds at power-on reset of every instance with legal parameters (R300, R7), and of the instance
`State.reset` is. -/
def Obligations.InvariantAtReset : Prop :=
  (∀ c : Config, c.wf = true → (State.resetWith c).Inv) ∧ State.reset.Inv

/-- Every step keeps the invariant: the registers stay in range (R32), the buffer in canonical form and in bounds (R80),
ERR and ERRCODE tell one thing, are 0 while busy and never a reserved code (R46, R47, R270), CMD reads the pending command
(R48), FAULTS stays a set (R38), the parameters stay legal (R7). -/
def Obligations.EveryStepKeepsTheInvariant : Prop :=
  ∀ s t : State, s.Inv → step s = .next t → t.Inv

/-- R38: FAULTS starts empty at power-on and is never cleared, not by reset and not by any step. -/
def Obligations.FaultsAreNeverCleared : Prop :=
  (∀ c : Config, (State.resetWith c).faults = []) ∧
  ∀ (s t : State) (f : Fault), step s = .next t → f ∈ s.faults → f ∈ t.faults

/-- What survives every step: the instance's constants, which no step changes (R41 to R44), and, at every step but a reset, a
register's being valid and a byte's being written (R31, R80). -/
def Obligations.OnlyResetForgets : Prop :=
  ∀ s t : State, step s = .next t →
    t.cfg = s.cfg ∧
      ((∃ v ts, s.turns = .hostWrite 0x010#17 v :: ts ∧ v.getLsbD 0 = true) ∨
        ((∀ r : Reg, s.regs[r] ≠ none → t.regs[r] ≠ none) ∧
          ∀ a, s.buf.read a ≠ none → t.buf.read a ≠ none))

/-- KEYLEN, and so STATUS.KEYV, changes only through KEYLD, KEYCLR and reset (R55, R35). -/
def Obligations.KeyChangesOnlyThroughKeyCommands : Prop :=
  ∀ s t : State, step s = .next t → (t.keyLen ≠ s.keyLen ∨ t.key ≠ s.key) →
    (∃ v ts, s.turns = .hostWrite 0x010#17 v :: ts ∧ v.getLsbD 0 = true) ∨
      (CoreToMove s ∧ ∃ w, s.pending = some w ∧ (decode w = some .keyld ∨ decode w = some .keyclr))

/-- The key bytes at and beyond KEYLEN can never be observed (R35, R250, item 6): two states that differ in those alone
step to states that differ in those alone. -/
def Obligations.HiddenKeyBytesAreUnobservable : Prop :=
  ∀ s t : State, SameButHiddenKey s t → SameOutcome SameButHiddenKey (step s) (step t)

/-- No command reads a flag (R55): what BUSY (a view of `pending`, R37), ERR and ERRCODE read before a command changes nothing
about its outcome. KEYV has no state of its own: it is a view of KEYLEN (R46), which CIPH and PRF read. -/
def Obligations.NoCommandReadsAFlag : Prop :=
  (∀ (i : Instr) (s : State) (p : Option Word) (e : Bool) (c : BitVec 3),
    exec i { s with pending := p, err := e, errcode := c } = exec i s) ∧
  (∀ s : State, s.busy = true ↔ s.pending ≠ none) ∧
  (∀ s : State, s.keyv = true ↔ s.keyLen ≠ .empty)

/-! ## Reset and the host interface -/

/-- R300: every piece of state after power-on reset, as the host and the commands see it. KEY is unspecified there and not
stated. -/
def Obligations.ResetValues : Prop :=
  ∀ c : Config,
    (∀ r : Reg, (State.resetWith c).regs[r] = none) ∧ (State.resetWith c).keyLen.bytes = 0 ∧
    (∀ a, (State.resetWith c).buf.read a = none) ∧ (State.resetWith c).pending = none ∧
    (State.resetWith c).statusWord = 0#32 ∧ (State.resetWith c).errcodeWord = 0#32 ∧
    (State.resetWith c).cmd = 0#32 ∧ (State.resetWith c).src = 0#32 ∧ (State.resetWith c).dst = 0#32 ∧
    (State.resetWith c).len = 0#32 ∧ (State.resetWith c).radix = 0#32 ∧ (State.resetWith c).cfg = c ∧
    csrRead .ctrl (State.resetWith c) = 0#32 ∧ (State.resetWith c).faults = []

/-- R301: a write to CTRL with bit 0 = 1 is always accepted, busy or stopped, and puts every state back to its reset value,
except FAULTS; the pending command is discarded. KEY is unspecified there and not stated. The host's own turns and replies
are not the block's. -/
def Obligations.SoftResetRestoresResetState : Prop :=
  ∀ (s : State) (v : Word) (ts : List Turn), s.turns = .hostWrite 0x010#17 v :: ts → v.getLsbD 0 = true →
    ∃ (k : Vector Byte 32) (d : Nat), step s = .next { State.resetWith s.cfg with
      key := k, faults := s.faults, turns := ts, replies := s.replies, draws := d }

/-- Host reads of the registers, busy or not (R40 to R53, R311): the word at each offset, and no side effect (R88). STATUS
is BUSY + 2·ERR + 4·KEYV (R46). -/
def Obligations.RegisterReads : Prop :=
  ∀ (s : State) (ts : List Turn) (o : BitVec 17) (v : Word), s.stopped = none →
    s.turns = .hostRead o :: ts →
    (o, v) ∈ [(0x000#17, s.cfg.idValue), (0x004#17, BitVec.ofNat 32 s.cfg.intBits),
      (0x008#17, BitVec.ofNat 32 s.cfg.maxLen), (0x00C#17, BitVec.ofNat 32 s.cfg.bufBytes),
      (0x010#17, 0#32),
      (0x014#17, BitVec.ofNat 32 ((if s.pending = none then 0 else 1) + (if s.err then 2 else 0)
        + (if s.keyLen = .empty then 0 else 4))),
      (0x018#17, BitVec.ofNat 32 s.errcode.toNat), (0x01C#17, s.cmd), (0x020#17, s.src),
      (0x024#17, s.dst), (0x028#17, s.len), (0x02C#17, s.radix),
      (0x030#17, BitVec.ofNat 32 s.keyLen.bytes)] →
    step s = .next { s with turns := ts, replies := s.replies ++ [v] }

/-- Host writes while idle (R48 to R52): a CMD write is taken, becoming PENDING and clearing ERR and ERRCODE; a write of
SRC, DST, LEN or RADIX stores the value as written. Nothing else changes. -/
def Obligations.RegisterWritesWhileIdle : Prop :=
  ∀ (s : State) (ts : List Turn) (v : Word), s.stopped = none → s.pending = none →
    (s.turns = .hostWrite 0x01C#17 v :: ts →
      step s = .next { s with
        turns := ts, cmd := v, pending := some v, err := false, errcode := 0#3 }) ∧
    (s.turns = .hostWrite 0x020#17 v :: ts → step s = .next { s with turns := ts, src := v }) ∧
    (s.turns = .hostWrite 0x024#17 v :: ts → step s = .next { s with turns := ts, dst := v }) ∧
    (s.turns = .hostWrite 0x028#17 v :: ts → step s = .next { s with turns := ts, len := v }) ∧
    (s.turns = .hostWrite 0x02C#17 v :: ts → step s = .next { s with turns := ts, radix := v })

/-- Writes that are ignored, busy or not: to the read-only registers, and to CTRL with bit 0 = 0 (R40, R45, R311). -/
def Obligations.IgnoredWrites : Prop :=
  ∀ (s : State) (ts : List Turn) (o : BitVec 17) (v : Word), s.stopped = none →
    s.turns = .hostWrite o v :: ts →
    (o ∈ [0x000#17, 0x004#17, 0x008#17, 0x00C#17, 0x014#17, 0x018#17, 0x030#17] ∨
      (o = 0x010#17 ∧ v.getLsbD 0 = false)) →
    step s = .next { s with turns := ts }

/-- R54: a read of an offset from 0x034 to 0xFFFC returns 0 and a write there is ignored, busy or not. -/
def Obligations.ReservedOffsets : Prop :=
  ∀ (s : State) (ts : List Turn) (o : BitVec 17), s.stopped = none → o.toNat % 4 = 0 →
    0x034 ≤ o.toNat → o.toNat ≤ 0xFFFC →
    (s.turns = .hostRead o :: ts → step s = .next { s with turns := ts, replies := s.replies ++ [0#32] }) ∧
    (∀ v, s.turns = .hostWrite o v :: ts → step s = .next { s with turns := ts })

/-- R91: the buffer window while the block is idle. A read inside the buffer returns the four bytes big-endian, or is
UNINIT_READ(a, 4); a write inside stores the four bytes, most significant first, and no other; beyond BUF_BYTES a read
returns 0 and a write is ignored. No word straddles the end, since BUF_BYTES is a multiple of 16 (R7). -/
def Obligations.BufferWindowWhileIdle : Prop :=
  ∀ (s : State) (ts : List Turn) (o : BitVec 17) (a : Nat), s.cfg.wf = true → s.stopped = none →
    s.pending = none → o.toNat % 4 = 0 → o.toNat = 0x10000 + a →
    (∀ b0 b1 b2 b3 : Byte, s.turns = .hostRead o :: ts → a + 4 ≤ s.cfg.bufBytes →
      BytesAt s.buf a [b0, b1, b2, b3] →
      step s = .next { s with turns := ts, replies := s.replies ++ [BitVec.ofNat 32
        (b0.toNat * 2 ^ 24 + b1.toNat * 2 ^ 16 + b2.toNat * 2 ^ 8 + b3.toNat)] }) ∧
    (s.turns = .hostRead o :: ts → a + 4 ≤ s.cfg.bufBytes → Unwritten s.buf a 4 →
      ∃ x, step s = .next { State.faulted { s with turns := ts } (.uninitRead a 4) with stopped := x }) ∧
    (s.turns = .hostRead o :: ts → s.cfg.bufBytes ≤ a →
      step s = .next { s with turns := ts, replies := s.replies ++ [0#32] }) ∧
    (∀ v, s.turns = .hostWrite o v :: ts → a + 4 ≤ s.cfg.bufBytes →
      ∃ m : Memory, step s = .next { s with turns := ts, buf := m } ∧
        BytesAt m a [v.extractLsb' 24 8, v.extractLsb' 16 8, v.extractLsb' 8 8, v.extractLsb' 0 8] ∧
        KeptOutside a 4 s.buf m) ∧
    (∀ v, s.turns = .hostWrite o v :: ts → s.cfg.bufBytes ≤ a → step s = .next { s with turns := ts }) ∧
    (a + 4 ≤ s.cfg.bufBytes ∨ s.cfg.bufBytes ≤ a)

/-- R310: while a command is pending, a host write to CMD, SRC, DST, LEN, RADIX or the window is the model fault
HOST_PROTOCOL(o); nothing of it is stored. -/
def Obligations.BusyWritesAreProtocolFaults : Prop :=
  ∀ (s : State) (ts : List Turn) (o : BitVec 17) (v : Word), s.stopped = none → s.pending ≠ none →
    s.turns = .hostWrite o v :: ts → o.toNat % 4 = 0 →
    (o ∈ [0x01C#17, 0x020#17, 0x024#17, 0x028#17, 0x02C#17] ∨ 0x10000 ≤ o.toNat) →
    ∃ x, step s = .next { State.faulted { s with turns := ts } (.hostProtocol o.toNat) with stopped := x }

/-- R312: a host read of the window while a command is pending returns some word, whatever the buffer holds, and records
no fault. Nothing is said of which word it is. -/
def Obligations.BusyWindowReadsReturnSomeWord : Prop :=
  ∀ (s : State) (ts : List Turn) (o : BitVec 17), s.stopped = none → s.pending ≠ none →
    s.turns = .hostRead o :: ts → o.toNat % 4 = 0 → 0x10000 ≤ o.toNat →
    ∃ (v : Word) (d : Nat), step s = .next { s with turns := ts, replies := s.replies ++ [v], draws := d }

/-- R281: a host access that is not a 4-byte-aligned 32-bit access has no meaning and is refused by name. -/
def Obligations.OtherHostAccessesAreRefused : Prop :=
  ∀ (s : State) (ts : List Turn) (o : BitVec 17),
    (∀ bits, s.turns = .hostOther bits o :: ts → step s = .refused (.hostAccessForm bits o.toNat)) ∧
    (o.toNat % 4 ≠ 0 → s.turns = .hostRead o :: ts → step s = .refused (.hostAccessForm 32 o.toNat)) ∧
    (∀ v, o.toNat % 4 ≠ 0 → s.turns = .hostWrite o v :: ts →
      step s = .refused (.hostAccessForm 32 o.toNat))
end

