-- ==== Sys2Proof/Laws/Operands.lean ====
section
/-!
SUPPORT. The laws of the operand forms: lengths, digits and numerals are inverse (spec/40_radix.md R148), and the layout
of symbols (spec/20_memory.md R86).
-/

namespace Sys2Proof.Machine

@[simp] theorem digits_length (r m v : Nat) : (digits r m v).length = m := by simp [digits]

/-- Every digit is below the radix. -/
theorem digits_lt {r m v x : Nat} (hr : 0 < r) (h : x ∈ digits r m v) : x < r := by
  obtain ⟨i, -, rfl⟩ := List.mem_map.mp h
  exact Nat.mod_lt _ hr

/-- The first of `m + 1` digits stands before the `m` digits of the rest. -/
theorem digits_succ (r m v : Nat) : digits r (m + 1) v = v / r ^ m % r :: digits r m v := by
  simp only [digits, List.range_succ_eq_map, List.map_cons, List.map_map]
  congr 1
  apply List.map_congr_left
  intro i hi
  have : m - (i + 1) = m - 1 - i := by omega
  simp [this]

/-- The `m` digits of `v` depend on `v` modulo `r^m` only. -/
theorem digits_mod (r m v : Nat) : digits r m (v % r ^ m) = digits r m v := by
  apply List.map_congr_left
  intro i hi
  have hi' : i < m := by simpa using hi
  have hm : r ^ m = r ^ (m - 1 - i) * r ^ (i + 1) := by rw [← pow_add]; congr 1; omega
  rw [hm, Nat.mod_mul_right_div_self, pow_succ, Nat.mod_mul_left_mod]

/-- The value of an array of symbols below the radix is below `r^n`. -/
theorem numr_lt {r : Nat} {xs : List Nat} (h : ∀ x ∈ xs, x < r) : numr r xs < r ^ xs.length := by
  induction xs with
  | nil => simp [numr]
  | cons x xs ih =>
    have hx := h x (by simp)
    have hxs := ih fun y hy => h y (by simp [hy])
    calc x * r ^ xs.length + numr r xs < x * r ^ xs.length + r ^ xs.length := by omega
      _ = (x + 1) * r ^ xs.length := by ring
      _ ≤ r * r ^ xs.length := Nat.mul_le_mul_right _ hx
      _ = r ^ (x :: xs).length := by simp [pow_succ, Nat.mul_comm]

/-- The value of the digits is the number, below `r^m` (R148). -/
theorem numr_digits {r m v : Nat} (h : v < r ^ m) : numr r (digits r m v) = v := by
  induction m generalizing v with
  | zero => simp_all [digits, numr]
  | succ m ih =>
    rcases Nat.eq_zero_or_pos r with rfl | hr
    · simp at h
    · have hlt : v / r ^ m < r := Nat.div_lt_of_lt_mul (by rwa [pow_succ] at h)
      rw [digits_succ, numr, digits_length, Nat.mod_eq_of_lt hlt, ← digits_mod,
        ih (Nat.mod_lt _ (Nat.pow_pos hr)), Nat.mul_comm]
      exact Nat.div_add_mod v (r ^ m)

/-- The digits of the value of an array of symbols below the radix are the array (R148). -/
theorem digits_numr {r : Nat} {xs : List Nat} (h : ∀ x ∈ xs, x < r) : digits r xs.length (numr r xs) = xs := by
  induction xs with
  | nil => simp [digits]
  | cons x xs ih =>
    have hx := h x (by simp)
    have hxs : ∀ y ∈ xs, y < r := fun y hy => h y (by simp [hy])
    have hlt := numr_lt hxs
    have hpos : 0 < r ^ xs.length := by omega
    have hdiv : (x * r ^ xs.length + numr r xs) / r ^ xs.length = x := by
      rw [Nat.add_comm, Nat.add_mul_div_right _ _ hpos, Nat.div_eq_of_lt hlt, Nat.zero_add]
    have hmod : (x * r ^ xs.length + numr r xs) % r ^ xs.length = numr r xs := by
      rw [Nat.add_comm, Nat.add_mul_mod_self_right, Nat.mod_eq_of_lt hlt]
    rw [List.length_cons, digits_succ, numr, hdiv, Nat.mod_eq_of_lt hx, ← digits_mod, hmod, ih hxs]

/-- The value of an array of symbols as the sum of R12 and R140. -/
theorem numr_eq_sum (r : Nat) (xs : List Nat) :
    numr r xs = ∑ i ∈ Finset.range xs.length, xs.getD i 0 * r ^ (xs.length - 1 - i) := by
  induction xs with
  | nil => simp [numr]
  | cons x xs ih =>
    rw [List.length_cons, Finset.sum_range_succ', numr, ih, add_comm]
    refine congrArg₂ _ (Finset.sum_congr rfl fun i _ => ?_) (by simp)
    rw [List.getD_cons_succ]
    congr 2
    omega

/-- NUMB's value is below `256^n` (R144). -/
theorem be_lt (bs : List Byte) : be bs < 256 ^ bs.length := by
  have := numr_lt (r := 256) (xs := bs.map BitVec.toNat)
    (fun x hx => by obtain ⟨b, -, rfl⟩ := List.mem_map.mp hx; exact b.isLt)
  simpa [be] using this

theorem symbolArrayBytes_length (esz : ElemSize) (xs : List Nat) :
    (symbolArrayBytes esz xs).length = elemWidth esz * xs.length := by
  unfold symbolArrayBytes
  induction xs with
  | nil => simp
  | cons x xs ih =>
    rw [List.flatMap_cons, List.length_append, ih]
    cases esz <;> simp [symbolBytes, elemWidth] <;> omega

/-- The symbols of a byte string of `n` elements are `n` (R86). -/
theorem symbolsOf_length {esz : ElemSize} {bs : List Byte} {n : Nat} (h : bs.length = elemWidth esz * n) :
    (symbolsOf esz bs).length = n := by
  induction n generalizing bs with
  | zero =>
    have : bs = [] := List.length_eq_zero_iff.mp (by simpa using h)
    subst this; cases esz <;> simp [symbolsOf]
  | succ n ih =>
    cases esz with
    | byte => simpa [symbolsOf, elemWidth] using h
    | half =>
      match bs, h with
      | [], h => simp [elemWidth] at h
      | [b], h => simp [elemWidth] at h; omega
      | b :: c :: bs, h =>
        simp only [symbolsOf, List.length_cons]
        rw [ih (by simp only [List.length_cons, elemWidth] at h ⊢; omega)]

/-- Laying out symbols and reading them back (R86). -/
theorem symbolsOf_symbolArrayBytes {esz : ElemSize} {xs : List Nat} (h : ∀ x ∈ xs, x < 256 ^ elemWidth esz) :
    symbolsOf esz (symbolArrayBytes esz xs) = xs := by
  induction xs with
  | nil => cases esz <;> simp [symbolArrayBytes, symbolsOf]
  | cons x xs ih =>
    have hx := h x (by simp)
    have ih' := ih fun y hy => h y (by simp [hy])
    cases esz with
    | byte =>
      simp only [symbolArrayBytes, symbolBytes, symbolsOf, elemWidth, List.flatMap_cons, List.map_append,
        List.map_cons, List.map_nil, BitVec.toNat_ofNat] at ih' hx ⊢
      rw [ih']; simp; omega
    | half =>
      simp only [symbolArrayBytes, symbolBytes, elemWidth, List.flatMap_cons, List.cons_append,
        List.nil_append, symbolsOf, BitVec.toNat_ofNat] at ih' hx ⊢
      rw [ih']; simp; omega

/-- Reading symbols and laying them out again (R86, R148). -/
theorem symbolArrayBytes_symbolsOf {esz : ElemSize} {bs : List Byte} {n : Nat}
    (h : bs.length = elemWidth esz * n) : symbolArrayBytes esz (symbolsOf esz bs) = bs := by
  induction n generalizing bs with
  | zero =>
    have : bs = [] := List.length_eq_zero_iff.mp (by simpa using h)
    subst this; cases esz <;> simp [symbolsOf, symbolArrayBytes]
  | succ n ih =>
    cases esz with
    | byte =>
      clear ih h
      induction bs with
      | nil => simp [symbolsOf, symbolArrayBytes]
      | cons b bs ih =>
        simp only [symbolsOf, symbolArrayBytes, List.map_cons, List.flatMap_cons] at ih ⊢
        rw [ih]; simp [symbolBytes]
    | half =>
      match bs, h with
      | [], h => simp [elemWidth] at h
      | [b], h => simp [elemWidth] at h; omega
      | b :: c :: bs, h =>
        have := ih (bs := bs) (by simp only [List.length_cons, elemWidth] at h ⊢; omega)
        simp only [symbolsOf, symbolArrayBytes, List.flatMap_cons] at this ⊢
        rw [this]
        have hb := b.isLt
        have hc := c.isLt
        have h1 : (b.toNat * 256 + c.toNat) / 256 = b.toNat := by omega
        have h2 : (b.toNat * 256 + c.toNat) % 256 = c.toNat := by omega
        simp [symbolBytes, h1, h2]

end Sys2Proof.Machine
end

