-- ==== Sys2Proof/Laws/Memory.lean ====
section
/-!
SUPPORT. The laws of the data buffer (spec/20_memory.md R80, R83, R84): read after write, what a write leaves alone, and
that every memory operation keeps the canonical form and the bound.
-/

namespace Sys2Proof.Machine

@[simp] theorem Memory.read_nil (a : Nat) : Memory.read [] a = none := rfl

theorem Memory.read_write_same (m : Memory) (a : Nat) (b : Byte) : (m.write a b).read a = some b := by
  induction m with
  | nil => simp [Memory.write, Memory.read]
  | cons c m ih =>
    obtain ⟨k, v⟩ := c
    unfold Memory.write
    split_ifs with h1 h2
    · simp [Memory.read]
    · simp [Memory.read]
    · simp [Memory.read, Ne.symm h2, ih]

theorem Memory.read_write_other (m : Memory) {a c : Nat} (b : Byte) (h : c ≠ a) :
    (m.write a b).read c = m.read c := by
  induction m with
  | nil => simp [Memory.write, Memory.read, Ne.symm h]
  | cons e m ih =>
    obtain ⟨k, v⟩ := e
    unfold Memory.write
    split_ifs with h1 h2
    · simp [Memory.read, Ne.symm h]
    · subst h2; simp [Memory.read, Ne.symm h]
    · simp [Memory.read, ih]

theorem Memory.mem_write {m : Memory} {a : Nat} {b : Byte} {c : Host.Cell} (h : c ∈ m.write a b) :
    c = (a, b) ∨ c ∈ m := by
  induction m with
  | nil => simpa [Memory.write] using h
  | cons e m ih =>
    obtain ⟨k, v⟩ := e
    unfold Memory.write at h
    split_ifs at h with h1 h2
    · simpa using h
    · simp only [List.mem_cons] at h ⊢; tauto
    · simp only [List.mem_cons] at h ⊢
      rcases h with h | h
      · tauto
      · rcases ih h with h | h <;> tauto

/-- A byte write keeps the canonical form. -/
theorem Memory.wf_write {m : Memory} (a : Nat) (b : Byte) (h : m.wf) : (m.write a b).wf := by
  induction m with
  | nil => simp [Memory.write, Memory.wf]
  | cons e m ih =>
    obtain ⟨k, v⟩ := e
    obtain ⟨hk, hm⟩ := List.pairwise_cons.mp h
    unfold Memory.write
    split_ifs with h1 h2
    · refine List.pairwise_cons.mpr ⟨fun c hc => ?_, h⟩
      rcases List.mem_cons.mp hc with rfl | hc
      · exact h1
      · exact h1.trans (hk c hc)
    · subst h2; exact List.pairwise_cons.mpr ⟨hk, hm⟩
    · refine List.pairwise_cons.mpr ⟨fun c hc => ?_, ih hm⟩
      rcases Memory.mem_write hc with rfl | hc
      · show k < a; omega
      · exact hk c hc

/-- A byte write below the bound keeps the bound. -/
theorem Memory.below_write {m : Memory} {a n : Nat} (b : Byte) (h : m.below n) (ha : a < n) :
    (m.write a b).below n := by
  intro c hc
  rcases Memory.mem_write hc with rfl | hc
  · exact ha
  · exact h c hc

/-- A range write keeps the canonical form. -/
theorem Memory.wf_writeRange {m : Memory} (a : Nat) (bs : List Byte) (h : m.wf) : (m.writeRange a bs).wf := by
  induction bs generalizing m a with
  | nil => exact h
  | cons b bs ih => exact ih (a + 1) (Memory.wf_write a b h)

/-- A range write inside the bound keeps the bound. -/
theorem Memory.below_writeRange {m : Memory} {a n : Nat} {bs : List Byte} (h : m.below n)
    (ha : a + bs.length ≤ n) : (m.writeRange a bs).below n := by
  induction bs generalizing m a with
  | nil => exact h
  | cons b bs ih =>
    simp only [List.length_cons] at ha
    exact ih (Memory.below_write b h (by omega)) (by omega)

/-- A range write changes no byte outside its range (R84). -/
theorem Memory.read_writeRange_outside (m : Memory) {a c : Nat} {bs : List Byte}
    (h : c < a ∨ a + bs.length ≤ c) : (m.writeRange a bs).read c = m.read c := by
  induction bs generalizing m a with
  | nil => rfl
  | cons b bs ih =>
    simp only [List.length_cons] at h
    rw [Memory.writeRange, ih _ (by omega), Memory.read_write_other _ _ (by omega)]

/-- After a range write byte `i` of the string is at `a + i` (R84). -/
theorem Memory.read_writeRange_inside (m : Memory) (a : Nat) {bs : List Byte} {i : Nat} (h : i < bs.length) :
    (m.writeRange a bs).read (a + i) = some bs[i] := by
  induction bs generalizing m a i with
  | nil => simp at h
  | cons b bs ih =>
    cases i with
    | zero =>
      rw [Memory.writeRange, Memory.read_writeRange_outside _ (by omega)]
      simp [Memory.read_write_same]
    | succ i =>
      have := ih (m.write a b) (a + 1) (i := i) (by simpa using h)
      rw [Memory.writeRange, show a + (i + 1) = a + 1 + i by omega, this]
      simp

/-- What a range read answers: the bytes at each address of the range, all of them written (R83). -/
theorem Memory.readRange_eq_some {m : Memory} {a n : Nat} {bs : List Byte} :
    m.readRange a n = some bs ↔
      bs.length = n ∧ ∀ (i : Nat) (h : i < bs.length), m.read (a + i) = some bs[i] := by
  induction n generalizing a bs with
  | zero =>
    constructor
    · intro h
      obtain rfl : [] = bs := by simpa [Memory.readRange] using h
      simp
    · rintro ⟨h, -⟩
      simp [Memory.readRange, List.length_eq_zero_iff.mp h]
  | succ n ih =>
    constructor
    · intro h
      unfold Memory.readRange at h
      split at h
      · next b bs' hb hbs =>
        obtain rfl : b :: bs' = bs := by simpa using h
        obtain ⟨hl, hi⟩ := ih.mp hbs
        refine ⟨by simp [hl], fun i hi' => ?_⟩
        cases i with
        | zero => simpa using hb
        | succ i =>
          have := hi i (by simpa using hi')
          rw [show a + (i + 1) = a + 1 + i by omega, this]
          simp
      · simp at h
    · rintro ⟨hl, hi⟩
      match bs, hl with
      | b :: bs, hl =>
        have h0 : m.read a = some b := hi 0 (by simp)
        have h1 : m.readRange (a + 1) n = some bs := by
          refine ih.mpr ⟨by simpa using hl, fun i hi' => ?_⟩
          have := hi (i + 1) (by simpa using hi')
          rw [show a + 1 + i = a + (i + 1) by omega, this]
          simp
        simp [Memory.readRange, h0, h1]

/-- A range read has no answer exactly when a byte of the range is unwritten (R83). -/
theorem Memory.readRange_eq_none {m : Memory} {a n : Nat} :
    m.readRange a n = none ↔ ∃ i, i < n ∧ m.read (a + i) = none := by
  induction n generalizing a with
  | zero => simp [Memory.readRange]
  | succ n ih =>
    unfold Memory.readRange
    cases hb : m.read a with
    | none => simp only [true_iff]; exact ⟨0, by omega, hb⟩
    | some b =>
      cases hr : m.readRange (a + 1) n with
      | none =>
        obtain ⟨i, hi, hn⟩ := ih.mp hr
        simp only [true_iff]
        exact ⟨i + 1, by omega, by rw [show a + (i + 1) = a + 1 + i by omega]; exact hn⟩
      | some bs =>
        simp only [reduceCtorEq, false_iff]
        rintro ⟨i, hi, hn⟩
        cases i with
        | zero => simp [hb] at hn
        | succ i =>
          have hnone := ih.mpr ⟨i, by omega, by rw [show a + 1 + i = a + (i + 1) by omega]; exact hn⟩
          simp [hr] at hnone

/-- Buffers in canonical form that read alike are equal. -/
theorem Memory.eq_of_read_eq {m m' : Memory} (h : m.wf) (h' : m'.wf) (hr : ∀ a, m.read a = m'.read a) : m = m' := by
  have below : ∀ {n : Memory} {k : Nat}, (∀ c ∈ n, k < c.1) → ∀ a, a ≤ k → n.read a = none := by
    intro n
    induction n with
    | nil => intros; rfl
    | cons e n ih =>
      intro k hn a ha
      have he := hn e (by simp)
      rw [Memory.read, if_neg (by omega)]
      exact ih (fun c hc => hn c (by simp [hc])) a ha
  induction m generalizing m' with
  | nil =>
    cases m' with
    | nil => rfl
    | cons e m' => have := hr e.1; simp [Memory.read] at this
  | cons e m ih =>
    cases m' with
    | nil => have := hr e.1; simp [Memory.read] at this
    | cons e' m' =>
      obtain ⟨k, v⟩ := e
      obtain ⟨k', v'⟩ := e'
      obtain ⟨hk, hm⟩ := List.pairwise_cons.mp h
      obtain ⟨hk', hm'⟩ := List.pairwise_cons.mp h'
      have hkk : k = k' := by
        rcases lt_trichotomy k k' with hlt | heq | hgt
        · have := hr k
          rw [Memory.read, if_pos rfl, Memory.read, if_neg (by omega), below hk' k (by omega)] at this
          simp at this
        · exact heq
        · have := hr k'
          rw [Memory.read, if_neg (by omega), below hk k' (by omega), Memory.read, if_pos rfl] at this
          simp at this
      subst hkk
      have hv : v = v' := by have := hr k; simpa [Memory.read] using this
      subst hv
      refine congrArg _ (ih hm hm' fun a => ?_)
      by_cases ha : k = a
      · subst ha; rw [below hk k le_rfl, below hk' k le_rfl]
      · have := hr a; simpa [Memory.read, ha] using this

end Sys2Proof.Machine
end

