-- ==== Sys2Proof/Laws/State.lean ====
section
/-!
SUPPORT. What each field of State is after each named update of it: one lemma per field and update, so that no proof
unfolds a record update.
-/

namespace Sys2Proof.Machine

/-! ### complete -/

@[simp] theorem complete_cfg (s : State) : (complete s).cfg = s.cfg := rfl
@[simp] theorem complete_regs (s : State) : (complete s).regs = s.regs := rfl
@[simp] theorem complete_key (s : State) : (complete s).key = s.key := rfl
@[simp] theorem complete_keyLen (s : State) : (complete s).keyLen = s.keyLen := rfl
@[simp] theorem complete_buf (s : State) : (complete s).buf = s.buf := rfl
@[simp] theorem complete_pending (s : State) : (complete s).pending = none := rfl
@[simp] theorem complete_err (s : State) : (complete s).err = false := rfl
@[simp] theorem complete_errcode (s : State) : (complete s).errcode = 0#3 := rfl
@[simp] theorem complete_cmd (s : State) : (complete s).cmd = s.cmd := rfl
@[simp] theorem complete_src (s : State) : (complete s).src = s.src := rfl
@[simp] theorem complete_dst (s : State) : (complete s).dst = s.dst := rfl
@[simp] theorem complete_len (s : State) : (complete s).len = s.len := rfl
@[simp] theorem complete_radix (s : State) : (complete s).radix = s.radix := rfl
@[simp] theorem complete_faults (s : State) : (complete s).faults = s.faults := rfl
@[simp] theorem complete_stopped (s : State) : (complete s).stopped = s.stopped := rfl
@[simp] theorem complete_turns (s : State) : (complete s).turns = s.turns := rfl
@[simp] theorem complete_replies (s : State) : (complete s).replies = s.replies := rfl
@[simp] theorem complete_draws (s : State) : (complete s).draws = s.draws := rfl

/-! ### raise -/

@[simp] theorem raise_cfg (e : ErrKind) (s : State) : (raise e s).cfg = s.cfg := rfl
@[simp] theorem raise_regs (e : ErrKind) (s : State) : (raise e s).regs = s.regs := rfl
@[simp] theorem raise_key (e : ErrKind) (s : State) : (raise e s).key = s.key := rfl
@[simp] theorem raise_keyLen (e : ErrKind) (s : State) : (raise e s).keyLen = s.keyLen := rfl
@[simp] theorem raise_buf (e : ErrKind) (s : State) : (raise e s).buf = s.buf := rfl
@[simp] theorem raise_pending (e : ErrKind) (s : State) : (raise e s).pending = none := rfl
@[simp] theorem raise_err (e : ErrKind) (s : State) : (raise e s).err = true := rfl
@[simp] theorem raise_errcode (e : ErrKind) (s : State) : (raise e s).errcode = e.code := rfl
@[simp] theorem raise_cmd (e : ErrKind) (s : State) : (raise e s).cmd = s.cmd := rfl
@[simp] theorem raise_src (e : ErrKind) (s : State) : (raise e s).src = s.src := rfl
@[simp] theorem raise_dst (e : ErrKind) (s : State) : (raise e s).dst = s.dst := rfl
@[simp] theorem raise_len (e : ErrKind) (s : State) : (raise e s).len = s.len := rfl
@[simp] theorem raise_radix (e : ErrKind) (s : State) : (raise e s).radix = s.radix := rfl
@[simp] theorem raise_faults (e : ErrKind) (s : State) : (raise e s).faults = s.faults := rfl
@[simp] theorem raise_stopped (e : ErrKind) (s : State) : (raise e s).stopped = s.stopped := rfl
@[simp] theorem raise_turns (e : ErrKind) (s : State) : (raise e s).turns = s.turns := rfl
@[simp] theorem raise_replies (e : ErrKind) (s : State) : (raise e s).replies = s.replies := rfl
@[simp] theorem raise_draws (e : ErrKind) (s : State) : (raise e s).draws = s.draws := rfl

/-! ### takeCommand -/

@[simp] theorem takeCommand_cfg (s : State) (v : Word) : (takeCommand s v).cfg = s.cfg := rfl
@[simp] theorem takeCommand_regs (s : State) (v : Word) : (takeCommand s v).regs = s.regs := rfl
@[simp] theorem takeCommand_key (s : State) (v : Word) : (takeCommand s v).key = s.key := rfl
@[simp] theorem takeCommand_keyLen (s : State) (v : Word) : (takeCommand s v).keyLen = s.keyLen := rfl
@[simp] theorem takeCommand_buf (s : State) (v : Word) : (takeCommand s v).buf = s.buf := rfl
@[simp] theorem takeCommand_pending (s : State) (v : Word) : (takeCommand s v).pending = some v := rfl
@[simp] theorem takeCommand_err (s : State) (v : Word) : (takeCommand s v).err = false := rfl
@[simp] theorem takeCommand_errcode (s : State) (v : Word) : (takeCommand s v).errcode = 0#3 := rfl
@[simp] theorem takeCommand_cmd (s : State) (v : Word) : (takeCommand s v).cmd = v := rfl
@[simp] theorem takeCommand_src (s : State) (v : Word) : (takeCommand s v).src = s.src := rfl
@[simp] theorem takeCommand_dst (s : State) (v : Word) : (takeCommand s v).dst = s.dst := rfl
@[simp] theorem takeCommand_len (s : State) (v : Word) : (takeCommand s v).len = s.len := rfl
@[simp] theorem takeCommand_radix (s : State) (v : Word) : (takeCommand s v).radix = s.radix := rfl
@[simp] theorem takeCommand_faults (s : State) (v : Word) : (takeCommand s v).faults = s.faults := rfl
@[simp] theorem takeCommand_stopped (s : State) (v : Word) : (takeCommand s v).stopped = s.stopped := rfl
@[simp] theorem takeCommand_turns (s : State) (v : Word) : (takeCommand s v).turns = s.turns := rfl
@[simp] theorem takeCommand_replies (s : State) (v : Word) : (takeCommand s v).replies = s.replies := rfl
@[simp] theorem takeCommand_draws (s : State) (v : Word) : (takeCommand s v).draws = s.draws := rfl

/-! ### memWrite -/

@[simp] theorem memWrite_cfg (s : State) (a : Nat) (bs : List Byte) : (memWrite s a bs).cfg = s.cfg := rfl
@[simp] theorem memWrite_regs (s : State) (a : Nat) (bs : List Byte) : (memWrite s a bs).regs = s.regs := rfl
@[simp] theorem memWrite_key (s : State) (a : Nat) (bs : List Byte) : (memWrite s a bs).key = s.key := rfl
@[simp] theorem memWrite_keyLen (s : State) (a : Nat) (bs : List Byte) : (memWrite s a bs).keyLen = s.keyLen := rfl
@[simp] theorem memWrite_buf (s : State) (a : Nat) (bs : List Byte) : (memWrite s a bs).buf = s.buf.writeRange a bs := rfl
@[simp] theorem memWrite_pending (s : State) (a : Nat) (bs : List Byte) : (memWrite s a bs).pending = s.pending := rfl
@[simp] theorem memWrite_err (s : State) (a : Nat) (bs : List Byte) : (memWrite s a bs).err = s.err := rfl
@[simp] theorem memWrite_errcode (s : State) (a : Nat) (bs : List Byte) : (memWrite s a bs).errcode = s.errcode := rfl
@[simp] theorem memWrite_cmd (s : State) (a : Nat) (bs : List Byte) : (memWrite s a bs).cmd = s.cmd := rfl
@[simp] theorem memWrite_src (s : State) (a : Nat) (bs : List Byte) : (memWrite s a bs).src = s.src := rfl
@[simp] theorem memWrite_dst (s : State) (a : Nat) (bs : List Byte) : (memWrite s a bs).dst = s.dst := rfl
@[simp] theorem memWrite_len (s : State) (a : Nat) (bs : List Byte) : (memWrite s a bs).len = s.len := rfl
@[simp] theorem memWrite_radix (s : State) (a : Nat) (bs : List Byte) : (memWrite s a bs).radix = s.radix := rfl
@[simp] theorem memWrite_faults (s : State) (a : Nat) (bs : List Byte) : (memWrite s a bs).faults = s.faults := rfl
@[simp] theorem memWrite_stopped (s : State) (a : Nat) (bs : List Byte) : (memWrite s a bs).stopped = s.stopped := rfl
@[simp] theorem memWrite_turns (s : State) (a : Nat) (bs : List Byte) : (memWrite s a bs).turns = s.turns := rfl
@[simp] theorem memWrite_replies (s : State) (a : Nat) (bs : List Byte) : (memWrite s a bs).replies = s.replies := rfl
@[simp] theorem memWrite_draws (s : State) (a : Nat) (bs : List Byte) : (memWrite s a bs).draws = s.draws := rfl

/-! ### setKey -/

@[simp] theorem setKey_cfg (s : State) (k : KeyLen) (bs : List Byte) : (setKey s k bs).cfg = s.cfg := rfl
@[simp] theorem setKey_regs (s : State) (k : KeyLen) (bs : List Byte) : (setKey s k bs).regs = s.regs := rfl
@[simp] theorem setKey_key (s : State) (k : KeyLen) (bs : List Byte) : (setKey s k bs).key = keyStore bs s.draws := rfl
@[simp] theorem setKey_keyLen (s : State) (k : KeyLen) (bs : List Byte) : (setKey s k bs).keyLen = k := rfl
@[simp] theorem setKey_buf (s : State) (k : KeyLen) (bs : List Byte) : (setKey s k bs).buf = s.buf := rfl
@[simp] theorem setKey_pending (s : State) (k : KeyLen) (bs : List Byte) : (setKey s k bs).pending = s.pending := rfl
@[simp] theorem setKey_err (s : State) (k : KeyLen) (bs : List Byte) : (setKey s k bs).err = s.err := rfl
@[simp] theorem setKey_errcode (s : State) (k : KeyLen) (bs : List Byte) : (setKey s k bs).errcode = s.errcode := rfl
@[simp] theorem setKey_cmd (s : State) (k : KeyLen) (bs : List Byte) : (setKey s k bs).cmd = s.cmd := rfl
@[simp] theorem setKey_src (s : State) (k : KeyLen) (bs : List Byte) : (setKey s k bs).src = s.src := rfl
@[simp] theorem setKey_dst (s : State) (k : KeyLen) (bs : List Byte) : (setKey s k bs).dst = s.dst := rfl
@[simp] theorem setKey_len (s : State) (k : KeyLen) (bs : List Byte) : (setKey s k bs).len = s.len := rfl
@[simp] theorem setKey_radix (s : State) (k : KeyLen) (bs : List Byte) : (setKey s k bs).radix = s.radix := rfl
@[simp] theorem setKey_faults (s : State) (k : KeyLen) (bs : List Byte) : (setKey s k bs).faults = s.faults := rfl
@[simp] theorem setKey_stopped (s : State) (k : KeyLen) (bs : List Byte) : (setKey s k bs).stopped = s.stopped := rfl
@[simp] theorem setKey_turns (s : State) (k : KeyLen) (bs : List Byte) : (setKey s k bs).turns = s.turns := rfl
@[simp] theorem setKey_replies (s : State) (k : KeyLen) (bs : List Byte) : (setKey s k bs).replies = s.replies := rfl
@[simp] theorem setKey_draws (s : State) (k : KeyLen) (bs : List Byte) : (setKey s k bs).draws = s.draws + 1 := rfl

/-! ### clearKey -/

@[simp] theorem clearKey_cfg (s : State) : (clearKey s).cfg = s.cfg := rfl
@[simp] theorem clearKey_regs (s : State) : (clearKey s).regs = s.regs := rfl
@[simp] theorem clearKey_key (s : State) : (clearKey s).key = keyStore [] s.draws := rfl
@[simp] theorem clearKey_keyLen (s : State) : (clearKey s).keyLen = .empty := rfl
@[simp] theorem clearKey_buf (s : State) : (clearKey s).buf = s.buf := rfl
@[simp] theorem clearKey_pending (s : State) : (clearKey s).pending = s.pending := rfl
@[simp] theorem clearKey_err (s : State) : (clearKey s).err = s.err := rfl
@[simp] theorem clearKey_errcode (s : State) : (clearKey s).errcode = s.errcode := rfl
@[simp] theorem clearKey_cmd (s : State) : (clearKey s).cmd = s.cmd := rfl
@[simp] theorem clearKey_src (s : State) : (clearKey s).src = s.src := rfl
@[simp] theorem clearKey_dst (s : State) : (clearKey s).dst = s.dst := rfl
@[simp] theorem clearKey_len (s : State) : (clearKey s).len = s.len := rfl
@[simp] theorem clearKey_radix (s : State) : (clearKey s).radix = s.radix := rfl
@[simp] theorem clearKey_faults (s : State) : (clearKey s).faults = s.faults := rfl
@[simp] theorem clearKey_stopped (s : State) : (clearKey s).stopped = s.stopped := rfl
@[simp] theorem clearKey_turns (s : State) : (clearKey s).turns = s.turns := rfl
@[simp] theorem clearKey_replies (s : State) : (clearKey s).replies = s.replies := rfl
@[simp] theorem clearKey_draws (s : State) : (clearKey s).draws = s.draws + 1 := rfl

/-! ### recordFault -/

@[simp] theorem recordFault_cfg (s : State) (f : Fault) : (recordFault s f).cfg = s.cfg := rfl
@[simp] theorem recordFault_regs (s : State) (f : Fault) : (recordFault s f).regs = s.regs := rfl
@[simp] theorem recordFault_key (s : State) (f : Fault) : (recordFault s f).key = s.key := rfl
@[simp] theorem recordFault_keyLen (s : State) (f : Fault) : (recordFault s f).keyLen = s.keyLen := rfl
@[simp] theorem recordFault_buf (s : State) (f : Fault) : (recordFault s f).buf = s.buf := rfl
@[simp] theorem recordFault_pending (s : State) (f : Fault) : (recordFault s f).pending = s.pending := rfl
@[simp] theorem recordFault_err (s : State) (f : Fault) : (recordFault s f).err = s.err := rfl
@[simp] theorem recordFault_errcode (s : State) (f : Fault) : (recordFault s f).errcode = s.errcode := rfl
@[simp] theorem recordFault_cmd (s : State) (f : Fault) : (recordFault s f).cmd = s.cmd := rfl
@[simp] theorem recordFault_src (s : State) (f : Fault) : (recordFault s f).src = s.src := rfl
@[simp] theorem recordFault_dst (s : State) (f : Fault) : (recordFault s f).dst = s.dst := rfl
@[simp] theorem recordFault_len (s : State) (f : Fault) : (recordFault s f).len = s.len := rfl
@[simp] theorem recordFault_radix (s : State) (f : Fault) : (recordFault s f).radix = s.radix := rfl
@[simp] theorem recordFault_faults (s : State) (f : Fault) : (recordFault s f).faults = if f ∈ s.faults then s.faults else s.faults ++ [f] := rfl
@[simp] theorem recordFault_stopped (s : State) (f : Fault) : (recordFault s f).stopped = some f := rfl
@[simp] theorem recordFault_turns (s : State) (f : Fault) : (recordFault s f).turns = s.turns := rfl
@[simp] theorem recordFault_replies (s : State) (f : Fault) : (recordFault s f).replies = s.replies := rfl
@[simp] theorem recordFault_draws (s : State) (f : Fault) : (recordFault s f).draws = s.draws := rfl

/-! ### reply -/

@[simp] theorem reply_cfg (s : State) (v : Word) : (reply s v).cfg = s.cfg := rfl
@[simp] theorem reply_regs (s : State) (v : Word) : (reply s v).regs = s.regs := rfl
@[simp] theorem reply_key (s : State) (v : Word) : (reply s v).key = s.key := rfl
@[simp] theorem reply_keyLen (s : State) (v : Word) : (reply s v).keyLen = s.keyLen := rfl
@[simp] theorem reply_buf (s : State) (v : Word) : (reply s v).buf = s.buf := rfl
@[simp] theorem reply_pending (s : State) (v : Word) : (reply s v).pending = s.pending := rfl
@[simp] theorem reply_err (s : State) (v : Word) : (reply s v).err = s.err := rfl
@[simp] theorem reply_errcode (s : State) (v : Word) : (reply s v).errcode = s.errcode := rfl
@[simp] theorem reply_cmd (s : State) (v : Word) : (reply s v).cmd = s.cmd := rfl
@[simp] theorem reply_src (s : State) (v : Word) : (reply s v).src = s.src := rfl
@[simp] theorem reply_dst (s : State) (v : Word) : (reply s v).dst = s.dst := rfl
@[simp] theorem reply_len (s : State) (v : Word) : (reply s v).len = s.len := rfl
@[simp] theorem reply_radix (s : State) (v : Word) : (reply s v).radix = s.radix := rfl
@[simp] theorem reply_faults (s : State) (v : Word) : (reply s v).faults = s.faults := rfl
@[simp] theorem reply_stopped (s : State) (v : Word) : (reply s v).stopped = s.stopped := rfl
@[simp] theorem reply_turns (s : State) (v : Word) : (reply s v).turns = s.turns := rfl
@[simp] theorem reply_replies (s : State) (v : Word) : (reply s v).replies = s.replies ++ [v] := rfl
@[simp] theorem reply_draws (s : State) (v : Word) : (reply s v).draws = s.draws := rfl

/-! ### softReset -/

@[simp] theorem softReset_cfg (s : State) : (softReset s).cfg = s.cfg := rfl
@[simp] theorem softReset_regs (s : State) : (softReset s).regs = Vector.replicate 16 none := rfl
@[simp] theorem softReset_key (s : State) : (softReset s).key = Vector.replicate 32 0#8 := rfl
@[simp] theorem softReset_keyLen (s : State) : (softReset s).keyLen = .empty := rfl
@[simp] theorem softReset_buf (s : State) : (softReset s).buf = [] := rfl
@[simp] theorem softReset_pending (s : State) : (softReset s).pending = none := rfl
@[simp] theorem softReset_err (s : State) : (softReset s).err = false := rfl
@[simp] theorem softReset_errcode (s : State) : (softReset s).errcode = 0#3 := rfl
@[simp] theorem softReset_cmd (s : State) : (softReset s).cmd = 0#32 := rfl
@[simp] theorem softReset_src (s : State) : (softReset s).src = 0#32 := rfl
@[simp] theorem softReset_dst (s : State) : (softReset s).dst = 0#32 := rfl
@[simp] theorem softReset_len (s : State) : (softReset s).len = 0#32 := rfl
@[simp] theorem softReset_radix (s : State) : (softReset s).radix = 0#32 := rfl
@[simp] theorem softReset_faults (s : State) : (softReset s).faults = s.faults := rfl
@[simp] theorem softReset_stopped (s : State) : (softReset s).stopped = none := rfl
@[simp] theorem softReset_turns (s : State) : (softReset s).turns = s.turns := rfl
@[simp] theorem softReset_replies (s : State) : (softReset s).replies = s.replies := rfl
@[simp] theorem softReset_draws (s : State) : (softReset s).draws = s.draws := rfl

/-! ### placeCommand -/

@[simp] theorem placeCommand_cfg (s : State) (v : Word) : (placeCommand s v).cfg = s.cfg := rfl
@[simp] theorem placeCommand_regs (s : State) (v : Word) : (placeCommand s v).regs = s.regs := rfl
@[simp] theorem placeCommand_key (s : State) (v : Word) : (placeCommand s v).key = s.key := rfl
@[simp] theorem placeCommand_keyLen (s : State) (v : Word) : (placeCommand s v).keyLen = s.keyLen := rfl
@[simp] theorem placeCommand_buf (s : State) (v : Word) : (placeCommand s v).buf = s.buf := rfl
@[simp] theorem placeCommand_pending (s : State) (v : Word) : (placeCommand s v).pending = some v := rfl
@[simp] theorem placeCommand_err (s : State) (v : Word) : (placeCommand s v).err = false := rfl
@[simp] theorem placeCommand_errcode (s : State) (v : Word) : (placeCommand s v).errcode = 0#3 := rfl
@[simp] theorem placeCommand_cmd (s : State) (v : Word) : (placeCommand s v).cmd = v := rfl
@[simp] theorem placeCommand_src (s : State) (v : Word) : (placeCommand s v).src = s.src := rfl
@[simp] theorem placeCommand_dst (s : State) (v : Word) : (placeCommand s v).dst = s.dst := rfl
@[simp] theorem placeCommand_len (s : State) (v : Word) : (placeCommand s v).len = s.len := rfl
@[simp] theorem placeCommand_radix (s : State) (v : Word) : (placeCommand s v).radix = s.radix := rfl
@[simp] theorem placeCommand_faults (s : State) (v : Word) : (placeCommand s v).faults = s.faults := rfl
@[simp] theorem placeCommand_stopped (s : State) (v : Word) : (placeCommand s v).stopped = none := rfl
@[simp] theorem placeCommand_turns (s : State) (v : Word) : (placeCommand s v).turns = .core :: s.turns := rfl
@[simp] theorem placeCommand_replies (s : State) (v : Word) : (placeCommand s v).replies = s.replies := rfl
@[simp] theorem placeCommand_draws (s : State) (v : Word) : (placeCommand s v).draws = s.draws := rfl

end Sys2Proof.Machine
end

