-- ==== Sys2Proof/Laws/Ops.lean ====
section
/-!
SUPPORT. One lemma per shared operation that says everything it can answer; callers cite it instead of unfolding the
operation.
-/

namespace Sys2Proof.Machine

/-- A computation answers a value exactly when each of its two parts does. -/
theorem bind_eq_ok {α β : Type} {x : Cmd α} {f : α → Cmd β} {b : β} :
    (x >>= f) = .ok b ↔ ∃ a, x = .ok a ∧ f a = .ok b := by
  cases x with
  | error e => simp [bind, Except.bind]
  | ok a => simp [bind, Except.bind]

/-- A computation stops where its first part stops, or else where its second does. -/
theorem bind_eq_error {α β : Type} {x : Cmd α} {f : α → Cmd β} {e : Stop} :
    (x >>= f) = .error e ↔ x = .error e ∨ ∃ a, x = .ok a ∧ f a = .error e := by
  cases x with
  | error e' => simp [bind, Except.bind]
  | ok a => simp [bind, Except.bind]

theorem ok_bind {α β : Type} (a : α) (f : α → Cmd β) : ((Except.ok a : Cmd α) >>= f) = f a := rfl

theorem error_bind {α β : Type} (e : Stop) (f : α → Cmd β) :
    ((Except.error e : Cmd α) >>= f) = .error e := rfl

theorem pure_eq_ok {α : Type} (a : α) : (pure a : Cmd α) = .ok a := rfl

theorem check_eq_ok {c : Bool} {e : ErrKind} {u : Unit} : check c e = .ok u ↔ c = true := by
  cases c <;> simp [check]

theorem check_eq_error {c : Bool} {e : ErrKind} {x : Stop} :
    check c e = .error x ↔ c = false ∧ x = .raises e := by
  cases c <;> simp [check, eq_comm]

/-- `x[i]` answers the register's value (R31). -/
theorem readReg_eq_ok {s : State} {r : Reg} {v : Int} : readReg s r = .ok v ↔ s.regs[r] = some v := by
  unfold readReg; split <;> simp_all

/-- `x[i]` stops on NULL_ARGUMENT, on an invalid register (R31). -/
theorem readReg_eq_error {s : State} {r : Reg} {x : Stop} :
    readReg s r = .error x ↔ s.regs[r] = none ∧ x = .raises .nullArgument := by
  unfold readReg
  cases s.regs[r] <;> simp [eq_comm]

/-- The range of an integer register, as inequalities (R32). -/
theorem inRange_iff {c : Config} {v : Int} :
    inRange c v = true ↔ -(2 ^ (c.intBits - 1) : Int) ≤ v ∧ v ≤ 2 ^ (c.intBits - 1) - 1 := by
  simp [inRange]

/-- `x[i] <- v` answers the state with that one register written (R32). -/
theorem writeReg_eq_ok {s t : State} {r : Reg} {v : Int} :
    writeReg s r v = .ok t ↔ inRange s.cfg v = true ∧ t = { s with regs := s.regs.set r (some v) } := by
  unfold writeReg
  cases inRange s.cfg v
  · simp
  · simpa using eq_comm

/-- `x[i] <- v` stops on ARITHMETIC_ERROR, on a value out of range (R32). -/
theorem writeReg_eq_error {s : State} {r : Reg} {v : Int} {x : Stop} :
    writeReg s r v = .error x ↔ inRange s.cfg v = false ∧ x = .raises .arithmeticError := by
  unfold writeReg
  cases inRange s.cfg v
  · simpa using eq_comm
  · simp

/-- `MemRead(a, n)` answers the bytes of the range (R83). -/
theorem memRead_eq_ok {s : State} {a n : Nat} {bs : List Byte} :
    memRead s a n = .ok bs ↔
      bs.length = n ∧ ∀ (i : Nat) (h : i < bs.length), s.buf.read (a + i) = some bs[i] := by
  rw [← Memory.readRange_eq_some]
  unfold memRead; split <;> simp_all

/-- `MemRead(a, n)` stops on UNINIT_READ(a, n), where a byte of the range is unwritten (R83). -/
theorem memRead_eq_error {s : State} {a n : Nat} {x : Stop} :
    memRead s a n = .error x ↔
      (∃ i, i < n ∧ s.buf.read (a + i) = none) ∧ x = .faults (.uninitRead a n) := by
  rw [← Memory.readRange_eq_none]
  unfold memRead
  cases s.buf.readRange a n <;> simp [eq_comm]

/-- The key answered is the first KEYLEN bytes of KEY (R35). -/
theorem loadedKey_eq_ok {s : State} {k : List Byte} :
    loadedKey s = .ok k ↔ s.keyLen ≠ .empty ∧ k = s.key.toList.take s.keyLen.bytes := by
  unfold loadedKey; cases h : s.keyLen <;> simp [KeyLen.bytes, eq_comm]

/-- With no key loaded the read of the key stops on NULL_ARGUMENT (R210). -/
theorem loadedKey_eq_error {s : State} {x : Stop} :
    loadedKey s = .error x ↔ s.keyLen = .empty ∧ x = .raises .nullArgument := by
  unfold loadedKey; cases h : s.keyLen <;> simp [KeyLen.bytes, eq_comm]

/-- The bytes a key store takes from the buffer stand first (R250). -/
theorem keyStore_getElem (bs : List Byte) (draw : Nat) (i : Fin 32) (h : i.val < bs.length) :
    (keyStore bs draw)[i] = bs[i.val] := by
  simp [keyStore, h]

/-- The key a load leaves is the byte string loaded (R250). -/
theorem keyStore_take (bs : List Byte) (draw : Nat) (h : bs.length ≤ 32) :
    (keyStore bs draw).toList.take bs.length = bs := by
  apply List.ext_getElem
  · simp [h]
  · intro i h1 h2
    simp [keyStore, h2]

theorem ofBytes_eq_some {n : Nat} {k : KeyLen} :
    KeyLen.ofBytes n = some k ↔ k ≠ .empty ∧ n = k.bytes := by
  unfold KeyLen.ofBytes
  split_ifs <;> cases k <;> simp_all [KeyLen.bytes]

/-- What a commit can answer with a next state: the writes and a completion, or an error and nothing else (R110). -/
theorem commit_eq_next {s t : State} {r : Cmd State} :
    commit s r = .next t ↔
      (∃ u, r = .ok u ∧ t = complete u) ∨ ∃ e, r = .error (.raises e) ∧ t = raise e s := by
  unfold commit; split <;> simp_all [eq_comm]

/-- A commit stops exactly on the model fault of its command (R110). -/
theorem commit_eq_fault {s : State} {r : Cmd State} {f : Fault} :
    commit s r = .fault f ↔ r = .error (.faults f) := by
  unfold commit; split <;> simp_all

/-- A commit refuses nothing. -/
theorem commit_ne_refused {s : State} {r : Cmd State} {x : Refusal} : commit s r ≠ .refused x := by
  unfold commit; split <;> simp

@[simp] theorem commit_ok (s u : State) : commit s (.ok u) = .next (complete u) := rfl

@[simp] theorem commit_raises (s : State) (e : ErrKind) :
    commit s (.error (.raises e)) = .next (raise e s) := rfl

@[simp] theorem commit_faults (s : State) (f : Fault) :
    commit s (.error (.faults f)) = .fault f := rfl

/-- A computation that can only raise `e` raises it exactly when it does not answer. -/
theorem error_iff_not_ok {x : Cmd Unit} {e : ErrKind} {p : Prop} (hok : ∀ u, x = .ok u ↔ p)
    (herr : ∀ y, x = .error y → y = .raises e) {y : Stop} : x = .error y ↔ ¬p ∧ y = .raises e := by
  cases x with
  | ok u => simp [(hok u).mp rfl]
  | error z =>
    have hp : ¬p := fun h => nomatch (hok ()).mpr h
    simp [hp, herr z rfl, eq_comm]

/-- The radix checks answer exactly on a legal RADIX for the element size (R140, R142). -/
theorem checkRadix_eq_ok {esz : ElemSize} {n : Nat} (u : Unit) :
    checkRadix esz n = .ok u ↔ 2 ≤ n ∧ n ≤ 65536 ∧ (esz = .half ∨ n ≤ 256) := by
  simp only [checkRadix, bind_eq_ok, check_eq_ok]
  simp [and_assoc]

theorem checkRadix_eq_error {esz : ElemSize} {n : Nat} {x : Stop} :
    checkRadix esz n = .error x ↔
      ¬(2 ≤ n ∧ n ≤ 65536 ∧ (esz = .half ∨ n ≤ 256)) ∧ x = .raises .invalidArgument :=
  error_iff_not_ok checkRadix_eq_ok fun y h => by
    simp only [checkRadix, bind_eq_error, check_eq_error] at h
    rcases h with h | ⟨_, _, h⟩ <;> exact h.2

/-- The length check answers exactly on `1 ≤ n ≤ MAXLEN` (R140, R142, R144). -/
theorem checkLen_eq_ok {c : Config} {n : Nat} (u : Unit) : checkLen c n = .ok u ↔ 1 ≤ n ∧ n ≤ c.maxLen := by
  simp [checkLen, check_eq_ok]

theorem checkLen_eq_error {c : Config} {n : Nat} {x : Stop} :
    checkLen c n = .error x ↔ ¬(1 ≤ n ∧ n ≤ c.maxLen) ∧ x = .raises .invalidArgument :=
  error_iff_not_ok checkLen_eq_ok fun _ h => (check_eq_error.mp h).2

/-- The bounds check answers exactly on a range inside the buffer (R82). -/
theorem checkBounds_eq_ok {c : Config} {a n : Nat} (u : Unit) :
    checkBounds c a n = .ok u ↔ a + n ≤ c.bufBytes := by
  simp [checkBounds, inBounds, check_eq_ok]

theorem checkBounds_eq_error {c : Config} {a n : Nat} {x : Stop} :
    checkBounds c a n = .error x ↔ ¬(a + n ≤ c.bufBytes) ∧ x = .raises .invalidArgument :=
  error_iff_not_ok checkBounds_eq_ok fun _ h => (check_eq_error.mp h).2

/-- The length checks of CIPH and PRF answer exactly on a positive multiple of 16 up to MAXLEN (R210, R213). -/
theorem checkBlockLen_eq_ok {c : Config} {n : Nat} (u : Unit) :
    checkBlockLen c n = .ok u ↔ 16 ≤ n ∧ n % 16 = 0 ∧ n ≤ c.maxLen := by
  simp only [checkBlockLen, bind_eq_ok, check_eq_ok]
  simp [and_assoc]

theorem checkBlockLen_eq_error {c : Config} {n : Nat} {x : Stop} :
    checkBlockLen c n = .error x ↔
      ¬(16 ≤ n ∧ n % 16 = 0 ∧ n ≤ c.maxLen) ∧ x = .raises .invalidArgument :=
  error_iff_not_ok checkBlockLen_eq_ok fun y h => by
    simp only [checkBlockLen, bind_eq_error, check_eq_error] at h
    rcases h with h | ⟨_, _, h⟩ <;> exact h.2

end Sys2Proof.Machine
end

