-- ==== Sys2Proof/Laws/Exec.lean ====
section
/-!
SUPPORT. Everything a command can do when it answers a next state (spec/30_encoding.md R110): one inversion lemma per
meaning and one for all of them. Invariants and frames cite these instead of unfolding the meanings.
-/

namespace Sys2Proof.Machine

/-- The kinds a command's own checks raise (R270); ILLEGAL_COMMAND is raised at decode and FATAL never. -/
def commandErrors : List ErrKind := [.nullArgument, .invalidArgument, .invalidKey, .arithmeticError]

theorem check_eq_raises {c : Bool} {k e : ErrKind} :
    check c k = .error (.raises e) ↔ c = false ∧ e = k := by
  simp [check_eq_error]

/-- What a computation may raise, when each part raises only kinds of the list. -/
theorem bind_raises {α β : Type} {x : Cmd α} {f : α → Cmd β} {l : List ErrKind}
    (hx : ∀ e, x = .error (.raises e) → e ∈ l) (hf : ∀ a e, f a = .error (.raises e) → e ∈ l) :
    ∀ e, (x >>= f) = .error (.raises e) → e ∈ l := by
  intro e h
  rcases bind_eq_error.mp h with h | ⟨a, -, h⟩
  · exact hx e h
  · exact hf a e h

/-- ADD, SUB and MUL: the sources are valid, the result is in range and is written. -/
theorem binaryOp_eq_ok {op : Int → Int → Int} {rd rs1 rs2 : Reg} {s u : State} :
    binaryOp op rd rs1 rs2 s = .ok u ↔
      ∃ a b, s.regs[rs1] = some a ∧ s.regs[rs2] = some b ∧ inRange s.cfg (op a b) = true
        ∧ u = { s with regs := s.regs.set rd (some (op a b)) } := by
  simp only [binaryOp, bind_eq_ok, readReg_eq_ok, writeReg_eq_ok]
  constructor
  · rintro ⟨a, ha, b, hb, h, rfl⟩; exact ⟨a, b, ha, hb, h, rfl⟩
  · rintro ⟨a, b, ha, hb, h, rfl⟩; exact ⟨a, ha, b, hb, h, rfl⟩

theorem check_raises_mem {c : Bool} {k : ErrKind} (hk : k ∈ commandErrors) :
    ∀ e, check c k = .error (.raises e) → e ∈ commandErrors := by
  intro e h; rw [(check_eq_raises.mp h).2]; exact hk

theorem readReg_raises_mem {s : State} {r : Reg} :
    ∀ e, readReg s r = .error (.raises e) → e ∈ commandErrors := by
  intro e h; have := (readReg_eq_error.mp h).2; simp_all [commandErrors]

theorem writeReg_raises_mem {s : State} {r : Reg} {v : Int} :
    ∀ e, writeReg s r v = .error (.raises e) → e ∈ commandErrors := by
  intro e h; have := (writeReg_eq_error.mp h).2; simp_all [commandErrors]

theorem memRead_raises_mem {s : State} {a n : Nat} :
    ∀ e, memRead s a n = .error (.raises e) → e ∈ commandErrors := by
  intro e h; have := (memRead_eq_error.mp h).2; simp_all

theorem loadedKey_raises_mem {s : State} :
    ∀ e, loadedKey s = .error (.raises e) → e ∈ commandErrors := by
  intro e h; have := (loadedKey_eq_error.mp h).2; simp_all [commandErrors]

theorem checkKeyLen_eq_ok {n : Nat} {k : KeyLen} : checkKeyLen n = .ok k ↔ k ≠ .empty ∧ n = k.bytes := by
  rw [← ofBytes_eq_some]
  unfold checkKeyLen; split <;> simp_all

theorem checkKeyLen_eq_error {n : Nat} {x : Stop} :
    checkKeyLen n = .error x ↔ (n ≠ 16 ∧ n ≠ 24 ∧ n ≠ 32) ∧ x = .raises .invalidKey := by
  unfold checkKeyLen KeyLen.ofBytes
  split_ifs <;> simp_all [eq_comm]

theorem checkKeyLen_raises_mem {n : Nat} :
    ∀ e, checkKeyLen n = .error (.raises e) → e ∈ commandErrors := by
  intro e h; have := (checkKeyLen_eq_error.mp h).2; simp_all [commandErrors]

theorem pure_raises_mem {α : Type} {a : α} {l : List ErrKind} :
    ∀ e, (pure a : Cmd α) = .error (.raises e) → e ∈ l := by
  intro e h; cases h

theorem checkRadix_raises_mem {esz : ElemSize} {rdx : Nat} :
    ∀ e, checkRadix esz rdx = .error (.raises e) → e ∈ commandErrors :=
  bind_raises (check_raises_mem (by decide)) fun _ => check_raises_mem (by decide)

theorem checkBlockLen_raises_mem {c : Config} {n : Nat} :
    ∀ e, checkBlockLen c n = .error (.raises e) → e ∈ commandErrors :=
  bind_raises (check_raises_mem (by decide)) fun _ => check_raises_mem (by decide)

/-- What the writes of a command can be, by command (R33, R81, R14): the state it completes from. -/
inductive Writes (s : State) : Instr → State → Prop where
  | nop : Writes s .nop s
  | keyld (k : KeyLen) (bs : List Byte) (hk : k ≠ .empty) (hn : s.lenVal = k.bytes)
      (hl : bs.length = k.bytes) : Writes s .keyld (setKey s k bs)
  | keyclr : Writes s .keyclr (clearKey s)
  | ciph (bs : List Byte) (hl : bs.length = s.lenVal) (hb : s.dstAddr + s.lenVal ≤ s.cfg.bufBytes) :
      Writes s .ciph (memWrite s s.dstAddr bs)
  | prf (bs : List Byte) (hl : bs.length = 16) (hb : s.dstAddr + 16 ≤ s.cfg.bufBytes) :
      Writes s .prf (memWrite s s.dstAddr bs)
  | str (r : Reg) (esz : ElemSize) (bs : List Byte) (hl : bs.length = elemWidth esz * s.lenVal)
      (hb : s.dstAddr + elemWidth esz * s.lenVal ≤ s.cfg.bufBytes) :
      Writes s (.str r esz) (memWrite s s.dstAddr bs)
  | bstr (r : Reg) (bs : List Byte) (hl : bs.length = s.lenVal)
      (hb : s.dstAddr + s.lenVal ≤ s.cfg.bufBytes) : Writes s (.bstr r) (memWrite s s.dstAddr bs)
  | num (r : Reg) (esz : ElemSize) (v : Int) (hv : inRange s.cfg v = true) :
      Writes s (.num r esz) { s with regs := s.regs.set r (some v) }
  | numb (r : Reg) (v : Int) (hv : inRange s.cfg v = true) :
      Writes s (.numb r) { s with regs := s.regs.set r (some v) }
  | add (rd rs1 rs2 : Reg) (v : Int) (hv : inRange s.cfg v = true) :
      Writes s (.add rd rs1 rs2) { s with regs := s.regs.set rd (some v) }
  | sub (rd rs1 rs2 : Reg) (v : Int) (hv : inRange s.cfg v = true) :
      Writes s (.sub rd rs1 rs2) { s with regs := s.regs.set rd (some v) }
  | mul (rd rs1 rs2 : Reg) (v : Int) (hv : inRange s.cfg v = true) :
      Writes s (.mul rd rs1 rs2) { s with regs := s.regs.set rd (some v) }
  | mod (rd rs1 rs2 : Reg) (v : Int) (hv : inRange s.cfg v = true) :
      Writes s (.mod rd rs1 rs2) { s with regs := s.regs.set rd (some v) }
  | ldi (rd : Reg) (imm : BitVec 16) (v : Int) (hv : inRange s.cfg v = true) :
      Writes s (.ldi rd imm) { s with regs := s.regs.set rd (some v) }

@[simp] theorem column_bytes_length (a : Column) : a.bytes.length = 4 := rfl

@[simp] theorem block_bytes_length (x : Block) : x.bytes.length = 16 := rfl

theorem blocksOf_length (k : Nat) (bs : List Byte) : (blocksOf k bs).length = k := by
  induction k generalizing bs with
  | zero => rfl
  | succ k ih => simp [blocksOf, ih]

/-- CIPH's output is as long as its `k` blocks (R210). -/
theorem ecb_length (key : List Byte) (k : Nat) (x : List Byte) : (ecb key k x).length = 16 * k := by
  unfold ecb
  induction k generalizing x with
  | zero => rfl
  | succ k ih => rw [blocksOf, List.flatMap_cons, List.length_append, ih]; simp; omega

/-- A next state of a command comes from an error of a kind its checks raise, or from its writes (R110). -/
theorem commit_cases {i : Instr} {s t : State} {r : Cmd State} (h : commit s r = .next t)
    (hok : ∀ u, r = .ok u → Writes s i u) (herr : ∀ e, r = .error (.raises e) → e ∈ commandErrors) :
    (∃ e ∈ commandErrors, t = raise e s) ∨ ∃ u, Writes s i u ∧ t = complete u := by
  rcases commit_eq_next.mp h with ⟨u, hu, rfl⟩ | ⟨e, he, rfl⟩
  · exact .inr ⟨u, hok u hu, rfl⟩
  · exact .inl ⟨e, herr e he, rfl⟩

theorem binaryOp_raises_mem {op : Int → Int → Int} {rd rs1 rs2 : Reg} {s : State} :
    ∀ e, binaryOp op rd rs1 rs2 s = .error (.raises e) → e ∈ commandErrors :=
  bind_raises readReg_raises_mem fun _ => bind_raises readReg_raises_mem fun _ => writeReg_raises_mem

/-- Everything a command can do when it answers a next state (R110). -/
theorem exec_cases {i : Instr} {s t : State} (h : exec i s = .next t) :
    (∃ e ∈ commandErrors, t = raise e s) ∨ ∃ u, Writes s i u ∧ t = complete u := by
  have hmem : ∀ {k : ErrKind}, k ∈ commandErrors → ∀ {c : Bool}, ∀ e,
      check c k = .error (.raises e) → e ∈ commandErrors := fun hk => check_raises_mem hk
  cases i with
  | nop =>
    exact commit_cases (r := pure s) h (fun u hu => by cases hu; exact .nop) pure_raises_mem
  | keyclr =>
    exact commit_cases (r := pure (clearKey s)) h (fun u hu => by cases hu; exact .keyclr) pure_raises_mem
  | keyld =>
    refine commit_cases h (fun u hu => ?_) (bind_raises checkKeyLen_raises_mem fun _ =>
      bind_raises (hmem (by decide)) fun _ => bind_raises memRead_raises_mem fun _ => pure_raises_mem)
    simp only [bind_eq_ok, checkKeyLen_eq_ok, memRead_eq_ok, pure_eq_ok] at hu
    obtain ⟨k, ⟨hk, hn⟩, -, -, bs, ⟨hl, -⟩, hu⟩ := hu
    cases hu
    exact .keyld k bs hk hn (hl.trans hn)
  | ciph =>
    refine commit_cases h (fun u hu => ?_) (bind_raises loadedKey_raises_mem fun _ =>
      bind_raises checkBlockLen_raises_mem fun _ => bind_raises (hmem (by decide)) fun _ =>
      bind_raises (hmem (by decide)) fun _ => bind_raises memRead_raises_mem fun _ => pure_raises_mem)
    simp only [bind_eq_ok, checkBlockLen, checkBounds, check_eq_ok, pure_eq_ok] at hu
    obtain ⟨key, -, -, ⟨-, hn, -⟩, -, -, -, hb, x, -, hu⟩ := hu
    cases hu
    simp only [Bool.and_eq_true, decide_eq_true_eq, inBounds] at hn hb
    exact .ciph _ (by rw [ecb_length]; omega) hb
  | prf =>
    refine commit_cases h (fun u hu => ?_) (bind_raises loadedKey_raises_mem fun _ =>
      bind_raises checkBlockLen_raises_mem fun _ => bind_raises (hmem (by decide)) fun _ =>
      bind_raises (hmem (by decide)) fun _ => bind_raises memRead_raises_mem fun _ => pure_raises_mem)
    simp only [bind_eq_ok, checkBlockLen, checkBounds, check_eq_ok, pure_eq_ok] at hu
    obtain ⟨key, -, -, -, -, -, -, hb, x, -, hu⟩ := hu
    cases hu
    simp only [decide_eq_true_eq, inBounds] at hb
    exact .prf _ rfl hb
  | num r esz =>
    refine commit_cases h (fun u hu => ?_) (bind_raises checkRadix_raises_mem fun _ =>
      bind_raises (hmem (by decide)) fun _ => bind_raises (hmem (by decide)) fun _ =>
      bind_raises memRead_raises_mem fun _ => bind_raises (hmem (by decide)) fun _ => writeReg_raises_mem)
    simp only [bind_eq_ok, writeReg_eq_ok] at hu
    obtain ⟨-, -, -, -, -, -, bs, -, -, -, hv, rfl⟩ := hu
    exact .num r esz _ hv
  | str r esz =>
    refine commit_cases h (fun u hu => ?_) (bind_raises readReg_raises_mem fun _ =>
      bind_raises checkRadix_raises_mem fun _ => bind_raises (hmem (by decide)) fun _ =>
      bind_raises (hmem (by decide)) fun _ => bind_raises (hmem (by decide)) fun _ => pure_raises_mem)
    simp only [bind_eq_ok, checkBounds, check_eq_ok, pure_eq_ok] at hu
    obtain ⟨v, -, -, -, -, -, -, hb, -, -, hu⟩ := hu
    cases hu
    simp only [decide_eq_true_eq, inBounds] at hb
    exact .str r esz _ (by rw [symbolArrayBytes_length, digits_length]) hb
  | numb r =>
    refine commit_cases h (fun u hu => ?_) (bind_raises (hmem (by decide)) fun _ =>
      bind_raises (hmem (by decide)) fun _ => bind_raises memRead_raises_mem fun _ => writeReg_raises_mem)
    simp only [bind_eq_ok, writeReg_eq_ok] at hu
    obtain ⟨-, -, -, -, bs, -, hv, rfl⟩ := hu
    exact .numb r _ hv
  | bstr r =>
    refine commit_cases h (fun u hu => ?_) (bind_raises readReg_raises_mem fun _ =>
      bind_raises (hmem (by decide)) fun _ => bind_raises (hmem (by decide)) fun _ =>
      bind_raises (hmem (by decide)) fun _ => bind_raises (hmem (by decide)) fun _ => pure_raises_mem)
    simp only [bind_eq_ok, checkBounds, check_eq_ok, pure_eq_ok] at hu
    obtain ⟨v, -, -, -, -, hb, -, -, -, -, hu⟩ := hu
    cases hu
    simp only [decide_eq_true_eq, inBounds] at hb
    exact .bstr r _ (by rw [symbolArrayBytes_length, digits_length]; simp [elemWidth]) hb
  | add rd rs1 rs2 =>
    refine commit_cases h (fun u hu => ?_) binaryOp_raises_mem
    obtain ⟨a, b, -, -, hv, rfl⟩ := binaryOp_eq_ok.mp hu
    exact .add rd rs1 rs2 _ hv
  | sub rd rs1 rs2 =>
    refine commit_cases h (fun u hu => ?_) binaryOp_raises_mem
    obtain ⟨a, b, -, -, hv, rfl⟩ := binaryOp_eq_ok.mp hu
    exact .sub rd rs1 rs2 _ hv
  | mul rd rs1 rs2 =>
    refine commit_cases h (fun u hu => ?_) binaryOp_raises_mem
    obtain ⟨a, b, -, -, hv, rfl⟩ := binaryOp_eq_ok.mp hu
    exact .mul rd rs1 rs2 _ hv
  | mod rd rs1 rs2 =>
    refine commit_cases h (fun u hu => ?_) (bind_raises readReg_raises_mem fun _ =>
      bind_raises readReg_raises_mem fun _ => bind_raises (hmem (by decide)) fun _ => writeReg_raises_mem)
    simp only [bind_eq_ok, writeReg_eq_ok] at hu
    obtain ⟨a, -, m, -, -, -, hv, rfl⟩ := hu
    exact .mod rd rs1 rs2 _ hv
  | ldi rd imm =>
    refine commit_cases h (fun u hu => ?_) writeReg_raises_mem
    obtain ⟨hv, rfl⟩ := writeReg_eq_ok.mp hu
    exact .ldi rd imm _ hv

end Sys2Proof.Machine
end

