-- ==== Sys2Proof/Laws/PerInstr.lean ====
section
/-!
SUPPORT. Statements made per instruction. RowMatch: the word of a command matches the row of the opcode map that bears its
mnemonic (spec/30_encoding.md R111, R119).
-/

namespace Sys2Proof.Laws.RowMatch

/-- The command's word matches the row of its mnemonic. -/
def Statement (i : Instr) : Prop :=
  ∃ row ∈ opcodeTable, row.mnemonic = mnemonicOf i ∧ row.matchesWord (encode i) = true

theorem wordR_and_mask (op : Byte) (rd rs1 rs2 : Reg) :
    wordR op rd rs1 rs2 &&& 0xFFF000FF#32 = op.setWidth 32 := by
  apply BitVec.eq_of_getLsbD_eq
  intro i hi
  interval_cases i <;> simp [wordR, place]

theorem wordC_and_mask (op : Byte) (r : Reg) (esz : ElemSize) :
    wordC op r esz &&& 0xFFFEF0FF#32 = op.setWidth 32 := by
  apply BitVec.eq_of_getLsbD_eq
  intro i hi
  interval_cases i <;> simp [wordC, place]

theorem wordB_and_mask (op : Byte) (r : Reg) : wordB op r &&& 0xFFFFF0FF#32 = op.setWidth 32 := by
  apply BitVec.eq_of_getLsbD_eq
  intro i hi
  interval_cases i <;> simp [wordB, place]

theorem wordI_and_mask (op : Byte) (rd : Reg) (imm : BitVec 16) :
    wordI op rd imm &&& 0x0000F0FF#32 = op.setWidth 32 := by
  apply BitVec.eq_of_getLsbD_eq
  intro i hi
  interval_cases i <;> simp [wordI, place]

theorem nop : Statement .nop := ⟨⟨"NOP", 0x00000000#32, 0xFFFFFFFF#32⟩, by decide, rfl, by decide⟩

theorem keyld : Statement .keyld := ⟨⟨"KEYLD", 0x00000001#32, 0xFFFFFFFF#32⟩, by decide, rfl, by decide⟩

theorem keyclr : Statement .keyclr := ⟨⟨"KEYCLR", 0x00000002#32, 0xFFFFFFFF#32⟩, by decide, rfl, by decide⟩

theorem ciph : Statement .ciph := ⟨⟨"CIPH", 0x00000010#32, 0xFFFFFFFF#32⟩, by decide, rfl, by decide⟩

theorem prf : Statement .prf := ⟨⟨"PRF", 0x00000011#32, 0xFFFFFFFF#32⟩, by decide, rfl, by decide⟩

theorem num (r : Reg) (esz : ElemSize) : Statement (.num r esz) :=
  ⟨⟨"NUM", 0x00000020#32, 0xFFFEF0FF#32⟩, by decide, rfl, by
    simp only [OpcodeRow.matchesWord, encode, wordC_and_mask]; decide⟩

theorem str (r : Reg) (esz : ElemSize) : Statement (.str r esz) :=
  ⟨⟨"STR", 0x00000021#32, 0xFFFEF0FF#32⟩, by decide, rfl, by
    simp only [OpcodeRow.matchesWord, encode, wordC_and_mask]; decide⟩

theorem numb (r : Reg) : Statement (.numb r) :=
  ⟨⟨"NUMB", 0x00000022#32, 0xFFFFF0FF#32⟩, by decide, rfl, by
    simp only [OpcodeRow.matchesWord, encode, wordB_and_mask]; decide⟩

theorem bstr (r : Reg) : Statement (.bstr r) :=
  ⟨⟨"BSTR", 0x00000023#32, 0xFFFFF0FF#32⟩, by decide, rfl, by
    simp only [OpcodeRow.matchesWord, encode, wordB_and_mask]; decide⟩

theorem add (rd rs1 rs2 : Reg) : Statement (.add rd rs1 rs2) :=
  ⟨⟨"ADD", 0x00000030#32, 0xFFF000FF#32⟩, by decide, rfl, by
    simp only [OpcodeRow.matchesWord, encode, wordR_and_mask]; decide⟩

theorem sub (rd rs1 rs2 : Reg) : Statement (.sub rd rs1 rs2) :=
  ⟨⟨"SUB", 0x00000031#32, 0xFFF000FF#32⟩, by decide, rfl, by
    simp only [OpcodeRow.matchesWord, encode, wordR_and_mask]; decide⟩

theorem mul (rd rs1 rs2 : Reg) : Statement (.mul rd rs1 rs2) :=
  ⟨⟨"MUL", 0x00000032#32, 0xFFF000FF#32⟩, by decide, rfl, by
    simp only [OpcodeRow.matchesWord, encode, wordR_and_mask]; decide⟩

theorem mod (rd rs1 rs2 : Reg) : Statement (.mod rd rs1 rs2) :=
  ⟨⟨"MOD", 0x00000033#32, 0xFFF000FF#32⟩, by decide, rfl, by
    simp only [OpcodeRow.matchesWord, encode, wordR_and_mask]; decide⟩

theorem ldi (rd : Reg) (imm : BitVec 16) : Statement (.ldi rd imm) :=
  ⟨⟨"LDI", 0x00000040#32, 0x0000F0FF#32⟩, by decide, rfl, by
    simp only [OpcodeRow.matchesWord, encode, wordI_and_mask]; decide⟩

end Sys2Proof.Laws.RowMatch
end

