-- ==== Sys2Proof/Tests/Slice0.lean ====
section
/-!
SUPPORT. Tests. Every expected value is the spec's: the encodings of spec/30_encoding.md written out bit by bit, the examples of
the command rules, and the vectors of spec/95_test_vectors.md, named in each comment. After them, for every statement with
hypotheses, a witness that meets the hypotheses together.
-/

namespace Sys2Proof.Tests

open Sys2Proof Sys2Proof.Machine

-- One declaration at a time: the kernel evaluations below would otherwise all wait on one another at once.
set_option Elab.async false

/-! ## Helpers -/

/-- A field of the next state of an outcome, if there is one. -/
def after {α : Type} (o : Host.Outcome State Fault Refusal) (f : State → α) : Option α :=
  match o with
  | .next t => some (f t)
  | _ => none

/-- The fault of an outcome, if it is one. -/
def faultOf (o : Host.Outcome State Fault Refusal) : Option Fault :=
  match o with
  | .fault f => some f
  | _ => none

/-- The refusal of an outcome, if it is one. -/
def refusalOf (o : Host.Outcome State Fault Refusal) : Option Refusal :=
  match o with
  | .refused x => some x
  | _ => none

/-- Idle in CFG-A and in CFG-B. -/
def idleA : State := State.resetWith .cfgA
def idleB : State := State.resetWith .cfgB

/-- The operand registers set. -/
def withOps (src dst len radix : Nat) (s : State) : State :=
  { s with
    src := BitVec.ofNat 32 src, dst := BitVec.ofNat 32 dst
    len := BitVec.ofNat 32 len, radix := BitVec.ofNat 32 radix }

/-- A register made valid. -/
def withReg (r : Reg) (v : Int) (s : State) : State := { s with regs := s.regs.set r (some v) }

/-- Bytes written to the buffer. -/
def withBytes (a : Nat) (bs : List Nat) (s : State) : State :=
  { s with buf := s.buf.writeRange a (bs.map (BitVec.ofNat 8)) }

/-- A key of 16 bytes loaded. -/
def withKey (bs : List Nat) (s : State) : State :=
  { s with keyLen := .k16, key := Vector.ofFn fun i => BitVec.ofNat 8 (bs.getD i.val 0) }

/-- A command pending, the core to move. -/
def pendingCmd (w : Word) (s : State) : State := { s with cmd := w, pending := some w, turns := [.core] }

/-- One turn to come. -/
def withTurn (t : Turn) (s : State) : State := { s with turns := [t] }

/-- The start state of V1 to V14 (95, section 2.1). -/
def startV (s : State) : State :=
  withBytes 0 [0x05, 0x06, 0x07, 0x08, 0x09, 0x00, 0x00, 0x00, 0xff, 0xff, 0xff, 0xff, 0x00, 0x01, 0xff, 0xff,
    0x00, 0xff, 0x01, 0x00, 0xb9, 0x1b, 0x54, 0x6f, 0, 0, 0, 0, 0, 0, 0, 0] s

/-- The key of scenario 1 (95, section 2.3). -/
def key1 : List Nat :=
  [0x2b, 0x7e, 0x15, 0x16, 0x28, 0xae, 0xd2, 0xa6, 0xab, 0xf7, 0x15, 0x88, 0x09, 0xcf, 0x4f, 0x3c]

/-- Bytes `[a, a+n)` of the buffer as numbers. -/
def bytesAt (a n : Nat) (s : State) : Option (List Nat) := (s.buf.readRange a n).map (·.map BitVec.toNat)

theorem next_with {α : Type} {o : Host.Outcome State Fault Refusal} {f : State → α} {v : α}
    (h : after o f = some v) : ∃ t, o = .next t ∧ f t = v := by
  cases o <;> simp_all [after]

theorem next_exists {o : Host.Outcome State Fault Refusal} (h : after o (fun _ => ()) = some ()) :
    ∃ t, o = .next t := by
  obtain ⟨t, ht, -⟩ := next_with h
  exact ⟨t, ht⟩

/-! ## Decoding: words written out bit by bit (R113 to R119) -/

-- Format N: [31:8] reserved, [7:0] opcode.
theorem test_decode_nop : decode 0b000000000000000000000000_00000000#32 = some .nop := by decide
theorem test_decode_keyld : decode 0b000000000000000000000000_00000001#32 = some .keyld := by decide
theorem test_decode_keyclr : decode 0b000000000000000000000000_00000010#32 = some .keyclr := by decide
theorem test_decode_ciph : decode 0b000000000000000000000000_00010000#32 = some .ciph := by decide
theorem test_decode_prf : decode 0b000000000000000000000000_00010001#32 = some .prf := by decide
-- Format C: [31:17] reserved, [16] esz, [15:12] reserved, [11:8] r, [7:0] opcode.
theorem test_decode_num : decode 0b000000000000000_1_0000_1010_00100000#32 = some (.num 10 .half) := by decide
theorem test_decode_str : decode 0b000000000000000_0_0000_0101_00100001#32 = some (.str 5 .byte) := by decide
-- Format B: [31:12] reserved, [11:8] r, [7:0] opcode.
theorem test_decode_numb : decode 0b00000000000000000000_1111_00100010#32 = some (.numb 15) := by decide
theorem test_decode_bstr : decode 0b00000000000000000000_0111_00100011#32 = some (.bstr 7) := by decide
-- Format R: [31:20] reserved, [19:16] rs2, [15:12] rs1, [11:8] rd, [7:0] opcode.
theorem test_decode_add : decode 0b000000000000_0011_0010_0001_00110000#32 = some (.add 1 2 3) := by decide
theorem test_decode_sub : decode 0b000000000000_1100_0101_1001_00110001#32 = some (.sub 9 5 12) := by decide
theorem test_decode_mul : decode 0b000000000000_1111_0000_1000_00110010#32 = some (.mul 8 0 15) := by decide
theorem test_decode_mod : decode 0b000000000000_0001_1110_0000_00110011#32 = some (.mod 0 14 1) := by decide
-- Format I: [31:16] imm16, [15:12] reserved, [11:8] rd, [7:0] opcode.
theorem test_decode_ldi : decode 0b1000000000000001_0000_0110_01000000#32 = some (.ldi 6 0x8001#16) := by decide

-- R120: reserved opcodes, and reserved fields of each format, are rejected by name.
theorem test_reject_opcode : decodeNamed 0x00000003#32 = .error .reservedOpcode := by decide
theorem test_reject_fieldN : decodeNamed 0x00000110#32 = .error .reservedField := by decide
theorem test_reject_fieldC : decodeNamed 0x00001120#32 = .error .reservedField
    ∧ decodeNamed 0x00020120#32 = .error .reservedField := by decide
theorem test_reject_fieldB : decodeNamed 0x00010022#32 = .error .reservedField := by decide
theorem test_reject_fieldR : decodeNamed 0x00100030#32 = .error .reservedField := by decide
theorem test_reject_fieldI : decodeNamed 0x0000F040#32 = .error .reservedField := by decide

-- R122: ADD I4, I3, I2 is 0x00023430 and NUM.H I1 is 0x00010120.
theorem test_encode : encode (.add 4 3 2) = 0x00023430#32 ∧ encode (.num 1 .half) = 0x00010120#32
    ∧ encode (.ldi 10 10000#16) = 0x27100A40#32 := by decide
theorem test_asm : asm (.add 4 3 2) = "ADD I4, I3, I2" ∧ asm (.num 1 .half) = "NUM.H I1" := by decide +kernel

/-! ## Well-formedness: a term each check refuses (R7, R123) -/

theorem test_wf_cfgA : Config.cfgA.wf = true ∧ Config.cfgB.wf = true := by decide
theorem test_illformed_intBits : ({ Config.cfgB with intBits := 31 } : Config).wf = false := by decide
theorem test_illformed_intBits_register : ({ Config.cfgB with intBits := 4294967296 } : Config).wf = false := by decide
theorem test_illformed_maxLen_low : ({ Config.cfgB with maxLen := 15 } : Config).wf = false := by decide
theorem test_illformed_maxLen_high : ({ Config.cfgB with maxLen := 65 } : Config).wf = false := by decide
theorem test_illformed_bufBytes_multiple : ({ Config.cfgB with bufBytes := 72 } : Config).wf = false := by decide
theorem test_illformed_bufBytes_low : ({ Config.cfgB with bufBytes := 48 } : Config).wf = false := by decide
theorem test_illformed_bufBytes_high : ({ Config.cfgB with bufBytes := 65552 } : Config).wf = false := by decide
theorem test_illformed_modadd : pseudoWf (.modadd 3 1 2 3) = false := by decide
theorem test_illformed_modsub : pseudoWf (.modsub 3 1 2 3) = false := by decide
theorem test_illformed_ldw : pseudoWf (.ldw 4 4 0#32) = false := by decide

/-! ## Radix conversions (95, section 2.1) -/

-- V1.
theorem test_num_value :
    after (exec (.num 1 .byte) (withOps 0 0 5 10 (startV idleA))) (·.regs[1]) = some (some 56789) := by
  decide +kernel
-- V7 in CFG-B: ARITHMETIC_ERROR.
theorem test_num_overflow :
    after (exec (.num 1 .half) (withOps 8 0 2 65536 (startV idleB))) (fun t => (t.errcode, t.regs[1]))
      = some (4#3, none) := by decide +kernel
-- S1: the strict rejection.
theorem test_str_strict :
    after (exec (.str 5 .byte) (withOps 0 0x20 3 10 (withReg 5 1000 (startV idleB)))) (fun t => (t.err, t.errcode))
      = some (true, 2#3) := by decide +kernel
-- S3.
theorem test_str_half :
    after (exec (.str 5 .half) (withOps 0 0x20 4 10 (withReg 5 1000 (startV idleB)))) (bytesAt 0x20 8)
      = some (some [0, 1, 0, 0, 0, 0, 0, 0]) := by decide +kernel
-- V12 in CFG-A.
theorem test_numb_value :
    after (exec (.numb 2) (withOps 20 0 4 0 (startV idleA))) (·.regs[2]) = some (some 3105576047) := by
  decide +kernel
-- V14 in CFG-B: 17 > MAXLEN.
theorem test_numb_maxlen :
    after (exec (.numb 2) (withOps 0 0 17 0 (startV idleB))) (·.errcode) = some 2#3 := by decide +kernel
-- S4.
theorem test_bstr_value :
    after (exec (.bstr 5) (withOps 0 0x20 2 10 (withReg 5 1000 (startV idleB)))) (bytesAt 0x20 2)
      = some (some [0x03, 0xe8]) := by decide +kernel
-- B7 and B8 in CFG-B: an empty range at BUF_BYTES, and one past it.
theorem test_bstr_empty :
    after (exec (.bstr 6) (withOps 0 64 0 10 (withReg 6 0 (startV idleB)))) (·.errcode) = some 0#3
      ∧ after (exec (.bstr 6) (withOps 0 65 0 10 (withReg 6 0 (startV idleB)))) (·.errcode) = some 2#3 := by
  decide +kernel

/-! ## Integer commands (95, section 2.2) -/

-- A19.
theorem test_add_value :
    after (exec (.add 4 3 2) (withReg 3 1234 (withReg 2 14103068008476060536 idleA))) (·.regs[4])
      = some (some 14103068008476061770) := by decide +kernel
-- A5: 2^30 + 2^30 in CFG-B.
theorem test_add_overflow :
    after (exec (.add 5 4 4) (withReg 4 1073741824 idleB)) (fun t => (t.errcode, t.regs[5]))
      = some (4#3, none) := by decide +kernel
-- A9: the destination is a source, and the result the lowest value.
theorem test_sub_lowest :
    after (exec (.sub 6 6 4) (withReg 6 (-1073741824) (withReg 4 1073741824 idleB))) (·.regs[6])
      = some (some (-2147483648)) := by decide +kernel
-- A10.
theorem test_sub_overflow :
    after (exec (.sub 7 6 1) (withReg 6 (-2147483648) (withReg 1 65535 idleB))) (·.errcode) = some 4#3 := by
  decide +kernel
-- A4, and R174: 46341 squared does not fit in CFG-B.
theorem test_mul_value :
    after (exec (.mul 4 3 3) (withReg 3 32768 idleB)) (·.regs[4]) = some (some 1073741824) := by decide +kernel
theorem test_mul_overflow :
    after (exec (.mul 4 3 3) (withReg 3 46341 idleB)) (·.errcode) = some 4#3 := by decide +kernel
-- A13 and A15.
theorem test_mod_negative :
    after (exec (.mod 7 6 8) (withReg 6 (-2147483648) (withReg 8 7 idleB))) (·.regs[7]) = some (some 5) := by
  decide +kernel
theorem test_mod_nonpositive :
    after (exec (.mod 9 5 8) (withReg 5 1000 (withReg 8 (-1) idleB))) (·.errcode) = some 4#3 := by decide +kernel
-- A1: zero-extended.
theorem test_ldi_zero_extends :
    after (exec (.ldi 1 0xFFFF#16) idleB) (·.regs[1]) = some (some 65535) := by decide +kernel
-- LDW I1, I2, 0x0001E240 (95, section 2.2).
theorem test_ldw :
    after (execAll (expandPseudo (.ldw 1 2 0x0001E240#32)) idleA) (fun t => (t.regs[1], t.regs[2]))
      = some (some 123456, some 57920) := by decide +kernel

/-! ## Cipher and key (95, sections 2.3 and 2.4) -/

-- H1.
theorem test_ciph_value :
    after (exec .ciph (withOps 0x10 0x30 16 0 (withBytes 0x10 (List.replicate 16 0) (withKey key1 idleA))))
        (bytesAt 0x30 16)
      = some (some [0x7d, 0xf7, 0x6b, 0x0c, 0x1a, 0xb8, 0x99, 0xb3, 0x3e, 0x42, 0xf0, 0x47, 0xb9, 0x1b, 0x54, 0x6f]) := by
  decide +kernel
-- H13.
theorem test_ciph_length :
    after (exec .ciph (withOps 0 0 24 0 (withKey key1 idleA))) (·.errcode) = some 2#3 := by decide +kernel
-- H6: in place; only the 16 bytes of the result are written.
theorem test_prf_value :
    after (exec .prf (withOps 0x40 0x40 32 0 (withBytes 0x40 (List.range 32) (withKey key1 idleA))))
        (bytesAt 0x40 18)
      = some (some [0x35, 0x9e, 0x6e, 0x35, 0x15, 0xb4, 0xf1, 0x01, 0x12, 0x30, 0x6f, 0x7a, 0xef, 0x73, 0x9f, 0x45,
          0x10, 0x11]) := by
  decide +kernel
-- H20.
theorem test_prf_no_key : after (exec .prf idleA) (·.errcode) = some 1#3 := by decide +kernel
-- H10 and H11: the 24- and 32-byte keys of FIPS-197 on 00112233445566778899aabbccddeeff.
theorem test_aes192 :
    ((encryptBlock ((List.range 24).map (BitVec.ofNat 8))
      (Block.ofBytes ((List.range 16).map fun i => BitVec.ofNat 8 (17 * i)))).bytes.map BitVec.toNat)
      = [0xdd, 0xa9, 0x7c, 0xa4, 0x86, 0x4c, 0xdf, 0xe0, 0x6e, 0xaf, 0x70, 0xa0, 0xec, 0x0d, 0x71, 0x91] := by
  decide +kernel
theorem test_aes256 :
    ((encryptBlock ((List.range 32).map (BitVec.ofNat 8))
      (Block.ofBytes ((List.range 16).map fun i => BitVec.ofNat 8 (17 * i)))).bytes.map BitVec.toNat)
      = [0x8e, 0xa2, 0xb7, 0xca, 0x51, 0x67, 0x45, 0xbf, 0xea, 0xfc, 0x49, 0x90, 0x4b, 0x49, 0x60, 0x89] := by
  decide +kernel
-- K3.
theorem test_keyld_value :
    after (exec .keyld (withOps 0 0 16 0 (withBytes 0 key1 idleB)))
        (fun t => (t.statusWord, t.keyLenWord, (t.key.toList.take 16).map BitVec.toNat))
      = some (4#32, 16#32, key1) := by decide +kernel
-- K1.
theorem test_keyld_length :
    after (exec .keyld (withOps 0 0 20 0 idleB)) (fun t => (t.statusWord, t.errcodeWord)) = some (2#32, 3#32) := by
  decide +kernel
-- K5.
theorem test_keyclr :
    after (exec .keyclr (withKey key1 idleB)) (fun t => (t.statusWord, t.keyLenWord)) = some (0#32, 0#32) := by
  decide +kernel
-- K7, after a failed command.
theorem test_nop :
    after (exec .nop { idleB with err := true, errcode := 3#3 }) (fun t => (t.err, t.errcode)) = some (false, 0#3) := by
  decide +kernel

/-! ## Steps and the host interface (95, section 2.5) -/

-- X7: an illegal word raises ILLEGAL_COMMAND.
theorem test_illegal : after (step (pendingCmd 0x000000FF#32 idleB)) (fun t => (t.statusWord, t.errcodeWord, t.pending))
    = some (2#32, 6#32, none) := by decide +kernel
-- V11 in CFG-A: the fault is recorded, the block stays busy, and the core has no further step (R110).
theorem test_uninit :
    after (step (pendingCmd 0x00000120#32 (withOps 60 0 5 10 (startV idleA)))) (fun t => (t.faults, t.busy))
      = some ([.uninitRead 60 5], true) := by decide +kernel
-- M1: ID and CAP_BUFBYTES of CFG-B.
theorem test_read_id : after (step (withTurn (.hostRead 0x000#17) idleB)) (·.replies) = some [0x46504531#32]
    ∧ after (step (withTurn (.hostRead 0x00C#17) idleB)) (·.replies) = some [0x00000040#32] := by decide +kernel
-- M8: STATUS reads BUSY after a CMD write.
theorem test_cmd_write :
    after (step (withTurn (.hostWrite 0x01C#17 0#32) idleB)) (fun t => (t.statusWord, t.errcodeWord))
      = some (1#32, 0#32) := by decide +kernel
-- M9.
theorem test_busy_write :
    after (step (withTurn (.hostWrite 0x020#17 1#32) (pendingCmd 0#32 idleB))) (fun t => (t.faults, t.src))
      = some ([.hostProtocol 0x020], 0#32) := by decide +kernel
-- M6 and M7.
theorem test_window_unwritten :
    after (step (withTurn (.hostRead 0x10000#17) idleB)) (·.faults) = some [.uninitRead 0 4] := by decide +kernel
theorem test_window_write :
    after (step (withTurn (.hostWrite 0x10000#17 0x11223344#32) idleB)) (bytesAt 0 4)
      = some (some [0x11, 0x22, 0x33, 0x44]) := by decide +kernel
theorem test_window_read :
    after (step (withTurn (.hostRead 0x10000#17) (withBytes 0 [0x11, 0x22, 0x33, 0x44] idleB))) (·.replies)
      = some [0x11223344#32] := by decide +kernel
-- M12 and M13.
theorem test_soft_reset :
    after (step (withTurn (.hostWrite 0x010#17 1#32) (pendingCmd 0#32 (withKey key1 (withReg 3 7 (startV idleB))))))
        (fun t => (t.statusWord, t.cmd, t.regs[3], t.buf.length))
      = some (0#32, 0#32, none, 0) := by decide +kernel
-- M16.
theorem test_refused_access :
    refusalOf (step (withTurn (.hostOther 8 0x000#17) idleB)) = some (.hostAccessForm 8 0)
      ∧ refusalOf (step (withTurn (.hostRead 0x002#17) idleB)) = some (.hostAccessForm 32 2) := by decide +kernel
-- Placing a word makes the next step run it: LDI I1, 0xFFFF from reset.
theorem test_withFetchWord :
    after (step (State.reset.withFetchWord 32 0xFFFF0140)) (·.regs[1]) = some (some 65535)
      ∧ decodeTableWord 32 0xFFFF0140 = some (.ldi 1 0xFFFF#16) := by decide +kernel

/-! ## Witnesses: for every statement with hypotheses, a state and operands that meet them together -/

theorem witness_DecodeThenEncode : decode 0x00023430#32 = some (.add 4 3 2) := by decide

theorem witness_DecodeIsTheMatchingRow :
    (∃ row ∈ opcodeTable, row.mnemonic = "ADD" ∧ row.matchesWord 0x00023430#32 = true) ∧
    CoreToMove (pendingCmd 0x00010022#32 idleB) ∧
    (pendingCmd 0x00010022#32 idleB).pending = some 0x00010022#32 ∧
    (∀ row ∈ opcodeTable, row.matchesWord 0x00010022#32 = false) := by
  refine ⟨⟨⟨"ADD", 0x00000030#32, 0xFFF000FF#32⟩, by decide, rfl, by decide⟩, ⟨rfl, .inr rfl⟩, rfl, by decide⟩

theorem witness_StepRunsTheDecodedCommand :
    (CoreToMove (pendingCmd 0xFFFF0140#32 idleB) ∧
      (pendingCmd 0xFFFF0140#32 idleB).pending = some 0xFFFF0140#32 ∧
      decode 0xFFFF0140#32 = some (.ldi 1 0xFFFF#16) ∧
      ∃ t, exec (.ldi 1 0xFFFF#16) (pendingCmd 0xFFFF0140#32 idleB).afterTurn = .next t) ∧
    (CoreToMove (pendingCmd 0x00000222#32 (withOps 0 0 1 0 idleB)) ∧
      decode 0x00000222#32 = some (.numb 2) ∧
      exec (.numb 2) (pendingCmd 0x00000222#32 (withOps 0 0 1 0 idleB)).afterTurn = .fault (.uninitRead 0 1)) :=
  ⟨⟨⟨rfl, .inr rfl⟩, rfl, by decide, next_exists (by decide +kernel)⟩, ⟨rfl, .inr rfl⟩, by decide, rfl⟩

theorem witness_IdleKeepsEverything : CoreToMove idleA ∧ idleA.pending = none := ⟨⟨rfl, .inl rfl⟩, rfl⟩

/-- The states of the four clauses: the core stopped on a fault, and each turn to come. -/
theorem witness_NoStepAfterAFault :
    (idleB.faulted (.uninitRead 0 1)).stopped = some (.uninitRead 0 1) ∧
    (idleB.faulted (.uninitRead 0 1)).turns = [] ∧
    (∀ t : Turn, (withTurn t (idleB.faulted (.uninitRead 0 1))).stopped = some (.uninitRead 0 1) ∧
      (withTurn t (idleB.faulted (.uninitRead 0 1))).turns = t :: []) ∧
    (0x000#17).toNat % 4 = 0 ∧ ¬(0x010#17 = 0x010#17 ∧ (0#32).getLsbD 0 = true) := by
  refine ⟨rfl, rfl, fun t => ⟨rfl, rfl⟩, by decide, by decide⟩

theorem witness_NopCompletes :
    CoreToMove (pendingCmd 0x80000000#32 idleB) ∧ opcodeField 0x80000000#32 = 0x00#8 ∧ 0x80000000#32 ≠ 0x00000000#32 :=
  ⟨⟨rfl, .inr rfl⟩, by decide, by decide⟩

theorem witness_KeyclrForgetsTheKey :
    idleB.keyLen = .empty ∧
    ∃ t, exec .keyld (withOps 0 0 16 0 (withBytes 0 key1 idleB)) = .next t ∧ t.keyLen = .k16 :=
  ⟨rfl, next_with (by decide +kernel)⟩

/-- The three lengths, a range that ends at BUF_BYTES and one that ends past it, and an unwritten byte. -/
theorem witness_KeyldLoadsTheKey :
    (∀ n, n = 16 ∨ n = 24 ∨ n = 32 →
      LegalKey (List.replicate n 0#8) ∧ (withOps (64 - n) 0 n 0 idleB).len.toNat = n ∧
      (withOps (64 - n) 0 n 0 idleB).src.toNat + n ≤ idleB.cfg.bufBytes ∧
      BytesAt (withBytes (64 - n) (List.replicate n 0) idleB).buf (64 - n) (List.replicate n 0#8)) ∧
    (withOps 0 0 20 0 idleB).len.toNat ≠ 16 ∧ (withOps 0 0 20 0 idleB).len.toNat ≠ 24 ∧
    (withOps 0 0 20 0 idleB).len.toNat ≠ 32 ∧
    idleB.cfg.bufBytes < (withOps 49 0 16 0 idleB).src.toNat + (withOps 49 0 16 0 idleB).len.toNat ∧
    Unwritten idleB.buf 48 16 := by
  refine ⟨?_, by decide, by decide, by decide, by decide, 15, by decide, by decide⟩
  rintro n (rfl | rfl | rfl) <;> refine ⟨by unfold LegalKey; decide, by decide, by decide, ?_⟩ <;>
    (unfold BytesAt; decide +kernel)

/-- Sources of an integer command: in range at both ends, out of range by one at both ends, and invalid. -/
theorem witness_AddIsExact :
    ((withReg 1 2147483647 (withReg 2 0 idleB)).regs[(1 : Reg)] = some 2147483647 ∧
      Fits Config.cfgB (2147483647 + 0) ∧ Fits Config.cfgB (-2147483647 + -1)) ∧
    ¬Fits Config.cfgB (2147483647 + 1) ∧ ¬Fits Config.cfgB (-2147483648 + -1) ∧ idleB.regs[(0 : Reg)] = none := by
  unfold Fits; decide +kernel

theorem witness_SubIsExact :
    (withReg 1 (-2147483648) idleB).regs[(1 : Reg)] = some (-2147483648) ∧ Fits Config.cfgB (-2147483648 - 0) ∧
    Fits Config.cfgB (0 - 1) ∧ ¬Fits Config.cfgB (-2147483648 - 1) ∧ ¬Fits Config.cfgB (2147483647 - -1) ∧
    idleB.regs[(0 : Reg)] = none := by
  unfold Fits; decide +kernel

-- R174: 46340 squared fits in CFG-B and 46341 squared does not.
theorem witness_MulIsExact :
    (withReg 1 46341 idleB).regs[(1 : Reg)] = some 46341 ∧ Fits Config.cfgB (46340 * 46340) ∧
    ¬Fits Config.cfgB (46341 * 46341) ∧ idleB.regs[(0 : Reg)] = none := by
  unfold Fits; decide +kernel

/-- Also the witness of ModLaw. -/
theorem witness_ModIsTheEuclideanRemainder :
    (RegsInRange (withReg 6 (-2147483648) (withReg 8 1 idleB)) ∧
      (withReg 6 (-2147483648) (withReg 8 1 idleB)).regs[(6 : Reg)] = some (-2147483648) ∧
      (withReg 6 (-2147483648) (withReg 8 1 idleB)).regs[(8 : Reg)] = some 1 ∧ (0 : Int) < 1) ∧
    ((withReg 5 7 (withReg 8 0 idleB)).regs[(8 : Reg)] = some 0 ∧ (0 : Int) ≤ 0) ∧
    idleB.regs[(0 : Reg)] = none := by
  refine ⟨⟨?_, by decide +kernel⟩, by decide +kernel, by decide +kernel⟩
  intro r v
  fin_cases r <;> (simp [withReg, idleB, State.resetWith]; try (rintro rfl; decide +kernel))

theorem witness_LdiLoadsTheImmediate :
    opcodeField 0x00001040#32 = 0x40#8 ∧ (0x00001040#32).extractLsb' 12 4 ≠ 0#4 ∧ idleB.cfg.wf = true ∧
    CoreToMove (pendingCmd 0x00001040#32 idleB) ∧
    (pendingCmd 0x00001040#32 idleB).pending = some 0x00001040#32 :=
  ⟨by decide, by decide, by decide, ⟨rfl, .inr rfl⟩, rfl⟩

/-- `2M` at the bound `2^(INT_BITS−1)`, the operands at the ends of `[0, M)`. -/
theorem witness_ModularAddAndSubtract :
    (4 : Reg) ≠ 3 ∧
    (withReg 1 1073741823 (withReg 2 0 (withReg 3 1073741824 idleB))).regs[(1 : Reg)] = some 1073741823 ∧
    (withReg 1 1073741823 (withReg 2 0 (withReg 3 1073741824 idleB))).regs[(2 : Reg)] = some 0 ∧
    (withReg 1 1073741823 (withReg 2 0 (withReg 3 1073741824 idleB))).regs[(3 : Reg)] = some 1073741824 ∧
    (0 : Int) ≤ 1073741823 ∧ (1073741823 : Int) < 1073741824 ∧ (0 : Int) < 1073741824 ∧
    (2 : Int) * 1073741824 ≤ 2 ^ (Config.cfgB.intBits - 1) := by decide +kernel

theorem witness_PseudoInstructionsDoWhatTheySay :
    idleB.cfg.wf = true ∧ (3 : Reg) ≠ 5 ∧ (withReg 5 11456 idleB).regs[(5 : Reg)] = some 11456 ∧
    Fits Config.cfgB 11456 ∧ pseudoWf (.ldw 1 2 0x7FFFFFFF#32) = true ∧
    Fits Config.cfgB (0x7FFFFFFF#32).toNat := by
  unfold Fits; decide +kernel

/-- NUM.B and NUM.H on V1's and V8's arrays, which end inside the buffer; V8's radix is the largest. -/
theorem witness_NumConverts :
    (ConversionOk .byte 0 (withOps 0 0 5 10 (startV idleB)) ∧
      (∀ i, i < 5 → SymbolAt (startV idleB).buf .byte 0 i (5 + i) ∧ 5 + i < 10) ∧
      Fits Config.cfgB (∑ i ∈ Finset.range 5, (5 + i) * 10 ^ (5 - 1 - i) : Nat)) ∧
    (ConversionOk .half 12 (withOps 12 0 2 65536 (startV idleB)) ∧
      (∀ i, i < 2 → SymbolAt (startV idleB).buf .half 12 i (if i = 0 then 1 else 65535) ∧
        (if i = 0 then 1 else 65535) < 65536) ∧
      Fits Config.cfgB (∑ i ∈ Finset.range 2, (if i = 0 then 1 else 65535) * 65536 ^ (2 - 1 - i) : Nat)) := by
  refine ⟨⟨by unfold ConversionOk; decide, ?_, ?_⟩, by unfold ConversionOk; decide, ?_, ?_⟩
  · intro i hi
    interval_cases i
    · exact ⟨⟨5#8, rfl, rfl⟩, by decide⟩
    · exact ⟨⟨6#8, rfl, rfl⟩, by decide⟩
    · exact ⟨⟨7#8, rfl, rfl⟩, by decide⟩
    · exact ⟨⟨8#8, rfl, rfl⟩, by decide⟩
    · exact ⟨⟨9#8, rfl, rfl⟩, by decide⟩
  · unfold Fits; decide +kernel
  · intro i hi
    interval_cases i
    · exact ⟨⟨0#8, 1#8, rfl, rfl, rfl⟩, by decide⟩
    · exact ⟨⟨0xff#8, 0xff#8, rfl, rfl, rfl⟩, by decide⟩
  · unfold Fits; decide +kernel

/-- V4 (a bad radix for the element size), B13 (an unwritten byte), V3 (a symbol that equals the radix) and V7 in CFG-B. -/
theorem witness_NumErrors :
    ¬ConversionOk .byte 0 (withOps 0 0 1 257 (startV idleB)) ∧
    (ConversionOk .half 0x2a (withOps 0x2a 0 2 65536 (startV idleB)) ∧ Unwritten (startV idleB).buf 0x2a (2 * 2)) ∧
    (ConversionOk .byte 4 (withOps 4 0 1 9 (startV idleB)) ∧ SymbolAt (startV idleB).buf .byte 4 0 9 ∧ 9 ≤ 9) ∧
    (ConversionOk .half 8 (withOps 8 0 2 65536 (startV idleB)) ∧
      (∀ i, i < 2 → SymbolAt (startV idleB).buf .half 8 i 65535 ∧ 65535 < 65536) ∧
      ¬Fits Config.cfgB (∑ i ∈ Finset.range 2, 65535 * 65536 ^ (2 - 1 - i) : Nat)) := by
  refine ⟨by unfold ConversionOk; decide, ⟨by unfold ConversionOk; decide, 0, by decide, by decide +kernel⟩,
    ⟨by unfold ConversionOk; decide, ⟨9#8, rfl, rfl⟩, le_rfl⟩, by unfold ConversionOk; decide, ?_, ?_⟩
  · intro i hi
    interval_cases i <;> exact ⟨⟨0xff#8, 0xff#8, rfl, rfl, rfl⟩, by decide⟩
  · unfold Fits; decide +kernel

/-- The largest value of 4 decimal symbols, at an array that ends at BUF_BYTES. -/
theorem witness_StrConverts :
    ConversionOk .half 56 (withOps 0 56 4 10 (withReg 5 9999 idleB)) ∧
    (withReg 5 9999 idleB).regs[(5 : Reg)] = some ((9999 : Nat) : Int) ∧ 9999 < 10 ^ 4 := by
  unfold ConversionOk; decide +kernel

/-- An invalid register (S6); a bad radix; a negative value; S1's value `RADIX^LEN`. -/
theorem witness_StrErrors :
    idleB.regs[(6 : Reg)] = none ∧ (withReg 5 1000 idleB).regs[(5 : Reg)] = some 1000 ∧
    ¬ConversionOk .byte 0x20 (withOps 0 0x20 3 1 (withReg 5 1000 idleB)) ∧ (-1 : Int) < 0 ∧
    ((10 ^ 3 : Nat) : Int) ≤ 1000 := by
  unfold ConversionOk; decide +kernel

/-- One byte, at the end of the written bytes and of MAXLEN. -/
theorem witness_NumbConverts :
    (withOps 31 0 1 0 (startV idleB)).len.toNat = [0#8].length ∧ 1 ≤ [0#8].length ∧
    [0#8].length ≤ idleB.cfg.maxLen ∧ 31 + [0#8].length ≤ idleB.cfg.bufBytes ∧
    BytesAt (startV idleB).buf 31 [0#8] ∧
    Fits Config.cfgB (∑ i : Fin [0#8].length, [0#8][i].toNat * 256 ^ ([0#8].length - 1 - i.val) : Nat) := by
  unfold BytesAt Fits; decide +kernel

/-- LEN 0 at BUF_BYTES (B7), and the largest value of 2 bytes at the end of the buffer. -/
theorem witness_BstrConverts :
    ((withOps 0 64 0 0 (withReg 6 0 idleB)).len.toNat ≤ idleB.cfg.maxLen ∧ 64 + 0 ≤ idleB.cfg.bufBytes ∧
      (withReg 6 0 idleB).regs[(6 : Reg)] = some ((0 : Nat) : Int) ∧ 0 < 256 ^ 0) ∧
    (62 + 2 ≤ idleB.cfg.bufBytes ∧ (withReg 6 65535 idleB).regs[(6 : Reg)] = some ((65535 : Nat) : Int) ∧
      65535 < 256 ^ 2) := by decide +kernel

/-- V13, V14 in CFG-B and a range past the end; an unwritten byte; V12 in CFG-B; an invalid register; B9. -/
theorem witness_ByteConversionErrors :
    (withOps 0 0 0 0 idleB).len.toNat = 0 ∧ idleB.cfg.maxLen < (withOps 0 0 17 0 idleB).len.toNat ∧
    idleB.cfg.bufBytes < (withOps 64 0 1 0 idleB).src.toNat + (withOps 64 0 1 0 idleB).len.toNat ∧
    Unwritten (startV idleB).buf 32 1 ∧
    (BytesAt (startV idleB).buf 20 [0xb9#8, 0x1b#8, 0x54#8, 0x6f#8] ∧
      ¬Fits Config.cfgB (∑ i : Fin [0xb9#8, 0x1b#8, 0x54#8, 0x6f#8].length,
        [0xb9#8, 0x1b#8, 0x54#8, 0x6f#8][i].toNat * 256 ^ (4 - 1 - i.val) : Nat)) ∧
    idleB.regs[(6 : Reg)] = none ∧
    ((withReg 7 1 idleB).regs[(7 : Reg)] = some 1 ∧ ((256 ^ 0 : Nat) : Int) ≤ 1 ∧ (-1 : Int) < 0) := by
  refine ⟨by decide, by decide, by decide, ⟨0, by decide, by decide +kernel⟩, ?_, by decide +kernel⟩
  unfold BytesAt Fits; decide +kernel

/-- V1 read back by STR, and S2 read back by NUM. -/
theorem witness_NumStrRoundTrips :
    (∃ t, exec (.num 1 .byte) (withOps 0 0x20 5 10 (startV idleB)) = .next t ∧
      (t.err, decide (t.dst.toNat + elemWidth .byte * t.len.toNat ≤ t.cfg.bufBytes)) = (false, true)) ∧
    (RegsInRange (withOps 0 0x20 4 10 (withReg 5 1000 idleB)) ∧
      ∃ t, exec (.str 5 .byte) (withOps 0 0x20 4 10 (withReg 5 1000 idleB)) = .next t ∧ t.err = false) := by
  refine ⟨next_with (by decide +kernel), ?_, next_with (f := State.err) (by decide +kernel)⟩
  intro r v
  fin_cases r <;> (simp [withOps, withReg, idleB, State.resetWith]; try (rintro rfl; decide +kernel))

theorem witness_NumbBstrRoundTrips :
    (∃ t, exec (.numb 1) (withOps 0 0x20 2 0 (startV idleB)) = .next t ∧
      (t.err, decide (t.dst.toNat + t.len.toNat ≤ t.cfg.bufBytes)) = (false, true)) ∧
    (RegsInRange (withOps 0 0x20 2 0 (withReg 5 1000 idleB)) ∧
      1 ≤ (withOps 0 0x20 2 0 (withReg 5 1000 idleB)).len.toNat ∧
      ∃ t, exec (.bstr 5) (withOps 0 0x20 2 0 (withReg 5 1000 idleB)) = .next t ∧ t.err = false) := by
  refine ⟨next_with (by decide +kernel), ?_, by decide, next_with (f := State.err) (by decide +kernel)⟩
  intro r v
  fin_cases r <;> (simp [withOps, withReg, idleB, State.resetWith]; try (rintro rfl; decide +kernel))

/-- CIPH's ranges end at BUF_BYTES and LEN is MAXLEN (CFG-B). -/
theorem witness_CiphEnciphersEachBlock :
    (withKey key1 idleB).keyLen ≠ .empty ∧ CipherOk 16 (withOps 48 48 16 0 (withKey key1 idleB)) ∧
    (List.replicate 16 0#8).length = 16 ∧
    BytesAt (withBytes 48 (List.replicate 16 0) idleB).buf 48 (List.replicate 16 0#8) := by
  unfold CipherOk BytesAt; decide +kernel

theorem witness_PrfIsTheCbcMac (key : List Byte) (x : List Byte) :
    CipherOk 16 (withOps 0 48 16 0 (withKey key1 idleB)) ∧
    ∃ y : Nat → Block, y 0 = Block.zero ∧
      ∀ j, j < 16 / 16 → y (j + 1) = encryptBlock key ((y j).xor (blockAt x j)) :=
  ⟨by unfold CipherOk; decide, fun n => n.rec Block.zero fun j b => encryptBlock key (b.xor (blockAt x j)), rfl,
    fun _ _ => rfl⟩

/-- H20; H12 and H19; an unwritten byte. -/
theorem witness_CipherErrors :
    idleB.keyLen = .empty ∧ ¬CipherOk 0 (withOps 0 0 0 0 (withKey key1 idleB)) ∧
    ¬CipherOk 16 (withOps 16 56 16 0 (withKey key1 idleB)) ∧
    (CipherOk 16 (withOps 48 0 16 0 (withKey key1 idleB)) ∧ Unwritten (withKey key1 idleB).buf 48 16) := by
  refine ⟨rfl, by unfold CipherOk; decide, by unfold CipherOk; decide, by unfold CipherOk; decide, 15, by decide, rfl⟩

theorem witness_RoundTransformations : (List.replicate 16 0x53#8).length = 16 := by decide

/-- Also the witness of CipherIsAPermutation. -/
theorem witness_KeyExpansionRecurrence :
    LegalKey (List.replicate 16 0#8) ∧ LegalKey (List.replicate 24 0#8) ∧ LegalKey (List.replicate 32 0#8) := by
  unfold LegalKey; decide

theorem witness_CipherRoundSequence (x : Block) :
    LegalKey (List.replicate 16 0#8) ∧ ∃ st : Nat → Block, st 0 = addRoundKey (expandKey (List.replicate 16 0#8)) 0 x ∧
      ∀ rnd, 1 ≤ rnd → rnd < 16 / 4 + 6 →
        st rnd = addRoundKey (expandKey (List.replicate 16 0#8)) rnd
          (mixColumns (shiftRows (subBytes (st (rnd - 1))))) := by
  refine ⟨by unfold LegalKey; decide, fun n => n.rec (addRoundKey (expandKey (List.replicate 16 0#8)) 0 x) fun j b =>
    addRoundKey (expandKey (List.replicate 16 0#8)) (j + 1) (mixColumns (shiftRows (subBytes b))), rfl, ?_⟩
  intro rnd h _
  obtain ⟨n, rfl⟩ := Nat.exists_eq_add_of_le' h
  rfl

theorem witness_CiphBlockByBlock :
    (withOps 0 0 32 0 (withBytes 0 (List.replicate 32 0) (withKey key1 idleA))).cfg.wf = true ∧
    (withOps 0 0 32 0 idleA).len.toNat = 16 * 2 ∧
    (∃ u, exec .ciph (withOps 0 0 32 0 (withBytes 0 (List.replicate 32 0) (withKey key1 idleA))) = .next u ∧
      u.err = false) ∧
    (∀ j l, j < 2 → l < 2 → j ≠ l → 0 + 16 * j + 16 ≤ 0 + 16 * l ∨ 0 + 16 * l + 16 ≤ 0 + 16 * j) :=
  ⟨by decide, by decide, next_with (f := State.err) (by decide +kernel), by omega⟩

theorem witness_PrfChaining :
    (List.replicate 32 1#8).length = 16 * 2 ∧ (List.replicate 16 2#8).length = 16 ∧ ([] : List Byte).length = 16 * 0 := by
  decide

theorem witness_CbcWithIvFromPrf (key q0 q' : List Byte) (p : Block) (k : Nat) :
    ∃ y : Nat → Block, y 0 = p ∧
      ∀ j, j < k + 1 → y (j + 1) = encryptBlock key ((y j).xor (blockAt (q0 ++ q') j)) :=
  ⟨fun n => n.rec p fun j b => encryptBlock key (b.xor (blockAt (q0 ++ q') j)), rfl, fun _ _ => rfl⟩

/-- Each command named in RegisterCommandsFrame answers a next state. -/
theorem witness_RegisterCommandsFrame :
    (∃ t, exec (.add 3 1 2) idleB = .next t) ∧ (∃ t, exec (.sub 3 1 2) idleB = .next t) ∧
    (∃ t, exec (.mul 3 1 2) idleB = .next t) ∧ (∃ t, exec (.mod 3 1 2) idleB = .next t) ∧
    (∃ t, exec (.ldi 3 0#16) idleB = .next t) ∧
    (∃ t, exec (.num 3 .byte) (withOps 0 0 5 10 (startV idleB)) = .next t ∧ t.err = false) ∧
    (∃ t, exec (.numb 3) (withOps 0 0 2 0 (startV idleB)) = .next t ∧ t.err = false) :=
  ⟨next_exists (by decide +kernel), next_exists (by decide +kernel), next_exists (by decide +kernel),
    next_exists (by decide +kernel), next_exists (by decide +kernel),
    next_with (f := State.err) (by decide +kernel),
    next_with (f := State.err) (by decide +kernel)⟩

/-- Each command named in BufferCommandsFrame answers a next state. -/
theorem witness_BufferCommandsFrame :
    (∃ t, exec (.str 5 .half) (withOps 0 0 4 10 (withReg 5 1000 idleB)) = .next t ∧ t.err = false) ∧
    (∃ t, exec (.bstr 5) (withOps 0 0 2 0 (withReg 5 1000 idleB)) = .next t ∧ t.err = false) ∧
    (∃ t, exec .ciph (withOps 0 0 16 0 (withBytes 0 key1 (withKey key1 idleB))) = .next t ∧ t.err = false) ∧
    (∃ t, exec .prf (withOps 0 0 16 0 (withBytes 0 key1 (withKey key1 idleB))) = .next t ∧ t.err = false) :=
  ⟨next_with (f := State.err) (by decide +kernel),
    next_with (f := State.err) (by decide +kernel),
    next_with (f := State.err) (by decide +kernel),
    next_with (f := State.err) (by decide +kernel)⟩

theorem witness_KeyAndControlFrame :
    (∃ t, exec .nop idleB = .next t) ∧ (∃ t, exec .keyclr idleB = .next t) ∧
    (∃ t, exec .keyld (withOps 0 0 16 0 (withBytes 0 key1 idleB)) = .next t ∧ t.err = false) :=
  ⟨next_exists (by decide +kernel), next_exists (by decide +kernel), next_with (f := State.err) (by decide +kernel)⟩

/-- An ADD with invalid sources; also the witness of EveryCommandCompletesOrFaults. -/
theorem witness_ErrorsArePrecise :
    CoreToMove (pendingCmd 0x00023430#32 idleB) ∧ (pendingCmd 0x00023430#32 idleB).pending = some 0x00023430#32 ∧
    (pendingCmd 0x00023430#32 idleB).err = false ∧
    ∃ t, step (pendingCmd 0x00023430#32 idleB) = .next t ∧ t.err = true :=
  ⟨⟨rfl, .inr rfl⟩, rfl, rfl, next_with (f := State.err) (by decide +kernel)⟩

theorem witness_InvariantAtReset : Config.cfgA.wf = true ∧ Config.cfgB.wf = true := by decide

/-- Reset, with a command pending, meets the invariant and steps. -/
theorem witness_EveryStepKeepsTheInvariant :
    (State.reset.withFetchWord 32 0xFFFF0140).Inv ∧ ∃ t, step (State.reset.withFetchWord 32 0xFFFF0140) = .next t := by
  refine ⟨⟨by decide, ?_, ⟨List.Pairwise.nil, ?_⟩, by unfold ReportOk; decide, ?_, by unfold FaultsOk; decide⟩,
    next_exists (by decide +kernel)⟩
  · intro r v hv
    have : State.reset.regs[r] = some v := hv
    simp [State.reset, State.resetWith] at this
  · intro c hc
    cases hc
  · intro w hw
    exact Option.some.inj hw

theorem witness_FaultsAreNeverCleared :
    (∃ t, step (withTurn (.hostWrite 0x010#17 1#32) (idleB.faulted (.uninitRead 0 1))) = .next t) ∧
    .uninitRead 0 1 ∈ (withTurn (.hostWrite 0x010#17 1#32) (idleB.faulted (.uninitRead 0 1))).faults :=
  ⟨next_exists (by decide +kernel), by decide⟩

/-- A step with a valid register and a written byte before it. -/
theorem witness_OnlyResetForgets :
    (∃ t, step (pendingCmd 0#32 (withReg 3 7 (startV idleB))) = .next t) ∧
    (withReg 3 7 (startV idleB)).regs[(3 : Reg)] ≠ none ∧ (withReg 3 7 (startV idleB)).buf.read 0 ≠ none :=
  ⟨next_exists (by decide +kernel), by decide +kernel, by decide +kernel⟩

theorem witness_KeyChangesOnlyThroughKeyCommands :
    (∃ t, step (pendingCmd 0x00000002#32 (withKey key1 idleB)) = .next t ∧ t.keyLen = .empty) ∧
    (withKey key1 idleB).keyLen ≠ .empty :=
  ⟨next_with (by decide +kernel), by decide⟩

/-- Two states that differ in the key bytes beyond KEYLEN. -/
theorem witness_HiddenKeyBytesAreUnobservable :
    SameButHiddenKey (withKey key1 idleB) { withKey key1 idleB with key := (withKey key1 idleB).key.set 16 0xff#8 } ∧
    ({ withKey key1 idleB with key := (withKey key1 idleB).key.set 16 0xff#8 } : State) ≠ withKey key1 idleB := by
  refine ⟨⟨rfl, by decide +kernel⟩, by decide +kernel⟩

/-- Both while a command is pending and while the core is stopped on a fault. -/
theorem witness_SoftResetRestoresResetState :
    (withTurn (.hostWrite 0x010#17 0xFFFFFFFF#32) (pendingCmd 0#32 idleB)).turns
      = [.hostWrite 0x010#17 0xFFFFFFFF#32] ∧ (0xFFFFFFFF#32).getLsbD 0 = true ∧ (1#32).getLsbD 0 = true := by
  decide

/-- Every offset of RegisterReads, with the word the statement lists for it. -/
theorem witness_RegisterReads :
    ∀ p ∈ [(0x000#17, 0x46504531#32), (0x004#17, 32#32), (0x008#17, 16#32), (0x00C#17, 64#32), (0x010#17, 0#32),
        (0x014#17, 5#32), (0x018#17, 0#32), (0x01C#17, 2#32), (0x020#17, 1#32), (0x024#17, 2#32), (0x028#17, 3#32),
        (0x02C#17, 4#32), (0x030#17, 16#32)],
      after (step (withTurn (.hostRead p.1) (pendingCmd 2#32 (withOps 1 2 3 4 (withKey key1 idleB))))) (·.replies)
        = some [p.2] := by
  intro p hp; fin_cases hp <;> decide +kernel

/-- Every write of RegisterWritesWhileIdle. -/
theorem witness_RegisterWritesWhileIdle :
    ∀ o ∈ [0x01C#17, 0x020#17, 0x024#17, 0x028#17, 0x02C#17],
      (withTurn (.hostWrite o 7#32) idleB).stopped = none ∧ (withTurn (.hostWrite o 7#32) idleB).pending = none ∧
      (withTurn (.hostWrite o 7#32) idleB).turns = [.hostWrite o 7#32] := by
  intro o ho; fin_cases ho <;> decide

theorem witness_IgnoredWrites :
    (withTurn (.hostWrite 0x010#17 0xFFFFFFFE#32) (pendingCmd 0#32 idleB)).stopped = none ∧
    (0xFFFFFFFE#32).getLsbD 0 = false ∧
    0x030#17 ∈ [0x000#17, 0x004#17, 0x008#17, 0x00C#17, 0x014#17, 0x018#17, 0x030#17] := by decide

/-- The first and the last reserved offset. -/
theorem witness_ReservedOffsets :
    ∀ o ∈ [0x00034#17, 0x0FFFC#17],
      o.toNat % 4 = 0 ∧ 0x034 ≤ o.toNat ∧ o.toNat ≤ 0xFFFC ∧ (withTurn (.hostRead o) idleB).stopped = none := by
  intro o ho; fin_cases ho <;> decide

/-- The last word inside the buffer and the first one beyond it (CFG-B); a written and an unwritten word. -/
theorem witness_BufferWindowWhileIdle :
    idleB.cfg.wf = true ∧ (0x1003C#17).toNat = 0x10000 + 60 ∧ 60 + 4 ≤ idleB.cfg.bufBytes ∧
    (0x10040#17).toNat = 0x10000 + 64 ∧ idleB.cfg.bufBytes ≤ 64 ∧
    BytesAt (withBytes 60 [1, 2, 3, 4] idleB).buf 60 [1#8, 2#8, 3#8, 4#8] ∧
    Unwritten (withBytes 60 [1, 2, 3] idleB).buf 60 4 ∧
    (∀ t : Turn, (withTurn t idleB).stopped = none ∧ (withTurn t idleB).pending = none ∧
      (withTurn t idleB).turns = t :: []) := by
  refine ⟨by decide, by decide, by decide, by decide, by decide, by unfold BytesAt; decide,
    ⟨3, by decide, by decide⟩, fun t => ⟨rfl, rfl, rfl⟩⟩

theorem witness_BusyWritesAreProtocolFaults :
    ∀ o ∈ [0x01C#17, 0x020#17, 0x024#17, 0x028#17, 0x02C#17, 0x10000#17, 0x1FFFC#17],
      (withTurn (.hostWrite o 0#32) (pendingCmd 0#32 idleB)).stopped = none ∧
      (withTurn (.hostWrite o 0#32) (pendingCmd 0#32 idleB)).pending ≠ none ∧ o.toNat % 4 = 0 ∧
      (o ∈ [0x01C#17, 0x020#17, 0x024#17, 0x028#17, 0x02C#17] ∨ 0x10000 ≤ o.toNat) := by
  intro o ho; fin_cases ho <;> decide

theorem witness_BusyWindowReadsReturnSomeWord :
    ∀ o ∈ [0x10000#17, 0x1FFFC#17],
      (withTurn (.hostRead o) (pendingCmd 0#32 idleB)).stopped = none ∧
      (withTurn (.hostRead o) (pendingCmd 0#32 idleB)).pending ≠ none ∧ o.toNat % 4 = 0 ∧ 0x10000 ≤ o.toNat := by
  intro o ho; fin_cases ho <;> decide

theorem witness_OtherHostAccessesAreRefused :
    (withTurn (.hostOther 16 0x000#17) idleB).turns = [.hostOther 16 0x000#17] ∧ (0x1FFFF#17).toNat % 4 ≠ 0 := by decide

end Sys2Proof.Tests
end

section
/-!
SUPPORT. What one step can do (spec/20_memory.md R95, spec/30_encoding.md R110): the turn it takes, and one inversion
lemma that lists every state a step can answer. The invariant and the other whole-machine rules cite it.
-/

namespace Sys2Proof.Machine

/-! ### The turn a step takes -/

theorem afterTurn_of_cons {s : State} {t : Turn} {ts : List Turn} (h : s.turns = t :: ts) :
    s.afterTurn = { s with turns := ts } := by
  simp [State.afterTurn, h]

/-- Whose turn a step takes: the core's, or one of the host's (R95). -/
theorem turn_cases (s : State) :
    (s.turns = [] ∨ s.turns.head? = some .core) ∨ ∃ m ts, s.turns = m :: ts ∧ m ≠ .core := by
  cases h : s.turns with
  | nil => simp
  | cons m ts =>
    by_cases hm : m = .core
    · simp [hm]
    · exact .inr ⟨m, ts, rfl, hm⟩

/-- When the core is to move, the step is the core's turn (R95, R110). -/
theorem step_eq_coreTurn {s : State} (h : s.turns = [] ∨ s.turns.head? = some .core) :
    step s = coreTurn s.afterTurn := by
  cases ht : s.turns with
  | nil =>
    have hs : s.afterTurn = s := by cases s; cases ht; rfl
    rw [hs]; simp [step, takeTurn, ht]
  | cons t ts =>
    obtain rfl : t = .core := by simpa [ht] using h
    simp [step, takeTurn, ht, afterTurn_of_cons ht]

/-- A turn of the host is the step it takes (R95). -/
theorem step_eq_hostTurn {s : State} {t : Turn} {ts : List Turn} (h : s.turns = t :: ts) (hc : t ≠ .core) :
    step s = hostTurn t s.afterTurn := by
  rw [afterTurn_of_cons h]
  cases t <;> simp_all [step, takeTurn]

/-- An aligned host read is the step it takes, while no model fault stands. -/
theorem step_hostRead {s : State} {o : BitVec 17} {ts : List Turn} (hs : s.stopped = none)
    (ht : s.turns = .hostRead o :: ts) (ho : aligned o = true) :
    step s = .next (hostRead o { s with turns := ts }) := by
  rw [step_eq_hostTurn ht (by simp), afterTurn_of_cons ht]
  simp [hostTurn, ho, hs]

/-- An aligned host write is the step it takes, while no model fault stands. -/
theorem step_hostWrite {s : State} {o : BitVec 17} {v : Word} {ts : List Turn} (hs : s.stopped = none)
    (ht : s.turns = .hostWrite o v :: ts) (ho : aligned o = true) :
    step s = .next (hostWrite o v { s with turns := ts }) := by
  rw [step_eq_hostTurn ht (by simp), afterTurn_of_cons ht]
  simp [hostTurn, ho, hs]

/-! ### The address map -/

/-- An offset reaches a register exactly when it is the register's offset (R40, R90). -/
theorem targetOf_eq_csr {o : BitVec 17} {c : Csr} : targetOf o = .csr c ↔ o = BitVec.ofNat 17 (csrOffset c) := by
  constructor
  · intro h
    unfold targetOf at h
    split at h
    · cases h
    · split at h
      · next c' hf =>
        cases h
        have hc : csrOffset c = o.toNat := by simpa using List.find?_some hf
        rw [hc, BitVec.ofNat_toNat, BitVec.setWidth_eq]
      · cases h
  · rintro rfl
    cases c <;> decide

/-- The offsets past the registers and below the window reach nothing (R54, R90). -/
theorem targetOf_eq_reserved {o : BitVec 17} (hlo : 0x034 ≤ o.toNat) (hhi : o.toNat < windowBase) :
    targetOf o = .reserved := by
  have hmap : ∀ c ∈ csrMap, csrOffset c < 0x034 := by decide
  have hnone : csrMap.find? (fun c => csrOffset c == o.toNat) = none := by
    refine List.find?_eq_none.mpr fun c hc => ?_
    have := hmap c hc
    simp only [beq_iff_eq]
    omega
  simp [targetOf, hnone, Nat.not_le.mpr hhi]

/-- A write is a soft reset exactly when it is to CTRL with bit 0 set (R45, R301). -/
theorem isSoftReset_targetOf {o : BitVec 17} {v : Word} :
    isSoftReset (targetOf o) v = true ↔ o = 0x010#17 ∧ v.getLsbD 0 = true := by
  have hctrl : targetOf o = .csr .ctrl ↔ o = 0x010#17 := targetOf_eq_csr
  simp [isSoftReset, hctrl]

/-! ### Every state a step can answer -/

/-- The states a step from `s` can answer, with what must hold for each. -/
inductive Stepped (s : State) : State → Prop where
  /-- The core's turn with nothing pending, or a host write that is ignored. -/
  | kept : Stepped s s.afterTurn
  | raised (e : ErrKind) (he : e ≠ .fatal) : Stepped s (raise e s.afterTurn)
  | completed (w : Word) (i : Instr) (u : State) (hc : CoreToMove s) (hp : s.pending = some w)
      (hd : decode w = some i) (hw : Writes s.afterTurn i u) : Stepped s (complete u)
  | faulted (f : Fault) : Stepped s (recordFault s.afterTurn f)
  | replied (v : Word) (d : Nat) : Stepped s { reply s.afterTurn v with draws := d }
  | reset (v : Word) (ts : List Turn) (ht : s.turns = .hostWrite 0x010#17 v :: ts) (hv : v.getLsbD 0 = true) :
      Stepped s (softReset s.afterTurn)
  | taken (v : Word) : Stepped s (takeCommand s.afterTurn v)
  /-- A host write of SRC, DST, LEN or RADIX. -/
  | operands (a d n r : Word) : Stepped s { s.afterTurn with src := a, dst := d, len := n, radix := r }
  | stored (a : Nat) (bs : List Byte) (hb : a + bs.length ≤ s.cfg.bufBytes) :
      Stepped s (memWrite s.afterTurn a bs)

theorem commandErrors_ne_fatal {e : ErrKind} (h : e ∈ commandErrors) : e ≠ .fatal := by
  rintro rfl; simp [commandErrors] at h

theorem stepped_of_coreTurn {s t : State} (hm : s.turns = [] ∨ s.turns.head? = some .core)
    (h : coreTurn s.afterTurn = .next t) : Stepped s t := by
  unfold coreTurn at h
  split at h
  · cases h
  · next hs =>
    split at h
    · next w hp =>
      unfold runCommand at h
      split at h
      · cases h; exact .raised _ (by simp)
      · next i hd =>
        split at h
        · next u hx =>
          cases h
          rcases exec_cases hx with ⟨e, he, rfl⟩ | ⟨u, hw, rfl⟩
          · exact .raised e (commandErrors_ne_fatal he)
          · exact .completed w i u ⟨hs, hm⟩ hp hd hw
        · cases h; exact .faulted _
        · cases h
    · cases h; exact .kept

theorem stepped_of_windowRead (s : State) (a : Nat) : Stepped s (windowRead a s.afterTurn) := by
  unfold windowRead
  split_ifs
  · exact .replied _ _
  · split
    · exact .replied _ s.draws
    · exact .faulted _
  · exact .replied _ s.draws

theorem stepped_of_hostRead (s : State) (o : BitVec 17) : Stepped s (hostRead o s.afterTurn) := by
  unfold hostRead
  split
  · exact .replied _ s.draws
  · exact .replied _ s.draws
  · exact stepped_of_windowRead s _

theorem stepped_of_windowWrite (s : State) (a : Nat) (v : Word) : Stepped s (windowWrite a v s.afterTurn) := by
  unfold windowWrite
  split_ifs with hb
  · exact .stored a _ hb
  · exact .kept

theorem stepped_of_csrWrite {s : State} {c : Csr} {v : Word}
    (hr : c = .ctrl → v.getLsbD 0 = true → ∃ ts, s.turns = .hostWrite 0x010#17 v :: ts) :
    Stepped s (csrWrite c v s.afterTurn) := by
  cases c with
  | cmd => exact .taken v
  | src => exact .operands v s.dst s.len s.radix
  | dst => exact .operands s.src v s.len s.radix
  | len => exact .operands s.src s.dst v s.radix
  | radix => exact .operands s.src s.dst s.len v
  | ctrl =>
    unfold csrWrite
    split_ifs with hv
    · obtain ⟨ts, ht⟩ := hr rfl hv
      exact .reset v ts ht hv
    · exact .kept
  | id | capIntBits | capMaxLen | capBufBytes | status | errcode | keyLen => exact .kept

theorem stepped_of_hostWrite {s : State} {o : BitVec 17} {v : Word} {ts : List Turn}
    (ht : s.turns = .hostWrite o v :: ts) : Stepped s (hostWrite o v s.afterTurn) := by
  unfold hostWrite
  split_ifs
  · exact .faulted _
  · split
    · next c hc =>
      refine stepped_of_csrWrite fun hctrl _ => ?_
      subst hctrl
      obtain rfl : o = 0x010#17 := targetOf_eq_csr.mp hc
      exact ⟨ts, ht⟩
    · exact .kept
    · exact stepped_of_windowWrite s _ v

theorem stepped_of_hostTurn {s t : State} {m : Turn} {ts : List Turn} (ht : s.turns = m :: ts)
    (h : hostTurn m s.afterTurn = .next t) : Stepped s t := by
  cases m with
  | core => cases h; exact .kept
  | hostOther bits o => cases h
  | hostRead o =>
    simp only [hostTurn] at h
    split at h
    · split at h
      · cases h
      · cases h; exact stepped_of_hostRead s o
    · cases h
  | hostWrite o v =>
    simp only [hostTurn] at h
    split at h
    · split at h
      · split at h
        · next hr =>
          cases h
          obtain ⟨rfl, hv⟩ := isSoftReset_targetOf.mp hr
          exact .reset v ts ht hv
        · cases h
      · cases h; exact stepped_of_hostWrite ht
    · cases h

/-- Everything a step can do when it answers a next state (R95, R110). -/
theorem step_cases {s t : State} (h : step s = .next t) : Stepped s t := by
  obtain hcore | ⟨m, ts, hturns, hm⟩ := turn_cases s
  · exact stepped_of_coreTurn hcore (step_eq_coreTurn hcore ▸ h)
  · exact stepped_of_hostTurn hturns (step_eq_hostTurn hturns hm ▸ h)

end Sys2Proof.Machine
end

section
/-!
SUPPORT. What a command's writes can touch (spec/10_state.md R33, spec/00_scope.md R14): one lemma that names the
register, the bytes or the key store a command may write, and the frame of every command, field by field.
-/

namespace Sys2Proof.Machine

/-- The register a command writes, if it writes one (R33). -/
def destReg : Instr → Option Reg
  | .num r _ | .numb r | .add r _ _ | .sub r _ _ | .mul r _ _ | .mod r _ _ | .ldi r _ => some r
  | .nop | .keyld | .keyclr | .ciph | .prf | .str _ _ | .bstr _ => none

/-- How many bytes a command stores at DST (R142, R146, R210, R213). -/
def storedBytes (s : State) : Instr → Nat
  | .str _ esz => elemWidth esz * s.lenVal
  | .bstr _ | .ciph => s.lenVal
  | .prf => 16
  | .nop | .keyld | .keyclr | .num _ _ | .numb _ | .add _ _ _ | .sub _ _ _ | .mul _ _ _ | .mod _ _ _ | .ldi _ _ => 0

/-- A command's writes are nothing, a key store, bytes at DST, or one register in range (R33). -/
theorem Writes.shape {s u : State} {i : Instr} (h : Writes s i u) :
    u = s ∨ (∃ k bs, (i = .keyld ∨ i = .keyclr) ∧ u = setKey s k bs) ∨
      (∃ bs : List Byte, bs.length = storedBytes s i ∧ s.dstAddr + bs.length ≤ s.cfg.bufBytes ∧
        u = memWrite s s.dstAddr bs) ∨
      ∃ r v, destReg i = some r ∧ inRange s.cfg v = true ∧ u = { s with regs := s.regs.set r (some v) } := by
  cases h with
  | nop => exact .inl rfl
  | keyld k bs => exact .inr (.inl ⟨k, bs, .inl rfl, rfl⟩)
  | keyclr => exact .inr (.inl ⟨.empty, [], .inr rfl, rfl⟩)
  | ciph bs hl hb | prf bs hl hb | str _ _ bs hl hb | bstr _ bs hl hb =>
    exact .inr (.inr (.inl ⟨bs, hl, by rw [hl]; exact hb, rfl⟩))
  | num r _ v hv | numb r v hv | add r _ _ v hv | sub r _ _ v hv | mul r _ _ v hv | mod r _ _ v hv
  | ldi r _ v hv => exact .inr (.inr (.inr ⟨r, v, rfl, hv, rfl⟩))

/-- No command writes the constants, CMD, the operand registers, FAULTS or the host's side (R14, R34). -/
theorem Writes.hostStateKept {s u : State} {i : Instr} (h : Writes s i u) : HostStateKept s u := by
  obtain rfl | ⟨k, bs, -, rfl⟩ | ⟨bs, -, -, rfl⟩ | ⟨r, v, -, -, rfl⟩ := h.shape <;> simp [HostStateKept]

/-- Only KEYLD and KEYCLR write the key store (R35). -/
theorem Writes.keyKept {s u : State} {i : Instr} (h : Writes s i u) (hld : i ≠ .keyld) (hclr : i ≠ .keyclr) :
    KeyKept s u := by
  obtain rfl | ⟨k, bs, hi, -⟩ | ⟨bs, -, -, rfl⟩ | ⟨r, v, -, -, rfl⟩ := h.shape
  · simp [KeyKept]
  · exact absurd hi (by simp [hld, hclr])
  · simp [KeyKept]
  · simp [KeyKept]

/-- A command writes no register but its destination (R33). -/
theorem Writes.regs_kept {s u : State} {i : Instr} (h : Writes s i u) {q : Reg} (hq : destReg i ≠ some q) :
    u.regs[q] = s.regs[q] := by
  obtain rfl | ⟨k, bs, -, rfl⟩ | ⟨bs, -, -, rfl⟩ | ⟨r, v, hr, -, rfl⟩ := h.shape
  · rfl
  · rfl
  · rfl
  · have hne : r.val ≠ q.val := fun he => hq (by rw [hr, Fin.ext he])
    simp [hne]

/-- A command writes no byte outside the bytes it stores at DST (R84). -/
theorem Writes.buf_kept {s u : State} {i : Instr} (h : Writes s i u) :
    KeptOutside s.dst.toNat (storedBytes s i) s.buf u.buf := by
  obtain rfl | ⟨k, bs, -, rfl⟩ | ⟨bs, hl, -, rfl⟩ | ⟨r, v, -, -, rfl⟩ := h.shape
  · exact fun _ _ => rfl
  · exact fun _ _ => rfl
  · exact fun b hb => Memory.read_writeRange_outside _ (hl ▸ hb)
  · exact fun _ _ => rfl

/-- The frame of a command that answers a next state (R33, R110): nothing of the host's side changes, nothing is
pending, the registers but the destination and the bytes but those stored are kept. -/
theorem exec_frame {s t : State} {i : Instr} (h : exec i s = .next t) :
    HostStateKept s t ∧ (∀ q : Reg, destReg i ≠ some q → t.regs[q] = s.regs[q]) ∧
      KeptOutside s.dst.toNat (storedBytes s i) s.buf t.buf ∧ t.pending = none := by
  rcases exec_cases h with ⟨e, -, rfl⟩ | ⟨u, hw, rfl⟩
  · exact ⟨by simp [HostStateKept], fun _ _ => rfl, fun _ _ => rfl, rfl⟩
  · exact ⟨hw.hostStateKept, fun _ hq => hw.regs_kept hq, hw.buf_kept, rfl⟩

/-- A command but KEYLD and KEYCLR keeps the key store (R35). -/
theorem exec_keyKept {s t : State} {i : Instr} (h : exec i s = .next t) (hld : i ≠ .keyld) (hclr : i ≠ .keyclr) :
    KeyKept s t := by
  rcases exec_cases h with ⟨e, -, rfl⟩ | ⟨u, hw, rfl⟩
  · simp [KeyKept]
  · exact hw.keyKept hld hclr

/-- A command with no destination keeps every register (R33). -/
theorem exec_regs_kept {s t : State} {i : Instr} (h : exec i s = .next t) (hd : destReg i = none) :
    t.regs = s.regs := by
  obtain ⟨-, hregs, -, -⟩ := exec_frame h
  exact Vector.ext fun q hq => hregs ⟨q, hq⟩ (by simp [hd])

/-- A command that stores nothing keeps every byte (R84). -/
theorem exec_buf_kept {s t : State} {i : Instr} (h : exec i s = .next t) (hn : storedBytes s i = 0) (a : Nat) :
    t.buf.read a = s.buf.read a := by
  obtain ⟨-, -, hbuf, -⟩ := exec_frame h
  exact hbuf a (by omega)

end Sys2Proof.Machine
end

section
/-!
The invariant of spec/10_state.md is kept by each operation a step is made of, and so by every step.
-/

namespace Sys2Proof.Machine

namespace State.Inv

variable {s : State}

theorem afterTurn (h : s.Inv) : s.afterTurn.Inv :=
  ⟨h.config, h.regs, h.buffer, h.report, h.command, h.faults⟩

theorem complete (h : s.Inv) : (complete s).Inv :=
  ⟨h.config, h.regs, h.buffer, by simp [ReportOk], by simp [CommandOk], h.faults⟩

theorem raise (h : s.Inv) {e : ErrKind} (he : e ≠ .fatal) : (raise e s).Inv := by
  refine ⟨h.config, h.regs, h.buffer, ?_, by simp [CommandOk], h.faults⟩
  cases e with
  | fatal => exact absurd rfl he
  | nullArgument | invalidArgument | invalidKey | arithmeticError | illegalCommand =>
    simp [ReportOk, ErrKind.code]

theorem recordFault (h : s.Inv) (f : Fault) : (recordFault s f).Inv := by
  obtain ⟨hnodup, -⟩ := h.faults
  refine ⟨h.config, h.regs, h.buffer, h.report, h.command, ?_⟩
  by_cases hf : f ∈ s.faults
  · simp [FaultsOk, hf, hnodup]
  · have hne : ∀ g ∈ s.faults, g ≠ f := fun g hg he => hf (he ▸ hg)
    simpa [FaultsOk, hf, List.nodup_append, hnodup] using hne

theorem softReset (h : s.Inv) : (softReset s).Inv := by
  obtain ⟨hnodup, -⟩ := h.faults
  exact ⟨h.config, by simp [RegsInRange], by simp [BufferOk, Memory.wf, Memory.below], by simp [ReportOk],
    by simp [CommandOk], by simp [FaultsOk, hnodup]⟩

theorem takeCommand (h : s.Inv) (v : Word) : (takeCommand s v).Inv :=
  ⟨h.config, h.regs, h.buffer, by simp [ReportOk], by simp [CommandOk], h.faults⟩

/-- A store inside the buffer keeps its canonical form and its bound (R80). -/
theorem memWrite (h : s.Inv) {a : Nat} {bs : List Byte} (hb : a + bs.length ≤ s.cfg.bufBytes) :
    (memWrite s a bs).Inv := by
  obtain ⟨hwf, hbelow⟩ := h.buffer
  exact ⟨h.config, h.regs, ⟨Memory.wf_writeRange a bs hwf, Memory.below_writeRange hbelow hb⟩, h.report, h.command,
    h.faults⟩

/-- A register write of a value in range keeps every register in range (R32). -/
theorem setReg (h : s.Inv) (r : Reg) {v : Int} (hv : inRange s.cfg v = true) :
    ({ s with regs := s.regs.set r (some v) } : State).Inv := by
  refine ⟨h.config, fun q x hx => ?_, h.buffer, h.report, h.command, h.faults⟩
  by_cases hq : r.val = q.val
  · obtain rfl : v = x := by simpa [hq] using hx
    exact hv
  · exact h.regs q x (by simpa [Vector.getElem_set, hq] using hx)

theorem setKey (h : s.Inv) (k : KeyLen) (bs : List Byte) : (setKey s k bs).Inv :=
  ⟨h.config, h.regs, h.buffer, h.report, h.command, h.faults⟩

/-- The writes of a command keep the invariant. -/
theorem writes (h : s.Inv) {i : Instr} {u : State} (hw : Writes s i u) : u.Inv := by
  obtain rfl | ⟨k, bs, -, rfl⟩ | ⟨bs, -, hb, rfl⟩ | ⟨r, v, -, hv, rfl⟩ := hw.shape
  · exact h
  · exact h.setKey k bs
  · exact h.memWrite hb
  · exact h.setReg r hv

end State.Inv

/-- Settles O45: each state a step can answer meets the invariant, operation by operation. -/
theorem everyStepKeepsTheInvariant : Obligations.EveryStepKeepsTheInvariant := by
  intro s t h ht
  have ha := h.afterTurn
  cases step_cases ht with
  | kept => exact ha
  | raised e he => exact ha.raise he
  | completed w i u hc hp hd hw => exact (ha.writes hw).complete
  | faulted f => exact ha.recordFault f
  | replied | operands => exact ⟨ha.config, ha.regs, ha.buffer, ha.report, ha.command, ha.faults⟩
  | reset v ts _ _ => exact ha.softReset
  | taken v => exact ha.takeCommand v
  | stored a bs hb => exact ha.memWrite hb

end Sys2Proof.Machine
end

section
/-!
The frames of the commands (spec/10_state.md R33), what the steps never undo (R31, R38), and what changes the key store
(R35, R55).
-/

namespace Sys2Proof.Machine

/-- Settles O39: each of these commands names `d` as its destination and stores nothing. -/
theorem registerCommandsFrame : Obligations.RegisterCommandsFrame := by
  intro i d s t hi h
  have hcmd : destReg i = some d ∧ storedBytes s i = 0 ∧ i ≠ .keyld ∧ i ≠ .keyclr := by
    obtain ⟨_, _, rfl | rfl | rfl | rfl⟩ | ⟨_, rfl⟩ | ⟨_, rfl⟩ | rfl := hi <;> simp [destReg, storedBytes]
  obtain ⟨hdest, hstored, hld, hclr⟩ := hcmd
  obtain ⟨hhost, hregs, -, hpend⟩ := exec_frame h
  exact ⟨hhost, exec_keyKept h hld hclr, fun q hq => hregs q (by simp [hdest, hq.symm]), exec_buf_kept h hstored, hpend⟩

/-- Settles O40: each of these commands has no destination register and stores `n` bytes. -/
theorem bufferCommandsFrame : Obligations.BufferCommandsFrame := by
  intro i n s t hi h
  have hcmd : destReg i = none ∧ storedBytes s i = n ∧ i ≠ .keyld ∧ i ≠ .keyclr := by
    obtain ⟨_, _, rfl, rfl⟩ | ⟨_, rfl, rfl⟩ | ⟨rfl, rfl⟩ | ⟨rfl, rfl⟩ := hi <;>
      simp [destReg, storedBytes, State.lenVal]
  obtain ⟨hdest, rfl, hld, hclr⟩ := hcmd
  obtain ⟨hhost, -, hbuf, hpend⟩ := exec_frame h
  exact ⟨hhost, exec_keyKept h hld hclr, exec_regs_kept h hdest, hbuf, hpend⟩

/-- Settles O41: none of these commands has a destination register or stores a byte. -/
theorem keyAndControlFrame : Obligations.KeyAndControlFrame := by
  intro i s t hi h
  have hcmd : destReg i = none ∧ storedBytes s i = 0 := by
    obtain rfl | rfl | rfl := hi <;> exact ⟨rfl, rfl⟩
  obtain ⟨hdest, hstored⟩ := hcmd
  obtain ⟨hhost, -, -, hpend⟩ := exec_frame h
  refine ⟨hhost, exec_regs_kept h hdest, exec_buf_kept h hstored, hpend, ?_⟩
  rintro rfl
  exact exec_keyKept h (by simp) (by simp)

/-- A record of FAULTS stays when another one is made (R38). -/
theorem mem_faults_recordFault {s : State} {f : Fault} (g : Fault) (h : f ∈ s.faults) :
    f ∈ (recordFault s g).faults := by
  rw [recordFault_faults]
  split_ifs
  · exact h
  · exact List.mem_append_left _ h

/-- Settles O46: only a recorded fault changes FAULTS, and it adds to it; a soft reset keeps it. -/
theorem faultsAreNeverCleared : Obligations.FaultsAreNeverCleared := by
  refine ⟨fun _ => rfl, fun s t f h hf => ?_⟩
  cases step_cases h with
  | kept | raised | replied | reset | taken | operands | stored => exact hf
  | faulted g => exact mem_faults_recordFault g hf
  | completed w i u _ _ _ hw =>
    obtain ⟨-, -, -, -, -, -, hfaults, -⟩ := hw.hostStateKept
    rw [complete_faults, hfaults]
    exact hf

/-- Every valid register of `s` is valid in `t`, and every written byte of `s` is written in `t`. -/
def Remembers (s t : State) : Prop :=
  (∀ r : Reg, s.regs[r] ≠ none → t.regs[r] ≠ none) ∧ ∀ a, s.buf.read a ≠ none → t.buf.read a ≠ none

theorem remembers_of_eq {s t : State} (hr : t.regs = s.regs) (hb : t.buf = s.buf) : Remembers s t := by
  simp [Remembers, hr, hb]

/-- A store leaves every written byte written (R80, R84). -/
theorem remembers_memWrite (s : State) (a : Nat) (bs : List Byte) : Remembers s (memWrite s a bs) := by
  refine ⟨fun _ hr => hr, fun c hc => ?_⟩
  by_cases hout : c < a ∨ a + bs.length ≤ c
  · rw [memWrite_buf, Memory.read_writeRange_outside _ hout]
    exact hc
  · obtain ⟨i, rfl⟩ : ∃ i, c = a + i := ⟨c - a, by omega⟩
    rw [memWrite_buf, Memory.read_writeRange_inside _ _ (by omega : i < bs.length)]
    simp

/-- A register write leaves every valid register valid (R31). -/
theorem remembers_setReg (s : State) (r : Reg) (v : Int) :
    Remembers s { s with regs := s.regs.set r (some v) } := by
  refine ⟨fun q hq => ?_, fun _ hc => hc⟩
  by_cases h : r.val = q.val
  · simp [h]
  · simpa [h] using hq

theorem Writes.remembers {s u : State} {i : Instr} (h : Writes s i u) : Remembers s u := by
  obtain rfl | ⟨k, bs, -, rfl⟩ | ⟨bs, -, -, rfl⟩ | ⟨r, v, -, -, rfl⟩ := h.shape
  · exact remembers_of_eq rfl rfl
  · exact remembers_of_eq rfl rfl
  · exact remembers_memWrite s _ bs
  · exact remembers_setReg s r v

/-- Settles O47: no case of a step changes the constants, and each but the soft reset only adds values. -/
theorem onlyResetForgets : Obligations.OnlyResetForgets := by
  intro s t h
  cases step_cases h with
  | kept | raised | faulted | replied | taken | operands => exact ⟨rfl, .inr (remembers_of_eq rfl rfl)⟩
  | completed w i u _ _ _ hw =>
    obtain ⟨hcfg, -⟩ := hw.hostStateKept
    exact ⟨hcfg, .inr hw.remembers⟩
  | reset v ts ht hv => exact ⟨rfl, .inl ⟨v, ts, ht, hv⟩⟩
  | stored a bs _ => exact ⟨rfl, .inr (remembers_memWrite s a bs)⟩

/-- Settles O48: of the cases of a step only a soft reset and the completion of KEYLD or KEYCLR write the key store. -/
theorem keyChangesOnlyThroughKeyCommands : Obligations.KeyChangesOnlyThroughKeyCommands := by
  intro s t h hchanged
  have not_kept : ¬(t.keyLen = s.keyLen ∧ t.key = s.key) := fun ⟨hlen, hkey⟩ => by simp [hlen, hkey] at hchanged
  cases step_cases h with
  | kept | raised | faulted | replied | taken | operands | stored => exact absurd ⟨rfl, rfl⟩ not_kept
  | reset v ts ht hv => exact .inl ⟨v, ts, ht, hv⟩
  | completed w i u hc hp hd hw =>
    refine .inr ⟨hc, w, hp, ?_⟩
    by_contra hneither
    have hld : i ≠ .keyld := fun hi => hneither (.inl (hi ▸ hd))
    have hclr : i ≠ .keyclr := fun hi => hneither (.inr (hi ▸ hd))
    obtain ⟨hkey, hlen, -⟩ := hw.keyKept hld hclr
    exact not_kept ⟨hlen, hkey⟩

end Sys2Proof.Machine
end

section
/-!
The host's register accesses (spec/10_state.md R40 to R54).
-/

namespace Sys2Proof.Machine

/-! ### The words of the status registers -/

/-- BUSY is a view of PENDING (R37, R46). -/
theorem busy_iff {s : State} : s.busy = true ↔ s.pending ≠ none := by
  simp [State.busy, Option.isSome_iff_ne_none]

/-- KEYV is a view of KEYLEN (R46). -/
theorem keyv_iff {s : State} : s.keyv = true ↔ s.keyLen ≠ .empty := by
  cases h : s.keyLen <;> simp [State.keyv, h, KeyLen.bytes]

/-- STATUS is BUSY + 2·ERR + 4·KEYV (R46). -/
theorem statusWord_eq (s : State) : s.statusWord =
    BitVec.ofNat 32 ((if s.pending = none then 0 else 1) + (if s.err then 2 else 0)
      + (if s.keyLen = .empty then 0 else 4)) := by
  have hbusy : s.pending = none ↔ s.busy = false := by simpa using busy_iff.not.symm
  have hkeyv : s.keyLen = .empty ↔ s.keyv = false := by simpa using keyv_iff.not.symm
  simp only [hbusy, hkeyv, State.statusWord]
  cases s.busy <;> cases s.err <;> cases s.keyv <;> decide

theorem errcodeWord_eq (s : State) : s.errcodeWord = BitVec.ofNat 32 s.errcode.toNat := by
  unfold State.errcodeWord
  generalize s.errcode = c
  revert c
  decide

/-! ### Accesses by register -/

theorem aligned_csrOffset (c : Csr) : aligned (BitVec.ofNat 17 (csrOffset c)) = true := by
  cases c <;> rfl

theorem targetOf_csrOffset (c : Csr) : targetOf (BitVec.ofNat 17 (csrOffset c)) = .csr c :=
  targetOf_eq_csr.mpr rfl

/-- A host read at a register's offset answers the register's word and changes nothing else, busy or not (R88, R311). -/
theorem step_readCsr {s : State} {ts : List Turn} (c : Csr) (hs : s.stopped = none)
    (ht : s.turns = .hostRead (BitVec.ofNat 17 (csrOffset c)) :: ts) :
    step s = .next { s with turns := ts, replies := s.replies ++ [csrRead c s] } := by
  rw [step_hostRead hs ht (aligned_csrOffset c), hostRead, targetOf_csrOffset]
  cases c <;> rfl

/-- A host write at a register's offset writes the register, unless the busy hazard forbids it (R310, R311). -/
theorem step_writeCsr {s : State} {ts : List Turn} {v : Word} (c : Csr) (hs : s.stopped = none)
    (ht : s.turns = .hostWrite (BitVec.ofNat 17 (csrOffset c)) v :: ts)
    (hok : s.pending = none ∨ hazardous (.csr c) = false) :
    step s = .next (csrWrite c v { s with turns := ts }) := by
  have hclear : (s.pending.isSome && hazardous (.csr c)) = false := by
    obtain h | h := hok <;> simp [h]
  rw [step_hostWrite hs ht (aligned_csrOffset c), hostWrite, targetOf_csrOffset]
  simp [State.busy, hclear]

/-- Settles O53, register by register. -/
theorem registerReads : Obligations.RegisterReads := by
  intro s ts o v hs ht hov
  obtain ⟨c, rfl, rfl⟩ : ∃ c, o = BitVec.ofNat 17 (csrOffset c) ∧ v = csrRead c s := by
    rw [← statusWord_eq, ← errcodeWord_eq] at hov
    simp only [List.mem_cons, Prod.mk.injEq, List.not_mem_nil, or_false] at hov
    obtain h | h | h | h | h | h | h | h | h | h | h | h | h := hov
    exacts [⟨.id, h⟩, ⟨.capIntBits, h⟩, ⟨.capMaxLen, h⟩, ⟨.capBufBytes, h⟩, ⟨.ctrl, h⟩, ⟨.status, h⟩, ⟨.errcode, h⟩,
      ⟨.cmd, h⟩, ⟨.src, h⟩, ⟨.dst, h⟩, ⟨.len, h⟩, ⟨.radix, h⟩, ⟨.keyLen, h⟩]
  exact step_readCsr c hs ht

/-- Settles O54, register by register. -/
theorem registerWritesWhileIdle : Obligations.RegisterWritesWhileIdle := by
  intro s ts v hs hidle
  exact ⟨fun ht => step_writeCsr .cmd hs ht (.inl hidle), fun ht => step_writeCsr .src hs ht (.inl hidle),
    fun ht => step_writeCsr .dst hs ht (.inl hidle), fun ht => step_writeCsr .len hs ht (.inl hidle),
    fun ht => step_writeCsr .radix hs ht (.inl hidle)⟩

/-- Settles O55: the hazard forbids none of these writes, and none of them stores anything. -/
theorem ignoredWrites : Obligations.IgnoredWrites := by
  intro s ts o v hs ht ho
  obtain ⟨c, rfl, hfree, hkept⟩ : ∃ c, o = BitVec.ofNat 17 (csrOffset c) ∧ hazardous (.csr c) = false ∧
      ∀ u, csrWrite c v u = u := by
    obtain ho | ⟨ho, hv⟩ := ho
    · simp only [List.mem_cons, List.not_mem_nil, or_false] at ho
      obtain h | h | h | h | h | h | h := ho
      exacts [⟨.id, h, rfl, fun _ => rfl⟩, ⟨.capIntBits, h, rfl, fun _ => rfl⟩, ⟨.capMaxLen, h, rfl, fun _ => rfl⟩,
        ⟨.capBufBytes, h, rfl, fun _ => rfl⟩, ⟨.status, h, rfl, fun _ => rfl⟩, ⟨.errcode, h, rfl, fun _ => rfl⟩,
        ⟨.keyLen, h, rfl, fun _ => rfl⟩]
    · exact ⟨.ctrl, ho, rfl, fun u => by rw [csrWrite, if_neg (by rw [hv]; decide)]⟩
  rw [step_writeCsr c hs ht (.inr hfree), hkept]

/-- Settles O56: no register of the map is at these offsets, so a read answers 0 and a write does nothing. -/
theorem reservedOffsets : Obligations.ReservedOffsets := by
  intro s ts o hs halign hlo hhi
  have ho : aligned o = true := by simpa [aligned] using halign
  have htarget : targetOf o = .reserved := targetOf_eq_reserved hlo (by rw [windowBase]; omega)
  refine ⟨fun ht => ?_, fun v ht => ?_⟩
  · rw [step_hostRead hs ht ho, hostRead, htarget]
    rfl
  · rw [step_hostWrite hs ht ho, hostWrite, htarget]
    simp [hazardous]

end Sys2Proof.Machine
end

section
/-!
What a command cannot see (spec/10_state.md R35, R55): two runs of one command from states that differ in PENDING, ERR,
ERRCODE and hidden key bytes make the same writes. The step of the machine follows.
-/

namespace Sys2Proof.Machine

/-! ### One command from two states -/

/-- One write of a command, made in each of two states. -/
inductive SameWrite (s t : State) : State → State → Prop where
  | nothing : SameWrite s t s t
  | reg (r : Reg) (v : Int) :
      SameWrite s t { s with regs := s.regs.set r (some v) } { t with regs := t.regs.set r (some v) }
  | bytes (a : Nat) (bs : List Byte) : SameWrite s t (memWrite s a bs) (memWrite t a bs)
  | key (k : KeyLen) (bs : List Byte) : SameWrite s t (setKey s k bs) (setKey t k bs)

/-- Two computations that stop alike, or answer related values. -/
inductive SameCmd {α : Type} (R : α → α → Prop) : Cmd α → Cmd α → Prop where
  | stop (e : Stop) : SameCmd R (.error e) (.error e)
  | ok {a b : α} (h : R a b) : SameCmd R (.ok a) (.ok b)

/-- Computations with one first part are alike when their second parts are. -/
theorem SameCmd.bind {α β : Type} {R : β → β → Prop} (x : Cmd α) {f g : α → Cmd β}
    (h : ∀ a, SameCmd R (f a) (g a)) : SameCmd R (x >>= f) (x >>= g) := by
  cases x with
  | error e => exact .stop e
  | ok a => exact h a

/-- Two outcomes are commits, each in its own state, of computations that make the same writes. -/
def SameCommit (s t : State) (x y : Host.Outcome State Fault Refusal) : Prop :=
  ∃ a b, x = commit s a ∧ y = commit t b ∧ SameCmd (SameWrite s t) a b

theorem SameCmd.commit {s t : State} {a b : Cmd State} (h : SameCmd (SameWrite s t) a b) :
    SameCommit s t (commit s a) (commit t b) := ⟨a, b, rfl, rfl, h⟩

section

variable (s : State) (k : Vector Byte 32) (p : Option Word) (e : Bool) (c : BitVec 3)

/-- `s` with the parts that no command reads replaced; of KEY a command reads the bytes below KEYLEN. -/
def withUnread : State := { s with key := k, pending := p, err := e, errcode := c }

/-- A register write is the same write, or the same error (R32). -/
theorem writeReg_withUnread (r : Reg) (v : Int) :
    SameCmd (SameWrite s (withUnread s k p e c)) (writeReg s r v) (writeReg (withUnread s k p e c) r v) := by
  cases h : inRange s.cfg v with
  | true =>
    rw [writeReg_eq_ok.mpr ⟨h, rfl⟩, writeReg_eq_ok (s := withUnread s k p e c).mpr ⟨h, rfl⟩]
    exact .ok (.reg r v)
  | false =>
    rw [writeReg_eq_error.mpr ⟨h, rfl⟩, writeReg_eq_error (s := withUnread s k p e c).mpr ⟨h, rfl⟩]
    exact .stop _

theorem binaryOp_withUnread (op : Int → Int → Int) (rd rs1 rs2 : Reg) :
    SameCmd (SameWrite s (withUnread s k p e c)) (binaryOp op rd rs1 rs2 s)
      (binaryOp op rd rs1 rs2 (withUnread s k p e c)) :=
  .bind (readReg s rs1) fun _ => .bind (readReg s rs2) fun _ => writeReg_withUnread ..

/-- A command reads neither PENDING, ERR and ERRCODE nor the key bytes at and beyond KEYLEN (R55, R35). -/
theorem exec_withUnread (i : Instr) (hk : loadedKey (withUnread s k p e c) = loadedKey s) :
    SameCommit s (withUnread s k p e c) (exec i s) (exec i (withUnread s k p e c)) := by
  cases i with
  | nop => exact SameCmd.commit (.ok .nothing)
  | keyclr => exact SameCmd.commit (.ok (.key .empty []))
  | keyld =>
    exact SameCmd.commit (.bind (checkKeyLen _) fun n => .bind (checkBounds ..) fun _ => .bind (memRead s ..) fun bs =>
      .ok (.key n bs))
  | ciph =>
    simp only [exec, execCiph, hk]
    exact SameCmd.commit (.bind (loadedKey s) fun _ => .bind (checkBlockLen ..) fun _ => .bind (checkBounds ..) fun _ =>
      .bind (checkBounds ..) fun _ => .bind (memRead s ..) fun _ => .ok (.bytes _ _))
  | prf =>
    simp only [exec, execPrf, hk]
    exact SameCmd.commit (.bind (loadedKey s) fun _ => .bind (checkBlockLen ..) fun _ => .bind (checkBounds ..) fun _ =>
      .bind (checkBounds ..) fun _ => .bind (memRead s ..) fun _ => .ok (.bytes _ _))
  | num r esz =>
    exact SameCmd.commit (.bind (checkRadix ..) fun _ => .bind (checkLen ..) fun _ => .bind (checkBounds ..) fun _ =>
      .bind (memRead s ..) fun _ => .bind (check ..) fun _ => writeReg_withUnread ..)
  | str r esz =>
    exact SameCmd.commit (.bind (readReg s r) fun _ => .bind (checkRadix ..) fun _ => .bind (checkLen ..) fun _ =>
      .bind (checkBounds ..) fun _ => .bind (check ..) fun _ => .ok (.bytes _ _))
  | numb r =>
    exact SameCmd.commit (.bind (checkLen ..) fun _ => .bind (checkBounds ..) fun _ =>
      .bind (memRead s ..) fun _ => writeReg_withUnread ..)
  | bstr r =>
    exact SameCmd.commit (.bind (readReg s r) fun _ => .bind (check ..) fun _ => .bind (checkBounds ..) fun _ =>
      .bind (check ..) fun _ => .bind (check ..) fun _ => .ok (.bytes _ _))
  | add rd rs1 rs2 => exact SameCmd.commit (binaryOp_withUnread s k p e c _ rd rs1 rs2)
  | sub rd rs1 rs2 => exact SameCmd.commit (binaryOp_withUnread s k p e c _ rd rs1 rs2)
  | mul rd rs1 rs2 => exact SameCmd.commit (binaryOp_withUnread s k p e c _ rd rs1 rs2)
  | mod rd rs1 rs2 =>
    exact SameCmd.commit (.bind (readReg s rs1) fun _ => .bind (readReg s rs2) fun _ => .bind (check ..) fun _ =>
      writeReg_withUnread ..)
  | ldi rd imm => exact SameCmd.commit (writeReg_withUnread s k p e c rd _)

end

/-- Two commits of the same writes have related outcomes when their completions and their errors are related. -/
theorem SameCommit.sameOutcome {R : State → State → Prop} {s t : State} {x y : Host.Outcome State Fault Refusal}
    (h : SameCommit s t x y) (hok : ∀ u v, SameWrite s t u v → R (complete u) (complete v))
    (herr : ∀ e, R (raise e s) (raise e t)) : SameOutcome R x y := by
  obtain ⟨a, b, rfl, rfl, hab⟩ := h
  cases hab with
  | ok huv => exact hok _ _ huv
  | stop x =>
    cases x with
    | raises e => exact herr e
    | faults f => exact rfl

theorem eq_of_sameOutcome_eq {x y : Host.Outcome State Fault Refusal} (h : SameOutcome Eq x y) : x = y := by
  cases x <;> cases y <;> simp_all [SameOutcome]

/-- Settles O50: the writes of a command are the same, and its completion or error overwrites the flags. -/
theorem noCommandReadsAFlag : Obligations.NoCommandReadsAFlag := by
  refine ⟨fun i s p e c => ?_, fun _ => busy_iff, fun _ => keyv_iff⟩
  have h := exec_withUnread s s.key p e c i rfl
  refine (eq_of_sameOutcome_eq (h.sameOutcome (fun u v huv => ?_) fun _ => rfl)).symm
  cases huv <;> rfl

/-! ### The step from two states that differ in hidden key bytes -/

/-- `s` with another KEY. -/
def rekeyed (s : State) (k : Vector Byte 32) : State := withUnread s k s.pending s.err s.errcode

/-- `k` agrees with KEY below KEYLEN (R35). -/
def AgreesBelowKeyLen (s : State) (k : Vector Byte 32) : Prop :=
  ∀ i : Fin 32, i.val < s.keyLen.bytes → k[i] = s.key[i]

section

variable (s : State) (k : Vector Byte 32)

@[simp] theorem rekeyed_cfg : (rekeyed s k).cfg = s.cfg := rfl
@[simp] theorem rekeyed_buf : (rekeyed s k).buf = s.buf := rfl
@[simp] theorem rekeyed_pending : (rekeyed s k).pending = s.pending := rfl
@[simp] theorem rekeyed_busy : (rekeyed s k).busy = s.busy := rfl
@[simp] theorem rekeyed_draws : (rekeyed s k).draws = s.draws := rfl
@[simp] theorem rekeyed_stopped : (rekeyed s k).stopped = s.stopped := rfl

/-- No register reads as a key byte (R40, R53). -/
@[simp] theorem csrRead_rekeyed (c : Csr) : csrRead c (rekeyed s k) = csrRead c s := by
  cases c <;> rfl

theorem sameButHiddenKey_refl : SameButHiddenKey s s := ⟨rfl, fun _ _ => rfl⟩

theorem softReset_rekeyed : softReset (rekeyed s k) = softReset s := rfl

end

section

variable {s : State} {k : Vector Byte 32} (hk : AgreesBelowKeyLen s k)
include hk

/-- The AES key is read from the bytes below KEYLEN alone (R35). -/
theorem loadedKey_rekeyed : loadedKey (rekeyed s k) = loadedKey s := by
  have htake : k.toList.take s.keyLen.bytes = s.key.toList.take s.keyLen.bytes := by
    refine List.ext_getElem (by simp) fun i hi _ => ?_
    simp only [List.length_take, Vector.length_toList] at hi
    simpa using hk ⟨i, by omega⟩ (by simp only; omega)
  simp [loadedKey, rekeyed, withUnread, htake]

theorem exec_rekeyed (i : Instr) : SameOutcome SameButHiddenKey (exec i s) (exec i (rekeyed s k)) := by
  refine (exec_withUnread s k _ _ _ i (loadedKey_rekeyed hk)).sameOutcome ?_ fun _ => ⟨rfl, hk⟩
  intro u v huv
  cases huv with
  | nothing | reg | bytes => exact ⟨rfl, hk⟩
  | key n bs => exact sameButHiddenKey_refl _

theorem runCommand_rekeyed (w : Word) :
    SameOutcome SameButHiddenKey (runCommand w s) (runCommand w (rekeyed s k)) := by
  unfold runCommand
  cases decode w with
  | none => exact ⟨rfl, hk⟩
  | some i =>
    have h := exec_rekeyed hk i
    dsimp only
    revert h
    cases exec i s <;> cases exec i (rekeyed s k) <;> intro h
    case next.next => exact h
    case fault.fault => cases h; exact ⟨rfl, hk⟩
    case refused.refused => exact h
    all_goals exact h.elim

theorem coreTurn_rekeyed : SameOutcome SameButHiddenKey (coreTurn s) (coreTurn (rekeyed s k)) := by
  simp only [coreTurn, rekeyed_stopped, rekeyed_pending]
  cases s.stopped with
  | some f => exact rfl
  | none =>
    cases s.pending with
    | none => exact ⟨rfl, hk⟩
    | some w => exact runCommand_rekeyed hk w

theorem windowRead_rekeyed (a : Nat) : SameButHiddenKey (windowRead a s) (windowRead a (rekeyed s k)) := by
  unfold windowRead
  rw [rekeyed_busy, rekeyed_cfg, rekeyed_buf, rekeyed_draws]
  split_ifs
  · exact ⟨rfl, hk⟩
  · cases s.buf.readRange a 4 <;> exact ⟨rfl, hk⟩
  · exact ⟨rfl, hk⟩

theorem hostRead_rekeyed (o : BitVec 17) : SameButHiddenKey (hostRead o s) (hostRead o (rekeyed s k)) := by
  simp only [hostRead, csrRead_rekeyed]
  cases targetOf o with
  | csr | reserved => exact ⟨rfl, hk⟩
  | window a => exact windowRead_rekeyed hk a

theorem csrWrite_rekeyed (c : Csr) (v : Word) :
    SameButHiddenKey (csrWrite c v s) (csrWrite c v (rekeyed s k)) := by
  cases c with
  | ctrl =>
    simp only [csrWrite, softReset_rekeyed]
    split_ifs
    · exact sameButHiddenKey_refl _
    · exact ⟨rfl, hk⟩
  | id | capIntBits | capMaxLen | capBufBytes | status | errcode | keyLen | cmd | src | dst | len | radix =>
    exact ⟨rfl, hk⟩

theorem windowWrite_rekeyed (a : Nat) (v : Word) :
    SameButHiddenKey (windowWrite a v s) (windowWrite a v (rekeyed s k)) := by
  unfold windowWrite
  rw [rekeyed_cfg]
  split_ifs <;> exact ⟨rfl, hk⟩

theorem hostWrite_rekeyed (o : BitVec 17) (v : Word) :
    SameButHiddenKey (hostWrite o v s) (hostWrite o v (rekeyed s k)) := by
  unfold hostWrite
  rw [rekeyed_busy]
  split_ifs
  · exact ⟨rfl, hk⟩
  · cases targetOf o with
    | csr c => exact csrWrite_rekeyed hk c v
    | reserved => exact ⟨rfl, hk⟩
    | window a => exact windowWrite_rekeyed hk a v

theorem hostTurn_rekeyed (m : Turn) :
    SameOutcome SameButHiddenKey (hostTurn m s) (hostTurn m (rekeyed s k)) := by
  cases m with
  | core => exact ⟨rfl, hk⟩
  | hostOther bits o => exact rfl
  | hostRead o =>
    simp only [hostTurn, rekeyed_stopped]
    split_ifs
    · cases s.stopped with
      | some f => exact rfl
      | none => exact hostRead_rekeyed hk o
    · exact rfl
  | hostWrite o v =>
    simp only [hostTurn, rekeyed_stopped, softReset_rekeyed]
    split_ifs
    · cases s.stopped with
      | some f => exact sameButHiddenKey_refl _
      | none => exact hostWrite_rekeyed hk o v
    · cases s.stopped with
      | some f => exact rfl
      | none => exact hostWrite_rekeyed hk o v
    · exact rfl

end

/-- Settles O49: the turn taken is the same, and each kind of turn keeps the two states alike. -/
theorem hiddenKeyBytesAreUnobservable : Obligations.HiddenKeyBytesAreUnobservable := by
  rintro s t ⟨ht, hk⟩
  have ht : t = rekeyed s t.key := ht
  generalize t.key = k at ht hk
  subst ht
  have hk : AgreesBelowKeyLen s.afterTurn k := hk
  have hafter : (rekeyed s k).afterTurn = rekeyed s.afterTurn k := rfl
  obtain hcore | ⟨m, ts, hturns, hm⟩ := turn_cases s
  · rw [step_eq_coreTurn hcore, step_eq_coreTurn (s := rekeyed s k) hcore, hafter]
    exact coreTurn_rekeyed hk
  · rw [step_eq_hostTurn hturns hm, step_eq_hostTurn (s := rekeyed s k) hturns hm, hafter]
    exact hostTurn_rekeyed hk m

end Sys2Proof.Machine
end

section
/-!
The buffer window (spec/20_memory.md R91): which buffer address an access reaches, and what the access does while the
block is idle.
-/

namespace Sys2Proof.Machine

/-! ### Accesses by buffer address -/

/-- Offset `0x10000 + a` reaches buffer address `a` (R91). -/
theorem targetOf_eq_window {o : BitVec 17} {a : Nat} (h : o.toNat = windowBase + a) : targetOf o = .window a := by
  simp [targetOf, h]

section

variable {s : State} {ts : List Turn} {o : BitVec 17} {a : Nat}

/-- A host read at offset `0x10000 + a` reads the window at `a`, busy or not (R91, R312). -/
theorem step_readWindow (hs : s.stopped = none) (halign : o.toNat % 4 = 0) (ho : o.toNat = windowBase + a)
    (ht : s.turns = .hostRead o :: ts) : step s = .next (windowRead a { s with turns := ts }) := by
  rw [step_hostRead hs ht (by simpa [aligned] using halign), hostRead, targetOf_eq_window ho]

/-- While the block is idle, a host write at offset `0x10000 + a` writes the window at `a` (R91). -/
theorem step_writeWindow {v : Word} (hs : s.stopped = none) (hidle : s.pending = none) (halign : o.toNat % 4 = 0)
    (ho : o.toNat = windowBase + a) (ht : s.turns = .hostWrite o v :: ts) :
    step s = .next (windowWrite a v { s with turns := ts }) := by
  rw [step_hostWrite hs ht (by simpa [aligned] using halign), hostWrite, targetOf_eq_window ho]
  simp [State.busy, hidle]

end

/-! ### What a window access answers -/

/-- The big-endian word of four bytes is their sum by places (R85, R91). -/
theorem wordOfBytes_eq (b0 b1 b2 b3 : Byte) : wordOfBytes [b0, b1, b2, b3] =
    BitVec.ofNat 32 (b0.toNat * 2 ^ 24 + b1.toNat * 2 ^ 16 + b2.toNat * 2 ^ 8 + b3.toNat) := by
  have append_toNat {n : Nat} (x : BitVec n) (b : Byte) : (x ++ b).toNat = x.toNat * 2 ^ 8 + b.toNat := by
    rw [BitVec.toNat_append, ← Nat.shiftLeft_add_eq_or_of_lt b.isLt, Nat.shiftLeft_eq]
  refine BitVec.eq_of_toNat_eq ?_
  simp only [wordOfBytes, append_toNat, BitVec.toNat_ofNat]
  omega

/-- A stored byte string stands in the buffer (R84). -/
theorem bytesAt_writeRange (m : Memory) (a : Nat) (bs : List Byte) : BytesAt (m.writeRange a bs) a bs :=
  fun _ h => Memory.read_writeRange_inside m a h

/-- A store keeps every byte outside its range (R84). -/
theorem keptOutside_writeRange (m : Memory) (a : Nat) (bs : List Byte) :
    KeptOutside a bs.length m (m.writeRange a bs) :=
  fun _ h => Memory.read_writeRange_outside m h

section

variable {s : State} {a : Nat} (hidle : s.pending = none)
include hidle

/-- A read of four written bytes answers their word (R91). -/
theorem windowRead_written {b0 b1 b2 b3 : Byte} (hin : a + 4 ≤ s.cfg.bufBytes)
    (hbs : BytesAt s.buf a [b0, b1, b2, b3]) : windowRead a s = reply s (BitVec.ofNat 32
      (b0.toNat * 2 ^ 24 + b1.toNat * 2 ^ 16 + b2.toNat * 2 ^ 8 + b3.toNat)) := by
  have hread : s.buf.readRange a 4 = some [b0, b1, b2, b3] := Memory.readRange_eq_some.mpr ⟨rfl, hbs⟩
  simp [windowRead, State.busy, hidle, hin, hread, wordOfBytes_eq]

/-- A read of an unwritten byte is a model fault (R83, R91). -/
theorem windowRead_unwritten (hin : a + 4 ≤ s.cfg.bufBytes) (hun : Unwritten s.buf a 4) :
    windowRead a s = recordFault s (.uninitRead a 4) := by
  simp [windowRead, State.busy, hidle, hin, Memory.readRange_eq_none.mpr hun]

/-- A read beyond the buffer answers 0 (R91). -/
theorem windowRead_beyond (hout : s.cfg.bufBytes ≤ a) : windowRead a s = reply s 0#32 := by
  have hnotin : ¬a + 4 ≤ s.cfg.bufBytes := by omega
  simp [windowRead, State.busy, hidle, hnotin]

end

theorem windowWrite_inside {s : State} {a : Nat} (v : Word) (hin : a + 4 ≤ s.cfg.bufBytes) :
    windowWrite a v s = memWrite s a (bytesOfWord v) := if_pos hin

theorem windowWrite_beyond {s : State} {a : Nat} (v : Word) (hout : s.cfg.bufBytes ≤ a) :
    windowWrite a v s = s := if_neg (by omega)

/-- No aligned word straddles the end of a legal buffer, whose size is a multiple of 16 (R7, R91). -/
theorem inside_or_beyond {c : Config} {a : Nat} (hc : c.wf = true) (ha : a % 4 = 0) :
    a + 4 ≤ c.bufBytes ∨ c.bufBytes ≤ a := by
  have hsize : c.bufBytes % 16 = 0 := by simp only [Config.wf, Bool.and_eq_true, decide_eq_true_eq] at hc; tauto
  omega

/-- Settles O57: the step is the window access at `a`, and each clause is one case of that access. -/
theorem bufferWindowWhileIdle : Obligations.BufferWindowWhileIdle := by
  intro s ts o a hwf hs hidle halign ho
  have hread (ht : s.turns = .hostRead o :: ts) := step_readWindow hs halign ho ht
  have hwrite {v : Word} (ht : s.turns = .hostWrite o v :: ts) := step_writeWindow hs hidle halign ho ht
  refine ⟨fun b0 b1 b2 b3 ht hin hbs => ?_, fun ht hin hun => ?_, fun ht hout => ?_, fun v ht hin => ?_,
    fun v ht hout => ?_, inside_or_beyond hwf (by omega)⟩
  · exact (hread ht).trans (congrArg _ (windowRead_written (s := { s with turns := ts }) hidle hin hbs))
  · exact ⟨_, (hread ht).trans (congrArg _ (windowRead_unwritten hidle hin hun))⟩
  · exact (hread ht).trans (congrArg _ (windowRead_beyond hidle hout))
  · exact ⟨_, (hwrite ht).trans (congrArg _ (windowWrite_inside v hin)), bytesAt_writeRange _ _ _,
      keptOutside_writeRange _ a (bytesOfWord v)⟩
  · exact (hwrite ht).trans (congrArg _ (windowWrite_beyond v hout))

end Sys2Proof.Machine
end

section
/-!
The encoding (spec/30_encoding.md R111 to R120): the fields of a word, the five formats and their inverses, and that a word
decodes exactly to the command whose word it is.
-/

namespace Sys2Proof

/-! ### Fields of a word -/

section

variable {n m lo mid : Nat}

/-- A field placed in a word reads back (R112). -/
theorem field_place (x : BitVec n) (h : lo + n ≤ 32) : (place n x lo).extractLsb' lo n = x := by
  refine BitVec.eq_of_getLsbD_eq fun i hi => ?_
  have hin : lo + i < 32 := by omega
  simp [place, hi, hin]

/-- A field placed in a word leaves every field beside it 0 (R112). -/
theorem field_place_beside (x : BitVec n) (h : mid + m ≤ lo ∨ lo + n ≤ mid) :
    (place n x lo).extractLsb' mid m = 0#m := by
  refine BitVec.eq_of_getLsbD_eq fun i hi => ?_
  simp only [place, BitVec.getLsbD_extractLsb', BitVec.getLsbD_shiftLeft, BitVec.getLsbD_setWidth]
  obtain h | h := h
  · have : mid + i < lo := by omega
    simp [this]
  · have : n ≤ mid + i - lo := by omega
    simp [this]

/-- Two neighbouring fields of a word are one field (R112). -/
theorem place_or_place (w : Word) (h : lo + n = mid) :
    place n (w.extractLsb' lo n) lo ||| place m (w.extractLsb' mid m) mid =
      place (n + m) (w.extractLsb' lo (n + m)) lo := by
  subst h
  refine BitVec.eq_of_getLsbD_eq fun i hi => ?_
  simp only [place, BitVec.getLsbD_or, BitVec.getLsbD_extractLsb', BitVec.getLsbD_shiftLeft, BitVec.getLsbD_setWidth]
  grind

/-- A field takes in the neighbouring field when that is 0. -/
theorem place_widen {w : Word} (h : lo + n = mid) (h0 : w.extractLsb' mid m = 0#m) :
    place n (w.extractLsb' lo n) lo = place (n + m) (w.extractLsb' lo (n + m)) lo := by
  rw [← place_or_place w h, h0]
  simp [place]

/-- A word is its low field when the rest of it is 0. -/
theorem place_low {w : Word} (h : n + m = 32) (h0 : w.extractLsb' n m = 0#m) : place n (w.extractLsb' 0 n) 0 = w := by
  rw [place_widen (Nat.zero_add n) h0, h]
  simp [place]

end

/-! ### Operand fields -/

@[simp] theorem regBits_regField (w : Word) (lo : Nat) : regBits (regField w lo) = w.extractLsb' lo 4 :=
  BitVec.ofNat_toNat .. |>.trans (BitVec.setWidth_eq _)

@[simp] theorem regBits_toNat (r : Reg) : (regBits r).toNat = r.val := by
  have := r.isLt
  simp [regBits]

@[simp] theorem eszBit_eszField (w : Word) : eszBit (eszField w) = w.extractLsb' 16 1 := by
  unfold eszField
  generalize w.extractLsb' 16 1 = b
  revert b
  decide

@[simp] theorem eszBit_eq_zero {esz : ElemSize} : eszBit esz = 0#1 ↔ esz = .byte := by
  cases esz <;> decide

/-! ### The words of the formats read back -/

section

variable (op : Byte) (rd rs1 rs2 : Reg) (esz : ElemSize) (imm : BitVec 16)

@[simp] theorem opcodeField_wordN : opcodeField (wordN op) = op := by
  simp [opcodeField, wordN, field_place]

@[simp] theorem opcodeField_wordR : opcodeField (wordR op rd rs1 rs2) = op := by
  simp [opcodeField, wordR, BitVec.extractLsb'_or, field_place, field_place_beside]

@[simp] theorem opcodeField_wordC : opcodeField (wordC op rd esz) = op := by
  simp [opcodeField, wordC, BitVec.extractLsb'_or, field_place, field_place_beside]

@[simp] theorem opcodeField_wordB : opcodeField (wordB op rd) = op := by
  simp [opcodeField, wordB, BitVec.extractLsb'_or, field_place, field_place_beside]

@[simp] theorem opcodeField_wordI : opcodeField (wordI op rd imm) = op := by
  simp [opcodeField, wordI, BitVec.extractLsb'_or, field_place, field_place_beside]

/-- Format N (R113). -/
@[simp] theorem formatN_wordN (i : Instr) : formatN (wordN op) i = .ok i := by
  simp [formatN, wordN, field_place_beside, unlessReserved]

/-- Format R (R114). -/
@[simp] theorem formatR_wordR (mk : Reg → Reg → Reg → Instr) :
    formatR (wordR op rd rs1 rs2) mk = .ok (mk rd rs1 rs2) := by
  simp [formatR, wordR, BitVec.extractLsb'_or, field_place, field_place_beside, regField, unlessReserved]

/-- Format C (R115). -/
@[simp] theorem formatC_wordC (mk : Reg → ElemSize → Instr) : formatC (wordC op rd esz) mk = .ok (mk rd esz) := by
  simp [formatC, wordC, BitVec.extractLsb'_or, field_place, field_place_beside, regField, eszField,
    unlessReserved]
  cases esz <;> rfl

/-- Format B (R116). -/
@[simp] theorem formatB_wordB (mk : Reg → Instr) : formatB (wordB op rd) mk = .ok (mk rd) := by
  simp [formatB, wordB, BitVec.extractLsb'_or, field_place, field_place_beside, regField, unlessReserved]

/-- Format I (R117). -/
@[simp] theorem formatI_wordI (mk : Reg → BitVec 16 → Instr) :
    formatI (wordI op rd imm) mk = .ok (mk rd imm) := by
  simp [formatI, wordI, BitVec.extractLsb'_or, field_place, field_place_beside, regField, unlessReserved]

end

/-! ### A word is made of its fields -/

/-- Format N (R113). -/
theorem wordN_fields {w : Word} (h : w.extractLsb' 8 24 = 0#24) : wordN (opcodeField w) = w := place_low rfl h

/-- Format R (R114). -/
theorem wordR_fields {w : Word} (h : w.extractLsb' 20 12 = 0#12) :
    wordR (opcodeField w) (regField w 8) (regField w 12) (regField w 16) = w := by
  simp only [wordR, opcodeField, regBits_regField]
  rw [place_or_place w rfl, place_or_place w rfl, place_or_place w rfl, place_low rfl h]

/-- Format C (R115). -/
theorem wordC_fields {w : Word} (h12 : w.extractLsb' 12 4 = 0#4) (h17 : w.extractLsb' 17 15 = 0#15) :
    wordC (opcodeField w) (regField w 8) (eszField w) = w := by
  simp only [wordC, opcodeField, regBits_regField, eszBit_eszField]
  rw [place_or_place w rfl, place_widen rfl h12, place_or_place w rfl, place_low rfl h17]

/-- Format B (R116). -/
theorem wordB_fields {w : Word} (h : w.extractLsb' 12 20 = 0#20) : wordB (opcodeField w) (regField w 8) = w := by
  simp only [wordB, opcodeField, regBits_regField]
  rw [place_or_place w rfl, place_low rfl h]

/-- Format I (R117). -/
theorem wordI_fields {w : Word} (h : w.extractLsb' 12 4 = 0#4) :
    wordI (opcodeField w) (regField w 8) (w.extractLsb' 16 16) = w := by
  simp only [wordI, opcodeField, regBits_regField]
  rw [place_or_place w rfl, place_widen rfl h, place_or_place w rfl, place_low rfl BitVec.of_length_zero]

/-! ### The formats answer only for their own words -/

section

variable {w : Word} {op : Byte} {i : Instr}

theorem unlessReserved_eq_ok {b : Bool} {j : Instr} : unlessReserved b j = .ok i ↔ b = true ∧ j = i := by
  cases b <;> simp [unlessReserved]

theorem encode_of_formatN (hop : opcodeField w = op) {j : Instr} (hj : encode j = wordN op)
    (h : formatN w j = .ok i) : encode i = w := by
  obtain ⟨h0, rfl⟩ := unlessReserved_eq_ok.mp h
  rw [hj, ← hop, wordN_fields (by simpa using h0)]

theorem encode_of_formatR (hop : opcodeField w = op) {mk : Reg → Reg → Reg → Instr}
    (hmk : ∀ rd rs1 rs2, encode (mk rd rs1 rs2) = wordR op rd rs1 rs2) (h : formatR w mk = .ok i) :
    encode i = w := by
  obtain ⟨h0, rfl⟩ := unlessReserved_eq_ok.mp h
  rw [hmk, ← hop, wordR_fields (by simpa using h0)]

theorem encode_of_formatC (hop : opcodeField w = op) {mk : Reg → ElemSize → Instr}
    (hmk : ∀ r esz, encode (mk r esz) = wordC op r esz) (h : formatC w mk = .ok i) : encode i = w := by
  obtain ⟨h0, rfl⟩ := unlessReserved_eq_ok.mp h
  obtain ⟨h12, h17⟩ : w.extractLsb' 12 4 = 0#4 ∧ w.extractLsb' 17 15 = 0#15 := by simpa using h0
  rw [hmk, ← hop, wordC_fields h12 h17]

theorem encode_of_formatB (hop : opcodeField w = op) {mk : Reg → Instr} (hmk : ∀ r, encode (mk r) = wordB op r)
    (h : formatB w mk = .ok i) : encode i = w := by
  obtain ⟨h0, rfl⟩ := unlessReserved_eq_ok.mp h
  rw [hmk, ← hop, wordB_fields (by simpa using h0)]

theorem encode_of_formatI (hop : opcodeField w = op) {mk : Reg → BitVec 16 → Instr}
    (hmk : ∀ rd imm, encode (mk rd imm) = wordI op rd imm) (h : formatI w mk = .ok i) : encode i = w := by
  obtain ⟨h0, rfl⟩ := unlessReserved_eq_ok.mp h
  rw [hmk, ← hop, wordI_fields (by simpa using h0)]

end

/-! ### The decoder -/

theorem decode_eq_some {w : Word} {i : Instr} : decode w = some i ↔ decodeNamed w = .ok i := by
  unfold decode
  cases decodeNamed w <;> simp

theorem decodeNamed_encode (i : Instr) : decodeNamed (encode i) = .ok i := by
  cases i <;> simp [encode, decodeNamed]

/-- What holds of the answers of both branches of an opcode test holds of the test's answers. -/
theorem ite_eq_ok {c : Prop} [Decidable c] {x y : Except DecodeReject Instr} {i : Instr} {p : Prop}
    (hx : c → x = .ok i → p) (hy : y = .ok i → p) (h : (if c then x else y) = .ok i) : p := by
  split_ifs at h with hc
  · exact hx hc h
  · exact hy h

theorem encode_of_decodeNamed {w : Word} {i : Instr} : decodeNamed w = .ok i → encode i = w :=
  ite_eq_ok (fun nop => encode_of_formatN nop rfl) <|
  ite_eq_ok (fun keyld => encode_of_formatN keyld rfl) <|
  ite_eq_ok (fun keyclr => encode_of_formatN keyclr rfl) <|
  ite_eq_ok (fun ciph => encode_of_formatN ciph rfl) <|
  ite_eq_ok (fun prf => encode_of_formatN prf rfl) <|
  ite_eq_ok (fun num => encode_of_formatC num fun _ _ => rfl) <|
  ite_eq_ok (fun str => encode_of_formatC str fun _ _ => rfl) <|
  ite_eq_ok (fun numb => encode_of_formatB numb fun _ => rfl) <|
  ite_eq_ok (fun bstr => encode_of_formatB bstr fun _ => rfl) <|
  ite_eq_ok (fun add => encode_of_formatR add fun _ _ _ => rfl) <|
  ite_eq_ok (fun sub => encode_of_formatR sub fun _ _ _ => rfl) <|
  ite_eq_ok (fun mul => encode_of_formatR mul fun _ _ _ => rfl) <|
  ite_eq_ok (fun mod => encode_of_formatR mod fun _ _ _ => rfl) <|
  ite_eq_ok (fun ldi => encode_of_formatI ldi fun _ _ => rfl) nofun

/-- Settles O1: each format reads its operands back from the word it makes. -/
theorem encodeThenDecode : Obligations.EncodeThenDecode :=
  fun i => decode_eq_some.mpr (decodeNamed_encode i)

/-- Settles O2: the opcode fixes the format, and a word whose reserved fields are 0 is made of its fields. -/
theorem decodeThenEncode : Obligations.DecodeThenEncode :=
  fun _ _ h => encode_of_decodeNamed (decode_eq_some.mp h)

/-- Settles O4 by evaluating the decoder on each word. -/
theorem writtenWordsDecode : Obligations.WrittenWordsDecode := by
  unfold Obligations.WrittenWordsDecode
  decide

/-- A word decodes to a command exactly when it is the command's word (R111). -/
theorem decode_iff_encode {w : Word} {i : Instr} : decode w = some i ↔ encode i = w :=
  ⟨decodeThenEncode w i, fun h => h ▸ encodeThenDecode i⟩

end Sys2Proof
end

section
/-!
The opcode map (spec/30_encoding.md R111, R119): a row fixes the opcode and the reserved fields of the words it matches, so a
word matches the row of a mnemonic exactly when it is the word of a command of that mnemonic.
-/

namespace Sys2Proof

/-! ### What a match fixes -/

/-- A field that the mask covers whole is fixed by the match (R111). -/
theorem field_of_and_mask {w mask pattern : Word} {lo n : Nat} (h : w &&& mask = pattern)
    (hmask : mask.extractLsb' lo n = BitVec.allOnes n) : w.extractLsb' lo n = pattern.extractLsb' lo n := by
  rw [← h, BitVec.extractLsb'_and, hmask, BitVec.and_allOnes]

/-- Every row fixes the opcode field (R119). -/
theorem opcodeField_of_matches {w : Word} {row : OpcodeRow} (hrow : row ∈ opcodeTable)
    (h : row.matchesWord w = true) : opcodeField w = opcodeField row.pattern := by
  have hmask : ∀ row ∈ opcodeTable, opcodeField row.mask = BitVec.allOnes 8 := by decide
  exact field_of_and_mask (by simpa [OpcodeRow.matchesWord] using h) (hmask row hrow)

/-- At most one row of the map matches a word: no two rows have one opcode (R119). -/
theorem row_unique {w : Word} {row row' : OpcodeRow} (hrow : row ∈ opcodeTable) (hrow' : row' ∈ opcodeTable)
    (h : row.matchesWord w = true) (h' : row'.matchesWord w = true) : row = row' := by
  have hnodup : (opcodeTable.map fun row => opcodeField row.pattern).Nodup := by decide
  exact List.inj_on_of_nodup_map hnodup hrow hrow'
    ((opcodeField_of_matches hrow h).symm.trans (opcodeField_of_matches hrow' h'))

/-! ### The words that a row of each format matches -/

section

variable {w : Word} {op : Byte}

/-- The opcode of a word that masks to its opcode alone. -/
theorem opcodeField_of_and_mask {mask : Word} (h : w &&& mask = wordN op)
    (hmask : mask.extractLsb' 0 8 = BitVec.allOnes 8) : opcodeField w = op :=
  (field_of_and_mask h hmask).trans (opcodeField_wordN op)

/-- The reserved fields of a word that masks to its opcode alone. -/
theorem reserved_of_and_mask {mask : Word} {lo n : Nat} (h : w &&& mask = wordN op)
    (hmask : mask.extractLsb' lo n = BitVec.allOnes n) (hlo : 8 ≤ lo) : w.extractLsb' lo n = 0#n :=
  (field_of_and_mask h hmask).trans (field_place_beside op (.inr hlo))

theorem exists_wordR (h : w &&& 0xFFF000FF#32 = wordN op) : ∃ rd rs1 rs2, wordR op rd rs1 rs2 = w := by
  obtain rfl : opcodeField w = op := opcodeField_of_and_mask h (by decide)
  exact ⟨_, _, _, wordR_fields (reserved_of_and_mask h (by decide) (by decide))⟩

theorem exists_wordC (h : w &&& 0xFFFEF0FF#32 = wordN op) : ∃ r esz, wordC op r esz = w := by
  obtain rfl : opcodeField w = op := opcodeField_of_and_mask h (by decide)
  exact ⟨_, _, wordC_fields (reserved_of_and_mask h (by decide) (by decide))
    (reserved_of_and_mask h (by decide) (by decide))⟩

theorem exists_wordB (h : w &&& 0xFFFFF0FF#32 = wordN op) : ∃ r, wordB op r = w := by
  obtain rfl : opcodeField w = op := opcodeField_of_and_mask h (by decide)
  exact ⟨_, wordB_fields (reserved_of_and_mask h (by decide) (by decide))⟩

theorem exists_wordI (h : w &&& 0x0000F0FF#32 = wordN op) : ∃ rd imm, wordI op rd imm = w := by
  obtain rfl : opcodeField w = op := opcodeField_of_and_mask h (by decide)
  exact ⟨_, _, wordI_fields (reserved_of_and_mask h (by decide) (by decide))⟩

end

/-! ### The map and the commands -/

/-- The word of a command matches the row of its mnemonic (R119). -/
theorem exists_row_of_encode (i : Instr) :
    ∃ row ∈ opcodeTable, row.mnemonic = mnemonicOf i ∧ row.matchesWord (encode i) = true := by
  cases i with
  | nop => exact Laws.RowMatch.nop
  | keyld => exact Laws.RowMatch.keyld
  | keyclr => exact Laws.RowMatch.keyclr
  | ciph => exact Laws.RowMatch.ciph
  | prf => exact Laws.RowMatch.prf
  | num r esz => exact Laws.RowMatch.num r esz
  | str r esz => exact Laws.RowMatch.str r esz
  | numb r => exact Laws.RowMatch.numb r
  | bstr r => exact Laws.RowMatch.bstr r
  | add rd rs1 rs2 => exact Laws.RowMatch.add rd rs1 rs2
  | sub rd rs1 rs2 => exact Laws.RowMatch.sub rd rs1 rs2
  | mul rd rs1 rs2 => exact Laws.RowMatch.mul rd rs1 rs2
  | mod rd rs1 rs2 => exact Laws.RowMatch.mod rd rs1 rs2
  | ldi rd imm => exact Laws.RowMatch.ldi rd imm

/-- `w` is the word of a command of the mnemonic `name`. -/
def IsWordOf (name : String) (w : Word) : Prop := ∃ i, encode i = w ∧ mnemonicOf i = name

/-- A word that a row matches is the word of a command of the row's mnemonic (R111, R119). -/
theorem isWordOf_of_matches {w : Word} {row : OpcodeRow} (hrow : row ∈ opcodeTable)
    (h : row.matchesWord w = true) : IsWordOf row.mnemonic w := by
  have hmatch : w &&& row.mask = row.pattern := by simpa [OpcodeRow.matchesWord] using h
  have fixed (i : Instr) (hi : w &&& BitVec.allOnes 32 = encode i) : IsWordOf (mnemonicOf i) w :=
    ⟨i, by rw [← hi, BitVec.and_allOnes], rfl⟩
  simp only [opcodeTable, List.cons_append, List.nil_append, List.mem_cons, List.not_mem_nil, or_false] at hrow
  obtain rfl | rfl | rfl | rfl | rfl | rfl | rfl | rfl | rfl | rfl | rfl | rfl | rfl | rfl := hrow
  · exact fixed .nop hmatch
  · exact fixed .keyld hmatch
  · exact fixed .keyclr hmatch
  · exact fixed .ciph hmatch
  · exact fixed .prf hmatch
  · obtain ⟨r, esz, rfl⟩ := exists_wordC (op := 0x20#8) hmatch
    exact ⟨.num r esz, rfl, rfl⟩
  · obtain ⟨r, esz, rfl⟩ := exists_wordC (op := 0x21#8) hmatch
    exact ⟨.str r esz, rfl, rfl⟩
  · obtain ⟨r, rfl⟩ := exists_wordB (op := 0x22#8) hmatch
    exact ⟨.numb r, rfl, rfl⟩
  · obtain ⟨r, rfl⟩ := exists_wordB (op := 0x23#8) hmatch
    exact ⟨.bstr r, rfl, rfl⟩
  · obtain ⟨rd, rs1, rs2, rfl⟩ := exists_wordR (op := 0x30#8) hmatch
    exact ⟨.add rd rs1 rs2, rfl, rfl⟩
  · obtain ⟨rd, rs1, rs2, rfl⟩ := exists_wordR (op := 0x31#8) hmatch
    exact ⟨.sub rd rs1 rs2, rfl, rfl⟩
  · obtain ⟨rd, rs1, rs2, rfl⟩ := exists_wordR (op := 0x32#8) hmatch
    exact ⟨.mul rd rs1 rs2, rfl, rfl⟩
  · obtain ⟨rd, rs1, rs2, rfl⟩ := exists_wordR (op := 0x33#8) hmatch
    exact ⟨.mod rd rs1 rs2, rfl, rfl⟩
  · obtain ⟨rd, imm, rfl⟩ := exists_wordI (op := 0x40#8) hmatch
    exact ⟨.ldi rd imm, rfl, rfl⟩

/-- A word decodes to a command of a mnemonic exactly when the mnemonic's row matches it (R111). -/
theorem decodes_iff_matches {w : Word} {name : String} :
    (∃ i, decode w = some i ∧ mnemonicOf i = name) ↔
      ∃ row ∈ opcodeTable, row.mnemonic = name ∧ row.matchesWord w = true := by
  simp only [decode_iff_encode]
  constructor
  · rintro ⟨i, rfl, rfl⟩
    exact exists_row_of_encode i
  · rintro ⟨row, hrow, rfl, hmatch⟩
    exact isWordOf_of_matches hrow hmatch

/-- A word that no row matches does not decode (R111, R120). -/
theorem decode_eq_none {w : Word} (h : ∀ row ∈ opcodeTable, row.matchesWord w = false) : decode w = none := by
  by_contra hsome
  obtain ⟨i, hi⟩ := Option.ne_none_iff_exists'.mp hsome
  obtain ⟨row, hrow, -, hmatch⟩ := decodes_iff_matches.mp ⟨i, hi, rfl⟩
  simp [h row hrow] at hmatch

end Sys2Proof
end

section
/-!
The core's step on a pending command (spec/30_encoding.md R110): it is the command's meaning, which completes or stops on
UNINIT_READ and is never refused.
-/

namespace Sys2Proof.Machine

/-! ### The step of the core -/

/-- With a command pending the core's step executes the pending word (R110). -/
theorem step_eq_runCommand {s : State} {w : Word} (hcore : CoreToMove s) (hpend : s.pending = some w) :
    step s = runCommand w s.afterTurn := by
  obtain ⟨hstopped, hturn⟩ := hcore
  rw [step_eq_coreTurn hturn]
  simp [coreTurn, State.afterTurn, hstopped, hpend]

/-- A word that does not decode is reported as ILLEGAL_COMMAND, and nothing else happens (R111, R270). -/
theorem runCommand_of_none {s : State} {w : Word} (h : decode w = none) : runCommand w s = .next (s.failed 6#3) := by
  simp only [runCommand, h]
  rfl

section

variable {s : State} {w : Word} {i : Instr} (hd : decode w = some i)
include hd

theorem runCommand_of_next {t : State} (h : exec i s = .next t) : runCommand w s = .next t := by
  simp [runCommand, hd, h]

/-- A model fault of a command is recorded, and the core stops on it (R110, R280). -/
theorem runCommand_of_fault {f : Fault} (h : exec i s = .fault f) : runCommand w s = .next (s.faulted f) := by
  simp only [runCommand, hd, h]
  rfl

end

/-! ### The faults of a command -/

/-- The only model fault of a computation is UNINIT_READ. -/
def FaultsOnlyUninit {α : Type} (x : Cmd α) : Prop := ∀ f, x = .error (.faults f) → ∃ a n, f = .uninitRead a n

namespace FaultsOnlyUninit

theorem bind {α β : Type} {x : Cmd α} {g : α → Cmd β} (hx : FaultsOnlyUninit x)
    (hg : ∀ a, FaultsOnlyUninit (g a)) : FaultsOnlyUninit (x >>= g) := by
  intro f h
  obtain h | ⟨a, -, h⟩ := bind_eq_error.mp h
  · exact hx f h
  · exact hg a f h

theorem pure {α : Type} {a : α} : FaultsOnlyUninit (Pure.pure a : Cmd α) := nofun

section

variable {s : State} {c : Config}

theorem check {b : Bool} {e : ErrKind} : FaultsOnlyUninit (check b e) := by
  intro f h
  simp [check_eq_error] at h

theorem readReg {r : Reg} : FaultsOnlyUninit (readReg s r) := by
  intro f h
  simp [readReg_eq_error] at h

theorem writeReg {r : Reg} {v : Int} : FaultsOnlyUninit (writeReg s r v) := by
  intro f h
  simp [writeReg_eq_error] at h

theorem loadedKey : FaultsOnlyUninit (loadedKey s) := by
  intro f h
  simp [loadedKey_eq_error] at h

theorem checkKeyLen {n : Nat} : FaultsOnlyUninit (checkKeyLen n) := by
  intro f h
  simp [checkKeyLen_eq_error] at h

/-- Reading a buffer range is the one place where a command can fault (R83). -/
theorem memRead {a n : Nat} : FaultsOnlyUninit (memRead s a n) := by
  intro f h
  obtain ⟨-, hf⟩ := memRead_eq_error.mp h
  exact ⟨a, n, Stop.faults.inj hf⟩

theorem checkLen {n : Nat} : FaultsOnlyUninit (checkLen c n) := check

theorem checkBounds {a n : Nat} : FaultsOnlyUninit (checkBounds c a n) := check

theorem checkRadix {esz : ElemSize} {n : Nat} : FaultsOnlyUninit (checkRadix esz n) := .bind check fun _ => check

theorem checkBlockLen {n : Nat} : FaultsOnlyUninit (checkBlockLen c n) := .bind check fun _ => check

theorem binaryOp {op : Int → Int → Int} {rd rs1 rs2 : Reg} : FaultsOnlyUninit (binaryOp op rd rs1 rs2 s) :=
  .bind readReg fun _ => .bind readReg fun _ => writeReg

end

end FaultsOnlyUninit

/-- Every command is the commit of a computation whose only model fault is UNINIT_READ (R110, R280). -/
theorem exec_eq_commit (i : Instr) (s : State) : ∃ x, exec i s = commit s x ∧ FaultsOnlyUninit x := by
  cases i with
  | nop | keyclr => exact ⟨_, rfl, .pure⟩
  | keyld =>
    exact ⟨_, rfl, .bind .checkKeyLen fun _ => .bind .checkBounds fun _ => .bind .memRead fun _ => .pure⟩
  | ciph | prf =>
    exact ⟨_, rfl, .bind .loadedKey fun _ => .bind .checkBlockLen fun _ => .bind .checkBounds fun _ =>
      .bind .checkBounds fun _ => .bind .memRead fun _ => .pure⟩
  | num =>
    exact ⟨_, rfl, .bind .checkRadix fun _ => .bind .checkLen fun _ => .bind .checkBounds fun _ =>
      .bind .memRead fun _ => .bind .check fun _ => .writeReg⟩
  | str =>
    exact ⟨_, rfl, .bind .readReg fun _ => .bind .checkRadix fun _ => .bind .checkLen fun _ =>
      .bind .checkBounds fun _ => .bind .check fun _ => .pure⟩
  | numb =>
    exact ⟨_, rfl, .bind .checkLen fun _ => .bind .checkBounds fun _ => .bind .memRead fun _ => .writeReg⟩
  | bstr =>
    exact ⟨_, rfl, .bind .readReg fun _ => .bind .check fun _ => .bind .checkBounds fun _ =>
      .bind .check fun _ => .bind .check fun _ => .pure⟩
  | add | sub | mul => exact ⟨_, rfl, .binaryOp⟩
  | mod =>
    exact ⟨_, rfl, .bind .readReg fun _ => .bind .readReg fun _ => .bind .check fun _ => .writeReg⟩
  | ldi => exact ⟨_, rfl, .writeReg⟩

/-- No command is refused. -/
theorem exec_ne_refused (i : Instr) (s : State) (x : Refusal) : exec i s ≠ .refused x := by
  obtain ⟨c, hc, -⟩ := exec_eq_commit i s
  rw [hc]
  exact commit_ne_refused

/-- The only model fault of a command is UNINIT_READ (R280). -/
theorem exec_fault_cases {i : Instr} {s : State} {f : Fault} (h : exec i s = .fault f) :
    ∃ a n, f = .uninitRead a n := by
  obtain ⟨c, hc, hfaults⟩ := exec_eq_commit i s
  exact hfaults f (commit_eq_fault.mp (hc ▸ h))

/-! ### A completed command's report -/

/-- Nothing is pending, and ERR is set exactly when ERRCODE is not 0 (R55, R110). -/
def Reported (t : State) : Prop := t.pending = none ∧ (t.err = true ↔ t.errcode ≠ 0#3)

theorem reported_complete (s : State) : Reported (complete s) := by simp [Reported]

/-- Every error kind has a code other than 0 (R270). -/
theorem reported_raise (e : ErrKind) (s : State) : Reported (raise e s) := by
  cases e <;> simp [Reported, ErrKind.code]

/-- A command that answers a next state has completed (R110). -/
theorem reported_of_exec {i : Instr} {s t : State} (h : exec i s = .next t) : Reported t := by
  obtain ⟨e, -, rfl⟩ | ⟨u, -, rfl⟩ := exec_cases h
  · exact reported_raise e s
  · exact reported_complete u

/-- Executing a word completes, or records UNINIT_READ (R110, R280). -/
theorem runCommand_cases (w : Word) (s : State) :
    ∃ t, runCommand w s = .next t ∧ (Reported t ∨ ∃ a n, t = s.faulted (.uninitRead a n)) := by
  cases hd : decode w with
  | none => exact ⟨_, runCommand_of_none hd, .inl (reported_raise .illegalCommand s)⟩
  | some i =>
    cases hx : exec i s with
    | next t => exact ⟨t, runCommand_of_next hd hx, .inl (reported_of_exec hx)⟩
    | fault f =>
      obtain ⟨a, n, rfl⟩ := exec_fault_cases hx
      exact ⟨_, runCommand_of_fault hd hx, .inr ⟨a, n, rfl⟩⟩
    | refused x => exact absurd hx (exec_ne_refused i s x)

/-- Settles O43: the step executes the pending word. -/
theorem everyCommandCompletesOrFaults : Obligations.EveryCommandCompletesOrFaults := by
  intro s w hcore hpend
  rw [step_eq_runCommand hcore hpend]
  exact runCommand_cases w s.afterTurn

/-- Settles O5: the step executes the pending word, which decodes to the command. -/
theorem stepRunsTheDecodedCommand : Obligations.StepRunsTheDecodedCommand := by
  intro s w i hcore hpend hd
  rw [step_eq_runCommand hcore hpend]
  exact ⟨fun _ => runCommand_of_next hd, fun _ => runCommand_of_fault hd, exec_ne_refused i s.afterTurn⟩

/-- Settles O3: rows differ in their opcodes, a match fixes the reserved fields too, and a word that no row matches does not
decode. -/
theorem decodeIsTheMatchingRow : Obligations.DecodeIsTheMatchingRow := by
  refine ⟨fun _ _ hrow _ hrow' => row_unique hrow hrow', fun _ _ => decodes_iff_matches,
    fun s w hcore hpend hnone => ?_⟩
  rw [step_eq_runCommand hcore hpend]
  exact runCommand_of_none (decode_eq_none hnone)

end Sys2Proof.Machine
end

section
/-!
The pseudo-instructions (spec/30_encoding.md R123): each command of an expansion writes one register, and the writes of the
whole expansion amount to those its name says.
-/

namespace Sys2Proof.Machine

/-! ### One register written -/

/-- The state after a command that completes and writes only `v` to `r` (R110). -/
def State.wrote (s : State) (r : Reg) (v : Int) : State := { s.done with regs := s.regs.set r (some v) }

section

variable (s : State) (r : Reg) (v x : Int)

@[simp] theorem wrote_cfg : (s.wrote r v).cfg = s.cfg := rfl

@[simp] theorem wrote_regs_same : (s.wrote r v).regs[r] = some v := by simp [State.wrote]

theorem wrote_regs_other {r q : Reg} (h : r ≠ q) : (s.wrote r v).regs[q] = s.regs[q] := by
  simp [State.wrote, Fin.val_ne_of_ne h]

/-- The last write of a register counts. -/
@[simp] theorem wrote_wrote : (s.wrote r v).wrote r x = s.wrote r x := by
  simp [State.wrote, State.done]

/-- Writes of two registers may change places. -/
theorem wrote_comm {r q : Reg} (h : r ≠ q) : (s.wrote r v).wrote q x = (s.wrote q x).wrote r v := by
  simp [State.wrote, State.done, Vector.set_comm _ _ (Fin.val_ne_of_ne h)]

end

/-! ### The commands of the expansions -/

/-- The immediate of LDI is in range in every legal configuration (R7, R178). -/
theorem inRange_imm {c : Config} (hc : c.wf = true) (imm : BitVec 16) : inRange c (immValue imm) = true := by
  have hbits : 32 ≤ c.intBits := by simp only [Config.wf, Bool.and_eq_true, decide_eq_true_eq] at hc; tauto
  have hpow : (2 : Int) ^ 31 ≤ 2 ^ (c.intBits - 1) := pow_le_pow_right₀ (by decide) (by omega)
  have himm := imm.isLt
  refine inRange_iff.mpr ⟨?_, ?_⟩ <;> unfold immValue <;> omega

/-- Between 0 and a value in range every value is in range (R32). -/
theorem inRange_of_le {c : Config} {v w : Int} (h0 : 0 ≤ v) (hvw : v ≤ w) (hw : inRange c w = true) :
    inRange c v = true := by
  obtain ⟨-, hhi⟩ := inRange_iff.mp hw
  have hpow : (0 : Int) < 2 ^ (c.intBits - 1) := by positivity
  exact inRange_iff.mpr ⟨by omega, by omega⟩

section

variable {s : State} {rd rs1 rs2 : Reg} {a b : Int}

/-- A register write of a value in range completes (R32, R110). -/
theorem commit_writeReg {v : Int} (hv : inRange s.cfg v = true) :
    commit s (writeReg s rd v) = .next (s.wrote rd v) := by
  rw [writeReg_eq_ok.mpr ⟨hv, rfl⟩]
  rfl

/-- LDI completes in every legal configuration (R178). -/
theorem exec_ldi (hc : s.cfg.wf = true) (rd : Reg) (imm : BitVec 16) :
    exec (.ldi rd imm) s = .next (s.wrote rd imm.toNat) :=
  commit_writeReg (inRange_imm hc imm)

/-- ADD, SUB and MUL of valid sources complete when the result is in range (R170 to R174). -/
theorem commit_binaryOp {op : Int → Int → Int} (h1 : s.regs[rs1] = some a) (h2 : s.regs[rs2] = some b)
    (hv : inRange s.cfg (op a b) = true) : commit s (binaryOp op rd rs1 rs2 s) = .next (s.wrote rd (op a b)) := by
  rw [binaryOp_eq_ok.mpr ⟨a, b, h1, h2, hv, rfl⟩]
  rfl

theorem exec_add (h1 : s.regs[rs1] = some a) (h2 : s.regs[rs2] = some b) (hv : inRange s.cfg (a + b) = true) :
    exec (.add rd rs1 rs2) s = .next (s.wrote rd (a + b)) :=
  commit_binaryOp h1 h2 hv

theorem exec_mul (h1 : s.regs[rs1] = some a) (h2 : s.regs[rs2] = some b) (hv : inRange s.cfg (a * b) = true) :
    exec (.mul rd rs1 rs2) s = .next (s.wrote rd (a * b)) :=
  commit_binaryOp h1 h2 hv

/-- A command that answers a next state hands it to the commands after it (R123). -/
theorem execAll_cons {i : Instr} {is : List Instr} {s t : State} (h : exec i s = .next t) :
    execAll (i :: is) s = execAll is t := by
  simp [execAll, h]

end

/-! ### CLR and MOV -/

section

variable {s : State} (hc : s.cfg.wf = true)
include hc

theorem execAll_clr (d : Reg) : execAll (expandPseudo (.clr d)) s = .next (s.wrote d 0) :=
  execAll_cons (exec_ldi hc d 0#16)

theorem execAll_mov {d r : Reg} {v : Int} (hne : d ≠ r) (hr : s.regs[r] = some v) (hv : inRange s.cfg v = true) :
    execAll (expandPseudo (.mov d r)) s = .next (s.wrote d v) := by
  have hadd : exec (.add d r d) (s.wrote d 0) = .next ((s.wrote d 0).wrote d (v + 0)) :=
    exec_add (by rw [wrote_regs_other s 0 hne, hr]) (wrote_regs_same ..) (by simpa using hv)
  have hexpand : expandPseudo (.mov d r) = [.ldi d 0#16, .add d r d] := if_neg hne
  rw [wrote_wrote, add_zero] at hadd
  rw [hexpand, execAll_cons (exec_ldi hc d 0#16)]
  exact execAll_cons hadd

end

theorem execAll_mov_self (d : Reg) (s : State) : execAll (expandPseudo (.mov d d)) s = .next s := by
  simp [expandPseudo, execAll]

/-! ### LDW -/

/-- The state between two commands of LDW: `d` holds `a` and the scratch register `r` holds `b`. -/
def ldwHolds (s : State) (d r : Reg) (a b : Int) : State := (s.wrote d a).wrote r b

section

variable {s : State} {d r : Reg} {a b : Int}

theorem exec_ldi_ldwHolds (hc : s.cfg.wf = true) (imm : BitVec 16) :
    exec (.ldi r imm) (ldwHolds s d r a b) = .next (ldwHolds s d r a imm.toNat) := by
  rw [exec_ldi (s := ldwHolds s d r a b) hc, ldwHolds, wrote_wrote]
  rfl

variable (hne : d ≠ r)
include hne

theorem ldwHolds_regs_dest : (ldwHolds s d r a b).regs[d] = some a := by
  rw [ldwHolds, wrote_regs_other _ b hne.symm, wrote_regs_same]

theorem ldwHolds_wrote_dest (x : Int) : (ldwHolds s d r a b).wrote d x = ldwHolds s d r x b := by
  rw [ldwHolds, wrote_comm s a b hne, wrote_wrote, wrote_comm s b x hne.symm, ldwHolds]

theorem exec_mul_ldwHolds (hv : inRange s.cfg (a * b) = true) :
    exec (.mul d d r) (ldwHolds s d r a b) = .next (ldwHolds s d r (a * b) b) := by
  rw [exec_mul (ldwHolds_regs_dest hne) (wrote_regs_same ..) hv, ldwHolds_wrote_dest hne]

theorem exec_add_ldwHolds (hv : inRange s.cfg (a + b) = true) :
    exec (.add d d r) (ldwHolds s d r a b) = .next (ldwHolds s d r (a + b) b) := by
  rw [exec_add (ldwHolds_regs_dest hne) (wrote_regs_same ..) hv, ldwHolds_wrote_dest hne]

end

/-- LDW shifts the high half up by two multiplications by 256 and adds the low half; no value on the way is above the
immediate (R123). -/
theorem execAll_ldw {s : State} (hc : s.cfg.wf = true) {d r : Reg} (hne : d ≠ r) {imm : Word}
    (himm : inRange s.cfg imm.toNat = true) :
    execAll (expandPseudo (.ldw d r imm)) s =
      .next ((s.wrote r (imm.toNat % 65536 : Nat)).wrote d (imm.toNat : Int)) := by
  have hhigh : (imm.extractLsb' 16 16).toNat = imm.toNat / 65536 := by
    have := imm.isLt
    rw [BitVec.extractLsb'_toNat, Nat.shiftRight_eq_div_pow]
    omega
  have hlow : (imm.extractLsb' 0 16).toNat = imm.toNat % 65536 := by
    rw [BitVec.extractLsb'_toNat, Nat.shiftRight_zero]
  have fits (v : Int) (h0 : 0 ≤ v) (hv : v ≤ imm.toNat) : inRange s.cfg v = true := inRange_of_le h0 hv himm
  have hload : exec (.ldi r 256#16) (s.wrote d (imm.toNat / 65536 : Nat)) =
      .next (ldwHolds s d r (imm.toNat / 65536 : Nat) 256) :=
    exec_ldi (s := s.wrote d _) hc r 256#16
  have hsum : ((imm.toNat / 65536 : Nat) : Int) * 256 * 256 + (imm.toNat % 65536 : Nat) = imm.toNat := by omega
  rw [expandPseudo, execAll_cons (exec_ldi hc d _), hhigh, execAll_cons hload,
    execAll_cons (exec_mul_ldwHolds hne (fits _ (by omega) (by omega))),
    execAll_cons (exec_mul_ldwHolds hne (fits _ (by omega) (by omega))),
    execAll_cons (exec_ldi_ldwHolds hc _), hlow,
    execAll_cons (exec_add_ldwHolds hne (fits _ (by omega) (by omega))), hsum, ldwHolds,
    wrote_comm s _ _ hne]
  rfl

/-- Settles O18: the states of the three expansions are the register writes of the statement. -/
theorem pseudoInstructionsDoWhatTheySay : Obligations.PseudoInstructionsDoWhatTheySay := by
  intro s hc
  refine ⟨execAll_clr hc, fun d r v hne hr hv => execAll_mov hc hne hr (inRange_iff.mpr hv),
    fun d => execAll_mov_self d s, fun d r imm hne himm => ?_⟩
  exact execAll_ldw hc (by simpa [pseudoWf] using hne) (inRange_iff.mpr himm)

end Sys2Proof.Machine
end

section
/-!
Symbol arrays in the buffer (spec/20_memory.md R86): a range holds the bytes of an array exactly when it holds each of
its symbols. NUM and NUMB read through this law and STR and BSTR store through it.
-/

namespace Sys2Proof.Machine

/-! ### The bytes and the symbols of a range -/

section

variable {m : Memory} {esz : ElemSize} {a : Nat}

theorem bytesAt_nil : BytesAt m a [] := nofun

theorem bytesAt_cons {b : Byte} {bs : List Byte} :
    BytesAt m a (b :: bs) ↔ m.read a = some b ∧ BytesAt m (a + 1) bs := by
  have hshift (i : Nat) : a + (i + 1) = a + 1 + i := by omega
  constructor
  · exact fun h => ⟨h 0 (by simp), fun i hi => hshift i ▸ h (i + 1) (by simpa using hi)⟩
  · rintro ⟨hhead, htail⟩ (_ | i) hi
    · exact hhead
    · exact hshift i ▸ htail i (by simpa using hi)

/-- The first symbol of an array is the symbol whose bytes stand at the array's address (R86). -/
theorem bytesAt_symbolBytes_append {x : Nat} {bs : List Byte} (hx : x < 256 ^ elemWidth esz) :
    BytesAt m a (symbolBytes esz x ++ bs) ↔ SymbolAt m esz a 0 x ∧ BytesAt m (a + elemWidth esz) bs := by
  have hbyte (b : Byte) (y : Nat) (hy : y < 256) : BitVec.ofNat 8 y = b ↔ y = b.toNat := by
    rw [← BitVec.toNat_inj, BitVec.toNat_ofNat, Nat.mod_eq_of_lt hy]
  cases esz with
  | byte =>
    have hx' : x < 256 := hx
    simp only [symbolBytes, List.cons_append, List.nil_append, bytesAt_cons, SymbolAt, elemWidth, Nat.add_zero]
    refine and_congr_left' ⟨fun h => ⟨_, h, (hbyte _ x hx').mp rfl⟩, ?_⟩
    rintro ⟨b, hb, hxb⟩
    rw [hb, (hbyte b x hx').mpr hxb]
  | half =>
    have hhi : x / 256 < 256 := by simp only [elemWidth] at hx; omega
    have hlo : x % 256 < 256 := Nat.mod_lt _ (by decide)
    simp only [symbolBytes, List.cons_append, List.nil_append, bytesAt_cons, SymbolAt, elemWidth, Nat.mul_zero,
      Nat.add_zero, ← and_assoc]
    refine and_congr_left' ⟨fun ⟨h0, h1⟩ => ⟨_, _, ⟨h0, h1⟩, ?_⟩, ?_⟩
    · rw [← (hbyte _ _ hhi).mp rfl, ← (hbyte _ _ hlo).mp rfl, Nat.div_add_mod']
    · rintro ⟨hi, lo, ⟨h0, h1⟩, hxy⟩
      have hhi' := hi.isLt
      have hlo' := lo.isLt
      rw [h0, h1, (hbyte hi _ hhi).mpr (by omega), (hbyte lo _ hlo).mpr (by omega)]
      exact ⟨rfl, rfl⟩

/-- Symbol `i` of the rest of an array is symbol `i + 1` of the array (R86). -/
theorem symbolAt_rest {i x : Nat} : SymbolAt m esz (a + elemWidth esz) i x ↔ SymbolAt m esz a (i + 1) x := by
  cases esz with
  | byte => rw [SymbolAt, SymbolAt, elemWidth, show a + 1 + i = a + (i + 1) by omega]
  | half => rw [SymbolAt, SymbolAt, elemWidth, show a + 2 + 2 * i = a + 2 * (i + 1) by omega]

theorem symbolAt_lt {i x : Nat} (h : SymbolAt m esz a i x) : x < 256 ^ elemWidth esz := by
  cases esz with
  | byte =>
    obtain ⟨b, -, rfl⟩ := h
    exact b.isLt
  | half =>
    obtain ⟨hi, lo, -, -, rfl⟩ := h
    have hhi := hi.isLt
    have hlo := lo.isLt
    simp only [elemWidth]
    omega

/-- A range holds the bytes of a symbol array exactly when it holds each symbol (R86). -/
theorem bytesAt_symbolArrayBytes {xs : List Nat} (hxs : ∀ x ∈ xs, x < 256 ^ elemWidth esz) :
    BytesAt m a (symbolArrayBytes esz xs) ↔ ∀ (i : Nat) (h : i < xs.length), SymbolAt m esz a i xs[i] := by
  induction xs generalizing a with
  | nil => exact iff_of_true bytesAt_nil nofun
  | cons x xs ih =>
    have htail := ih (a := a + elemWidth esz) fun y hy => hxs y (by simp [hy])
    rw [symbolArrayBytes, List.flatMap_cons, bytesAt_symbolBytes_append (hxs x (by simp)), ← symbolArrayBytes, htail]
    constructor
    · rintro ⟨hhead, hrest⟩ (_ | i) hi
      · exact hhead
      · exact symbolAt_rest.mp (hrest i (by simpa using hi))
    · exact fun h => ⟨h 0 (by simp), fun i hi => symbolAt_rest.mpr (h (i + 1) (by simpa using hi))⟩

end

/-! ### An array as the source of a command -/

/-- The `LEN` symbols at SRC are `xs` (R86). -/
structure SourceArray (esz : ElemSize) (s : State) (xs : List Nat) : Prop where
  length : s.len.toNat = xs.length
  symbols_lt : ∀ x ∈ xs, x < 256 ^ elemWidth esz
  bytes : BytesAt s.buf s.src.toNat (symbolArrayBytes esz xs)

theorem sourceArray_of_symbolAt {esz : ElemSize} {s : State} {x : Nat → Nat}
    (h : ∀ i, i < s.len.toNat → SymbolAt s.buf esz s.src.toNat i (x i)) :
    SourceArray esz s ((List.range s.len.toNat).map x) where
  length := by simp
  symbols_lt := by simpa using fun i hi => symbolAt_lt (h i hi)
  bytes := by
    refine (bytesAt_symbolArrayBytes (by simpa using fun i hi => symbolAt_lt (h i hi))).mpr fun i hi => ?_
    rw [List.getElem_map, List.getElem_range]
    exact h i (by simpa using hi)

/-- A byte string is the array of its bytes (R144). -/
theorem sourceArray_of_bytesAt {s : State} {bs : List Byte} (hlen : s.len.toNat = bs.length)
    (h : BytesAt s.buf s.src.toNat bs) : SourceArray .byte s (bs.map BitVec.toNat) where
  length := by simpa using hlen
  symbols_lt := by simpa using fun b _ => b.isLt
  bytes := by
    have hsymbols : symbolsOf .byte bs = bs.map BitVec.toNat := by rw [symbolsOf]
    rwa [← hsymbols, symbolArrayBytes_symbolsOf (n := bs.length) (by simp [elemWidth])]

/-! ### The value of an array as a sum -/

/-- The sum of R140 for symbols given by position. -/
theorem numr_map_range (rdx n : Nat) (x : Nat → Nat) :
    numr rdx ((List.range n).map x) = ∑ i ∈ Finset.range n, x i * rdx ^ (n - 1 - i) := by
  rw [numr_eq_sum, List.length_map, List.length_range]
  refine Finset.sum_congr rfl fun i hi => ?_
  simp [List.getD, Finset.mem_range.mp hi]

/-- The sum of R144 for a byte string. -/
theorem be_eq_sum (bs : List Byte) :
    be bs = ∑ i : Fin bs.length, bs[i].toNat * 256 ^ (bs.length - 1 - i.val) := by
  rw [be, numr_eq_sum, List.length_map, Finset.sum_range]
  exact Finset.sum_congr rfl fun i _ => by simp [List.getD]

end Sys2Proof.Machine
end

section
/-!
The two halves of the radix conversions (spec/40_radix.md): reading a numeral from SRC into a register (NUM, NUMB) and
storing an integer's digits at DST (STR, BSTR), each after the checks that need no buffer data.
-/

namespace Sys2Proof.Machine

/-! ### The errors of a conversion -/

section

variable (s : State)

theorem commit_nullArgument : commit s (.error (.raises .nullArgument)) = .next (s.failed 1#3) := rfl

theorem commit_invalidArgument : commit s (.error (.raises .invalidArgument)) = .next (s.failed 2#3) := rfl

theorem commit_arithmeticError : commit s (.error (.raises .arithmeticError)) = .next (s.failed 4#3) := rfl

end

/-! ### Reading a numeral -/

/-- NUM and NUMB after their first checks: the symbols at SRC, as a number in radix `rdx`, to register `r`
(R140, R144). -/
def readNumeral (esz : ElemSize) (rdx : Nat) (r : Reg) (s : State) : Cmd State := do
  let bs ← memRead s s.src.toNat (elemWidth esz * s.len.toNat)
  check ((symbolsOf esz bs).all fun x => decide (x < rdx)) .invalidArgument
  writeReg s r (numr rdx (symbolsOf esz bs))

section

variable {esz : ElemSize} {rdx : Nat} {r : Reg} {s : State} {xs : List Nat}

theorem commit_readNumeral_of_unwritten (h : Unwritten s.buf s.src.toNat (elemWidth esz * s.len.toNat)) :
    commit s (readNumeral esz rdx r s) = .fault (.uninitRead s.src.toNat (elemWidth esz * s.len.toNat)) := by
  rw [readNumeral, memRead_eq_error.mpr ⟨h, rfl⟩, error_bind, commit_faults]

/-- On a written source only the symbol check and the register write are left (R140). -/
theorem readNumeral_of_sourceArray (h : SourceArray esz s xs) : readNumeral esz rdx r s =
    check (xs.all fun x => decide (x < rdx)) .invalidArgument >>= fun _ => writeReg s r (numr rdx xs) := by
  have hread : memRead s s.src.toNat (elemWidth esz * s.len.toNat) = .ok (symbolArrayBytes esz xs) :=
    memRead_eq_ok.mpr ⟨by rw [symbolArrayBytes_length, h.length], h.bytes⟩
  rw [readNumeral, hread, ok_bind, symbolsOf_symbolArrayBytes h.symbols_lt]

theorem commit_readNumeral_of_large_symbol (h : SourceArray esz s xs) (hx : ∃ x ∈ xs, rdx ≤ x) :
    commit s (readNumeral esz rdx r s) = .next (s.failed 2#3) := by
  have hcheck : check (xs.all fun x => decide (x < rdx)) .invalidArgument = .error (.raises .invalidArgument) :=
    check_eq_error.mpr ⟨by simpa using hx, rfl⟩
  rw [readNumeral_of_sourceArray h, hcheck, error_bind, commit_invalidArgument]

/-- On symbols below the radix only the register write is left (R140). -/
theorem readNumeral_of_symbols_lt (h : SourceArray esz s xs) (hlt : ∀ x ∈ xs, x < rdx) :
    readNumeral esz rdx r s = writeReg s r (numr rdx xs) := by
  rw [readNumeral_of_sourceArray h, check_eq_ok (u := ()).mpr (by simpa using hlt), ok_bind]

theorem commit_readNumeral_of_fits (h : SourceArray esz s xs) (hlt : ∀ x ∈ xs, x < rdx)
    (hfits : Fits s.cfg (numr rdx xs)) :
    commit s (readNumeral esz rdx r s) = .next (s.wrote r (numr rdx xs)) := by
  rw [readNumeral_of_symbols_lt h hlt, commit_writeReg (inRange_iff.mpr hfits)]

theorem commit_readNumeral_of_not_fits (h : SourceArray esz s xs) (hlt : ∀ x ∈ xs, x < rdx)
    (hfits : ¬Fits s.cfg (numr rdx xs)) : commit s (readNumeral esz rdx r s) = .next (s.failed 4#3) := by
  have hrange : inRange s.cfg (numr rdx xs) = false := Bool.eq_false_iff.mpr (mt inRange_iff.mp hfits)
  rw [readNumeral_of_symbols_lt h hlt, writeReg_eq_error.mpr ⟨hrange, rfl⟩, commit_arithmeticError]

end

/-! ### Storing the digits -/

/-- STR and BSTR after their first checks: the `LEN` digits of `v` in radix `rdx` to DST (R142, R146). -/
def writeNumeral (esz : ElemSize) (rdx : Nat) (v : Int) (s : State) : Cmd State := do
  check (decide (0 ≤ v) && decide (v < (rdx ^ s.len.toNat : Nat))) .invalidArgument
  pure (memWrite s s.dst.toNat (symbolArrayBytes esz (digits rdx s.len.toNat v.toNat)))

/-- The buffer with the `LEN` symbols `xs` stored at DST (R86, R84). -/
def State.stored (s : State) (esz : ElemSize) (xs : List Nat) : Memory :=
  s.buf.writeRange s.dst.toNat (symbolArrayBytes esz xs)

section

variable {esz : ElemSize} {rdx : Nat} {s : State}

theorem commit_writeNumeral_of_lt {v : Nat} (h : v < rdx ^ s.len.toNat) : commit s (writeNumeral esz rdx v s) =
    .next { s.done with buf := s.stored esz (digits rdx s.len.toNat v) } := by
  have hcheck : (decide (0 ≤ (v : Int)) && decide ((v : Int) < (rdx ^ s.len.toNat : Nat))) = true := by
    simpa only [Int.natCast_nonneg, decide_true, Bool.true_and, decide_eq_true_eq, Nat.cast_lt] using h
  rw [writeNumeral, check_eq_ok (u := ()).mpr hcheck]
  rfl

theorem commit_writeNumeral_of_not_representable {v : Int} (h : v < 0 ∨ (rdx ^ s.len.toNat : Nat) ≤ v) :
    commit s (writeNumeral esz rdx v s) = .next (s.failed 2#3) := by
  have hcheck : (decide (0 ≤ v) && decide (v < (rdx ^ s.len.toNat : Nat))) = false := by
    simp only [Bool.and_eq_false_iff, decide_eq_false_iff_not, not_le, not_lt]
    exact h
  rw [writeNumeral, check_eq_error.mpr ⟨hcheck, rfl⟩, error_bind, commit_invalidArgument]

/-- What a buffer with the digits stored at DST reads: digit by digit inside the array, and as before outside. -/
theorem stored_digits {v : Nat} (h0 : 0 < rdx) (hrdx : rdx ≤ 256 ^ elemWidth esz) :
    (∀ i, i < s.len.toNat → SymbolAt (s.stored esz (digits rdx s.len.toNat v)) esz s.dst.toNat i
      (v / rdx ^ (s.len.toNat - 1 - i) % rdx)) ∧
    KeptOutside s.dst.toNat (elemWidth esz * s.len.toNat) s.buf (s.stored esz (digits rdx s.len.toNat v)) := by
  constructor
  · intro i hi
    have hsymbols := (bytesAt_symbolArrayBytes fun x hx => (digits_lt h0 hx).trans_le hrdx).mp
      (bytesAt_writeRange s.buf s.dst.toNat (symbolArrayBytes esz (digits rdx s.len.toNat v))) i (by simpa using hi)
    simpa [State.stored, digits] using hsymbols
  · have hkept := keptOutside_writeRange s.buf s.dst.toNat (symbolArrayBytes esz (digits rdx s.len.toNat v))
    rwa [symbolArrayBytes_length, digits_length] at hkept

end

end Sys2Proof.Machine
end

section
/-!
The commands NUM, STR, NUMB and BSTR (spec/40_radix.md R140 to R146): their checks that need no buffer data, then the
numeral read or stored.
-/

namespace Sys2Proof.Machine

/-! ### The checks before the conversion -/

/-- The first checks of NUM and STR, in order (R140, R142). -/
def conversionChecks (esz : ElemSize) (a : Nat) (s : State) : Cmd Unit := do
  checkRadix esz s.radix.toNat
  checkLen s.cfg s.len.toNat
  checkBounds s.cfg a (elemWidth esz * s.len.toNat)

theorem conversionChecks_eq_ok {esz : ElemSize} {a : Nat} {s : State} (u : Unit) :
    conversionChecks esz a s = .ok u ↔ ConversionOk esz a s := by
  simp only [conversionChecks, bind_eq_ok, checkRadix_eq_ok, checkLen_eq_ok, checkBounds_eq_ok, ConversionOk]
  simp [and_assoc]

theorem conversionChecks_eq_error {esz : ElemSize} {a : Nat} {s : State} {x : Stop} :
    conversionChecks esz a s = .error x ↔ ¬ConversionOk esz a s ∧ x = .raises .invalidArgument :=
  error_iff_not_ok conversionChecks_eq_ok fun y h => by
    simp only [conversionChecks, bind_eq_error, checkRadix_eq_error, checkLen_eq_error, checkBounds_eq_error] at h
    rcases h with ⟨-, hy⟩ | ⟨_, -, ⟨-, hy⟩ | ⟨_, -, -, hy⟩⟩ <;> exact hy

/-- The first checks of NUMB and, without the lower bound of LEN, of BSTR (R144, R146). -/
def byteChecks (minLen a : Nat) (s : State) : Cmd Unit := do
  check (decide (minLen ≤ s.len.toNat) && decide (s.len.toNat ≤ s.cfg.maxLen)) .invalidArgument
  checkBounds s.cfg a s.len.toNat

/-- `LEN` bytes at `a` are a legal operand: from `minLen` to MAXLEN bytes, in bounds (R144, R146). -/
def BytesOk (minLen a : Nat) (s : State) : Prop :=
  minLen ≤ s.len.toNat ∧ s.len.toNat ≤ s.cfg.maxLen ∧ a + s.len.toNat ≤ s.cfg.bufBytes

theorem BytesOk.in_bounds {minLen a : Nat} {s : State} (h : BytesOk minLen a s) :
    a + s.len.toNat ≤ s.cfg.bufBytes := by
  obtain ⟨-, -, hin⟩ := h
  exact hin

theorem byteChecks_eq_ok {minLen a : Nat} {s : State} (u : Unit) :
    byteChecks minLen a s = .ok u ↔ BytesOk minLen a s := by
  simp only [byteChecks, bind_eq_ok, check_eq_ok, checkBounds_eq_ok, BytesOk]
  simp [and_assoc]

theorem byteChecks_eq_error {minLen a : Nat} {s : State} {x : Stop} :
    byteChecks minLen a s = .error x ↔ ¬BytesOk minLen a s ∧ x = .raises .invalidArgument :=
  error_iff_not_ok byteChecks_eq_ok fun y h => by
    simp only [byteChecks, bind_eq_error, check_eq_error, checkBounds_eq_error] at h
    rcases h with ⟨-, hy⟩ | ⟨_, -, -, hy⟩ <;> exact hy

/-! ### The commands -/

section

variable (r : Reg) (esz : ElemSize) (s : State)

theorem exec_num_eq : exec (.num r esz) s =
    commit s (conversionChecks esz s.src.toNat s >>= fun _ => readNumeral esz s.radix.toNat r s) := by
  simp only [conversionChecks, bind_assoc]
  rfl

theorem exec_str_eq : exec (.str r esz) s = commit s (readReg s r >>= fun v =>
    conversionChecks esz s.dst.toNat s >>= fun _ => writeNumeral esz s.radix.toNat v s) := by
  simp only [conversionChecks, bind_assoc]
  rfl

/-- NUMB is NUM with radix 256 and byte symbols; its symbols are bytes, so the symbol check always passes (R144). -/
theorem exec_numb_eq : exec (.numb r) s =
    commit s (byteChecks 1 s.src.toNat s >>= fun _ => readNumeral .byte 256 r s) := by
  have hread : readNumeral .byte 256 r s = memRead s s.src.toNat s.len.toNat >>= fun bs => writeReg s r (be bs) := by
    refine congrArg₂ _ (by rw [elemWidth, one_mul]) (funext fun bs => ?_)
    have hbytes : ((symbolsOf .byte bs).all fun x => decide (x < 256)) = true := by
      simpa [symbolsOf] using fun b _ => b.isLt
    rw [check_eq_ok (u := ()).mpr hbytes, ok_bind, symbolsOf, be]
  rw [hread, byteChecks, bind_assoc]
  rfl

/-- BSTR is STR with radix 256 and byte symbols, except that it takes a LEN of 0 (R146). -/
theorem exec_bstr_eq : exec (.bstr r) s = commit s (readReg s r >>= fun v =>
    byteChecks 0 s.dst.toNat s >>= fun _ => writeNumeral .byte 256 v s) := by
  have hcheck (v : Int) : check (decide (0 ≤ v) && decide (v < (256 ^ s.len.toNat : Nat))) .invalidArgument =
      check (decide (0 ≤ v)) .invalidArgument >>= fun _ =>
        check (decide (v < (256 ^ s.len.toNat : Nat))) .invalidArgument := by
    cases h : decide (0 ≤ v) <;> rfl
  simp only [byteChecks, writeNumeral, hcheck, bind_assoc]
  rfl

end

section

variable {r : Reg} {esz : ElemSize} {s : State} {v : Int}

theorem exec_num_of_ok (h : ConversionOk esz s.src.toNat s) :
    exec (.num r esz) s = commit s (readNumeral esz s.radix.toNat r s) := by
  rw [exec_num_eq, (conversionChecks_eq_ok ()).mpr h, ok_bind]

theorem exec_num_of_not_ok (h : ¬ConversionOk esz s.src.toNat s) : exec (.num r esz) s = .next (s.failed 2#3) := by
  rw [exec_num_eq, conversionChecks_eq_error.mpr ⟨h, rfl⟩, error_bind, commit_invalidArgument]

theorem exec_str_of_ok (hv : s.regs[r] = some v) (h : ConversionOk esz s.dst.toNat s) :
    exec (.str r esz) s = commit s (writeNumeral esz s.radix.toNat v s) := by
  rw [exec_str_eq, readReg_eq_ok.mpr hv, ok_bind, (conversionChecks_eq_ok ()).mpr h, ok_bind]

theorem exec_str_of_not_ok (hv : s.regs[r] = some v) (h : ¬ConversionOk esz s.dst.toNat s) :
    exec (.str r esz) s = .next (s.failed 2#3) := by
  rw [exec_str_eq, readReg_eq_ok.mpr hv, ok_bind, conversionChecks_eq_error.mpr ⟨h, rfl⟩, error_bind,
    commit_invalidArgument]

theorem exec_str_of_invalid (h : s.regs[r] = none) : exec (.str r esz) s = .next (s.failed 1#3) := by
  rw [exec_str_eq, readReg_eq_error.mpr ⟨h, rfl⟩, error_bind, commit_nullArgument]

theorem exec_numb_of_ok (h : BytesOk 1 s.src.toNat s) :
    exec (.numb r) s = commit s (readNumeral .byte 256 r s) := by
  rw [exec_numb_eq, (byteChecks_eq_ok ()).mpr h, ok_bind]

theorem exec_numb_of_not_ok (h : ¬BytesOk 1 s.src.toNat s) : exec (.numb r) s = .next (s.failed 2#3) := by
  rw [exec_numb_eq, byteChecks_eq_error.mpr ⟨h, rfl⟩, error_bind, commit_invalidArgument]

theorem exec_bstr_of_ok (hv : s.regs[r] = some v) (h : BytesOk 0 s.dst.toNat s) :
    exec (.bstr r) s = commit s (writeNumeral .byte 256 v s) := by
  rw [exec_bstr_eq, readReg_eq_ok.mpr hv, ok_bind, (byteChecks_eq_ok ()).mpr h, ok_bind]

theorem exec_bstr_of_not_ok (hv : s.regs[r] = some v) (h : ¬BytesOk 0 s.dst.toNat s) :
    exec (.bstr r) s = .next (s.failed 2#3) := by
  rw [exec_bstr_eq, readReg_eq_ok.mpr hv, ok_bind, byteChecks_eq_error.mpr ⟨h, rfl⟩, error_bind,
    commit_invalidArgument]

theorem exec_bstr_of_invalid (h : s.regs[r] = none) : exec (.bstr r) s = .next (s.failed 1#3) := by
  rw [exec_bstr_eq, readReg_eq_error.mpr ⟨h, rfl⟩, error_bind, commit_nullArgument]

end

end Sys2Proof.Machine
end

section
/-!
The statements about each conversion (spec/40_radix.md R140 to R146): where it completes and with what, and where it
does not.
-/

namespace Sys2Proof.Machine

/-- A legal radix fits the symbols of its element size (R140). -/
theorem ConversionOk.radix_le {esz : ElemSize} {a : Nat} {s : State} (h : ConversionOk esz a s) :
    s.radix.toNat ≤ 256 ^ elemWidth esz := by
  obtain ⟨-, hhalf, hbyte, -⟩ := h
  cases esz with
  | byte => simpa [elemWidth] using hbyte
  | half => exact hhalf

theorem ConversionOk.radix_pos {esz : ElemSize} {a : Nat} {s : State} (h : ConversionOk esz a s) :
    0 < s.radix.toNat := by
  obtain ⟨h2, -⟩ := h
  omega

theorem ConversionOk.in_bounds {esz : ElemSize} {a : Nat} {s : State} (h : ConversionOk esz a s) :
    a + elemWidth esz * s.len.toNat ≤ s.cfg.bufBytes := by
  obtain ⟨-, -, -, -, -, hin⟩ := h
  exact hin

/-- Settles O19: the symbols of the statement are a source array, whose value is the sum. -/
theorem numConverts : Obligations.NumConverts := by
  intro r esz s x hok hx hfits
  rw [← numr_map_range] at hfits ⊢
  have hsource := sourceArray_of_symbolAt fun i hi => (hx i hi).1
  rw [exec_num_of_ok hok, commit_readNumeral_of_fits hsource (by simpa using fun i hi => (hx i hi).2) hfits]
  rfl

/-- Settles O20: each clause is one way the checks, the read or the register write can end. -/
theorem numErrors : Obligations.NumErrors := by
  refine fun r esz s => ⟨exec_num_of_not_ok, fun hok hun => ?_, fun x hok hx hlarge => ?_, fun x hok hx hfits => ?_⟩
  · rw [exec_num_of_ok hok, commit_readNumeral_of_unwritten hun]
  · rw [exec_num_of_ok hok, commit_readNumeral_of_large_symbol (sourceArray_of_symbolAt hx) (by simpa using hlarge)]
  · rw [← numr_map_range] at hfits
    rw [exec_num_of_ok hok, commit_readNumeral_of_not_fits (sourceArray_of_symbolAt fun i hi => (hx i hi).1)
      (by simpa using fun i hi => (hx i hi).2) hfits]

/-- Settles O21: the digits are stored at DST. -/
theorem strConverts : Obligations.StrConverts := by
  intro r esz s v hok hv hlt
  exact ⟨_, (exec_str_of_ok hv hok).trans (commit_writeNumeral_of_lt hlt), stored_digits hok.radix_pos hok.radix_le⟩

/-- Settles O22: the value is compared only after the checks of its conversion. -/
theorem strErrors : Obligations.StrErrors := by
  refine fun r esz s => ⟨exec_str_of_invalid, fun v hv hbad => ?_⟩
  by_cases hok : ConversionOk esz s.dst.toNat s
  · rw [exec_str_of_ok hv hok, commit_writeNumeral_of_not_representable (hbad.resolve_left (not_not_intro hok))]
  · exact exec_str_of_not_ok hv hok

/-- Settles O23: the bytes are a source array of byte symbols, whose value in radix 256 is the sum. -/
theorem numbConverts : Obligations.NumbConverts := by
  intro r s bs hlen hmin hmax hin hbs hfits
  rw [← be_eq_sum] at hfits ⊢
  rw [exec_numb_of_ok (by unfold BytesOk; omega),
    commit_readNumeral_of_fits (sourceArray_of_bytesAt hlen hbs) (by simpa using fun b _ => b.isLt) hfits]
  rfl

/-- Settles O24: the digits in radix 256 are stored at DST as bytes. -/
theorem bstrConverts : Obligations.BstrConverts := by
  intro r s v hmax hin hv hlt
  have hstored := stored_digits (esz := .byte) (rdx := 256) (s := s) (v := v) (by decide) le_rfl
  rw [elemWidth, one_mul] at hstored
  exact ⟨_, (exec_bstr_of_ok hv ⟨Nat.zero_le _, hmax, hin⟩).trans (commit_writeNumeral_of_lt hlt), hstored⟩

/-- Settles O25: as for NUM and STR, with the checks of the byte commands. -/
theorem byteConversionErrors : Obligations.ByteConversionErrors := by
  refine fun r s => ⟨fun hbad => ?_, fun hmin hmax hin hun => ?_, fun bs hlen hmin hmax hin hbs hfits => ?_,
    exec_bstr_of_invalid, fun v hv hbad => ?_⟩
  · exact exec_numb_of_not_ok (by unfold BytesOk; omega)
  · have hfault := commit_readNumeral_of_unwritten (esz := .byte) (rdx := 256) (r := r) (s := s)
    rw [elemWidth, one_mul] at hfault
    rw [exec_numb_of_ok ⟨hmin, hmax, hin⟩, hfault hun]
  · rw [← be_eq_sum] at hfits
    rw [exec_numb_of_ok (by unfold BytesOk; omega),
      commit_readNumeral_of_not_fits (sourceArray_of_bytesAt hlen hbs) (by simpa using fun b _ => b.isLt) hfits]
  · by_cases hok : BytesOk 0 s.dst.toNat s
    · have hvalue : v < 0 ∨ (256 ^ s.len.toNat : Nat) ≤ v := by
        obtain ⟨-, hmax, hin⟩ := hok
        exact (hbad.resolve_left (by omega)).resolve_left (by omega)
      rw [exec_bstr_of_ok hv hok, commit_writeNumeral_of_not_representable hvalue]
    · exact exec_bstr_of_not_ok hv hok

end Sys2Proof.Machine
end

section
/-!
The round trips of the conversions (spec/40_radix.md R148): storing undoes reading and reading undoes storing, first for
the two halves of a conversion in any radix, then for the commands.
-/

namespace Sys2Proof.Machine

/-! ### What a completed conversion has done -/

/-- A command that answers without an error did not fail. -/
theorem ne_failed {o : Host.Outcome State Fault Refusal} {t : State} (h : o = .next t) (ht : t.err = false)
    (s : State) (code : BitVec 3) : o ≠ .next (s.failed code) := by
  rintro hfailed
  obtain rfl : t = s.failed code := by simpa [h] using hfailed
  cases ht

section

variable {esz : ElemSize} {rdx : Nat} {r : Reg} {s t : State}

/-- What a commit without an error has done: applied the writes of its computation (R110). -/
theorem commit_completes {x : Cmd State} (h : commit s x = .next t) (ht : t.err = false) :
    ∃ u, x = .ok u ∧ t = u.done := by
  rcases commit_eq_next.mp h with hok | ⟨e, -, rfl⟩
  · exact hok
  · cases ht

/-- A numeral that was read is the value of a source array with symbols below the radix (R140). -/
theorem sourceArray_of_commit_readNumeral (hrdx : rdx ≤ 256 ^ elemWidth esz)
    (h : commit s (readNumeral esz rdx r s) = .next t) (ht : t.err = false) :
    ∃ xs, SourceArray esz s xs ∧ (∀ x ∈ xs, x < rdx) ∧ t.regs[r] = some (numr rdx xs : Int) := by
  obtain ⟨u, hu, rfl⟩ := commit_completes h ht
  simp only [readNumeral, bind_eq_ok, memRead_eq_ok, check_eq_ok, writeReg_eq_ok] at hu
  obtain ⟨bs, ⟨hlen, hbs⟩, -, hall, -, rfl⟩ := hu
  have hlt : ∀ x ∈ symbolsOf esz bs, x < rdx := by simpa using hall
  refine ⟨symbolsOf esz bs, ⟨(symbolsOf_length hlen).symm, fun x hx => (hlt x hx).trans_le hrdx, ?_⟩, hlt, ?_⟩
  · rw [symbolArrayBytes_symbolsOf hlen]
    exact hbs
  · exact wrote_regs_same s r _

/-- An integer whose digits were stored is representable in `LEN` digits (R142). -/
theorem lt_of_commit_writeNumeral {v : Int} (h : commit s (writeNumeral esz rdx v s) = .next t) (ht : t.err = false) :
    ∃ n : Nat, v = n ∧ n < rdx ^ s.len.toNat := by
  by_cases hv : 0 ≤ v ∧ v < (rdx ^ s.len.toNat : Nat)
  · obtain ⟨hnonneg, hlt⟩ := hv
    obtain ⟨n, rfl⟩ := Int.eq_ofNat_of_zero_le hnonneg
    exact ⟨n, rfl, Int.ofNat_lt.mp hlt⟩
  · exact absurd (commit_writeNumeral_of_not_representable (by omega)) (ne_failed h ht s _)

end

/-! ### The round trips of the two halves -/

/-- The digits of a source array's value, stored anywhere, are the bytes of the array (R148). -/
theorem writeNumeral_undoes_readNumeral {esz : ElemSize} {rdx : Nat} {s u : State} {xs : List Nat}
    (hsource : SourceArray esz s xs) (hlt : ∀ x ∈ xs, x < rdx) (hlen : u.len = s.len) :
    ∃ w : State, commit u (writeNumeral esz rdx (numr rdx xs : Nat) u) = .next w ∧ w.err = false ∧
      ∀ j, j < elemWidth esz * s.len.toNat → w.buf.read (u.dst.toNat + j) = s.buf.read (s.src.toNat + j) := by
  have hlength : u.len.toNat = xs.length := hlen ▸ hsource.length
  refine ⟨_, commit_writeNumeral_of_lt (by rw [hlength]; exact numr_lt hlt), rfl, fun j hj => ?_⟩
  have hj' : j < (symbolArrayBytes esz xs).length := by rwa [symbolArrayBytes_length, ← hsource.length]
  calc (u.stored esz (digits rdx u.len.toNat (numr rdx xs))).read (u.dst.toNat + j)
      = (u.stored esz xs).read (u.dst.toNat + j) := by rw [hlength, digits_numr hlt]
    _ = some (symbolArrayBytes esz xs)[j] := bytesAt_writeRange _ _ _ j hj'
    _ = s.buf.read (s.src.toNat + j) := (hsource.bytes j hj').symm

/-- The digits stored at DST, read from there, give the integer back (R148). -/
theorem readNumeral_undoes_writeNumeral {esz : ElemSize} {rdx : Nat} {s t : State} {v : Int} (q : Reg)
    (h0 : 0 < rdx) (hrdx : rdx ≤ 256 ^ elemWidth esz) (hfits : Fits s.cfg v)
    (h : commit s (writeNumeral esz rdx v s) = .next t) (ht : t.err = false) :
    ∃ w : State, commit { t with src := t.dst } (readNumeral esz rdx q { t with src := t.dst }) = .next w ∧
      w.err = false ∧ w.regs[q] = some v := by
  obtain ⟨n, rfl, hn⟩ := lt_of_commit_writeNumeral h ht
  obtain rfl : { s.done with buf := s.stored esz (digits rdx s.len.toNat n) } = t := by
    simpa [commit_writeNumeral_of_lt hn] using h
  have hlt : ∀ x ∈ digits rdx s.len.toNat n, x < rdx := fun x hx => digits_lt h0 hx
  have hsource : SourceArray esz
      { s.done with buf := s.stored esz (digits rdx s.len.toNat n), src := s.dst } (digits rdx s.len.toNat n) :=
    ⟨(digits_length ..).symm, fun x hx => (hlt x hx).trans_le hrdx, bytesAt_writeRange _ _ _⟩
  have hread := commit_readNumeral_of_fits (r := q) hsource hlt (by rwa [numr_digits hn])
  rw [numr_digits hn] at hread
  exact ⟨_, hread, rfl, wrote_regs_same ..⟩

/-! ### The round trips of the commands -/

section

variable {esz : ElemSize} {s u : State} {a b : Nat} (hcfg : u.cfg = s.cfg) (hlen : u.len = s.len)
include hcfg hlen

/-- The checks of a conversion carry over to another array of the same parameters, in bounds (R148). -/
theorem ConversionOk.of_same (h : ConversionOk esz a s) (hradix : u.radix = s.radix)
    (hin : b + elemWidth esz * u.len.toNat ≤ u.cfg.bufBytes) : ConversionOk esz b u := by
  obtain ⟨h2, h65536, h256, h1, hmax, -⟩ := h
  rw [ConversionOk, hradix]
  exact ⟨h2, h65536, h256, hlen ▸ h1, hlen ▸ hcfg ▸ hmax, hin⟩

theorem BytesOk.of_same {minLen minLen' : Nat} (h : BytesOk minLen a s) (hmin : minLen' ≤ s.len.toNat)
    (hin : b + u.len.toNat ≤ u.cfg.bufBytes) : BytesOk minLen' b u := by
  obtain ⟨-, hmax, -⟩ := h
  exact ⟨hlen ▸ hmin, hlen ▸ hcfg ▸ hmax, hin⟩

end

/-- Settles O26: the two round trips in radix RADIX, behind the checks that NUM and STR share. -/
theorem numStrRoundTrips : Obligations.NumStrRoundTrips := by
  constructor
  · intro r q esz s t u hnum ht hcfg hradix hlen hq hin
    have hok : ConversionOk esz s.src.toNat s := not_not.mp fun h => ne_failed hnum ht s _ (exec_num_of_not_ok h)
    rw [exec_num_of_ok hok] at hnum
    obtain ⟨xs, hsource, hlt, hvalue⟩ := sourceArray_of_commit_readNumeral hok.radix_le hnum ht
    rw [exec_str_of_ok (hq.trans hvalue) (hok.of_same hcfg hlen hradix hin), hradix]
    exact writeNumeral_undoes_readNumeral hsource hlt hlen
  · intro r q esz s t hregs hstr ht
    obtain ⟨v, hv⟩ := Option.ne_none_iff_exists'.mp fun h => ne_failed hstr ht s _ (exec_str_of_invalid h)
    have hok : ConversionOk esz s.dst.toNat s := not_not.mp fun h => ne_failed hstr ht s _ (exec_str_of_not_ok hv h)
    obtain ⟨⟨hcfg, -, -, hdst, hlen, hradix, -⟩, -⟩ := exec_frame hstr
    have hok' : ConversionOk esz t.dst.toNat { t with src := t.dst } :=
      hok.of_same hcfg hlen hradix (by simpa [hdst, hlen, hcfg] using hok.in_bounds)
    have hback := readNumeral_undoes_writeNumeral q hok.radix_pos hok.radix_le (inRange_iff.mp (hregs r v hv))
      (exec_str_of_ok hv hok ▸ hstr) ht
    rw [exec_num_of_ok hok', hv]
    rwa [← hradix] at hback

/-- Settles O27: the two round trips in radix 256 with byte symbols. -/
theorem numbBstrRoundTrips : Obligations.NumbBstrRoundTrips := by
  constructor
  · intro r q s t u hnumb ht hcfg hlen hq hin
    have hok : BytesOk 1 s.src.toNat s := not_not.mp fun h => ne_failed hnumb ht s _ (exec_numb_of_not_ok h)
    rw [exec_numb_of_ok hok] at hnumb
    obtain ⟨xs, hsource, hlt, hvalue⟩ := sourceArray_of_commit_readNumeral (esz := .byte) le_rfl hnumb ht
    have hback := writeNumeral_undoes_readNumeral hsource hlt hlen
    rw [elemWidth, one_mul] at hback
    rwa [exec_bstr_of_ok (hq.trans hvalue) (hok.of_same hcfg hlen (Nat.zero_le _) hin)]
  · intro r q s t hregs hmin hbstr ht
    obtain ⟨v, hv⟩ := Option.ne_none_iff_exists'.mp fun h => ne_failed hbstr ht s _ (exec_bstr_of_invalid h)
    have hok : BytesOk 0 s.dst.toNat s := not_not.mp fun h => ne_failed hbstr ht s _ (exec_bstr_of_not_ok hv h)
    obtain ⟨⟨hcfg, -, -, hdst, hlen, -⟩, -⟩ := exec_frame hbstr
    have hok' : BytesOk 1 t.dst.toNat { t with src := t.dst } :=
      hok.of_same hcfg hlen hmin (by simpa [hdst, hlen, hcfg] using hok.in_bounds)
    rw [exec_numb_of_ok hok', hv]
    exact readNumeral_undoes_writeNumeral q (by decide) (by decide) (inRange_iff.mp (hregs r v hv))
      (exec_bstr_of_ok hv hok ▸ hbstr) ht

end Sys2Proof.Machine
end

section
/-!
The words of the integer commands as numbers (spec/30_encoding.md R112 to R117): each field counts from the place value of
its lowest bit.
-/

namespace Sys2Proof

/-- A field's value counts from the place value of its lowest bit (R112). -/
theorem place_eq_ofNat {n : Nat} (x : BitVec n) (lo : Nat) : place n x lo = BitVec.ofNat 32 (2 ^ lo * x.toNat) := by
  refine BitVec.eq_of_toNat_eq ?_
  simp [place, Nat.shiftLeft_eq, mul_comm]

/-- A field of value `v` placed above the bits of a number adds `v` at its place to the number (R112). -/
theorem ofNat_or_place {n m lo v : Nat} {x : BitVec n} (hx : x.toNat = v) (hm : m < 2 ^ lo) :
    BitVec.ofNat 32 m ||| place n x lo = BitVec.ofNat 32 (m + 2 ^ lo * v) := by
  rw [place_eq_ofNat, hx, ← BitVec.ofNat_or, Nat.or_comm, ← Nat.two_pow_add_eq_or_of_lt hm, Nat.add_comm]

/-- The word of format R as the number of its fields (R114). -/
theorem wordR_eq_ofNat (op : Byte) (rd rs1 rs2 : Reg) : wordR op rd rs1 rs2 =
    BitVec.ofNat 32 (op.toNat + 0x100 * rd.val + 0x1000 * rs1.val + 0x10000 * rs2.val) := by
  have hop := op.isLt
  rw [wordR, place_eq_ofNat, ofNat_or_place (regBits_toNat rd), ofNat_or_place (regBits_toNat rs1),
    ofNat_or_place (regBits_toNat rs2)]
  · exact congrArg _ (by omega)
  all_goals omega

/-- The word of format I as the number of its fields (R117). -/
theorem wordI_eq_ofNat (op : Byte) (rd : Reg) (imm : BitVec 16) :
    wordI op rd imm = BitVec.ofNat 32 (op.toNat + 0x100 * rd.val + 0x10000 * imm.toNat) := by
  have hop := op.isLt
  rw [wordI, place_eq_ofNat, ofNat_or_place (regBits_toNat rd), ofNat_or_place (x := imm) rfl]
  · exact congrArg _ (by omega)
  all_goals omega

/-- A word with LDI's opcode does not decode unless [15:12] is 0 (R117, R178). -/
theorem decode_ldi_reserved {w : Word} (hop : opcodeField w = 0x40#8) (hres : w.extractLsb' 12 4 ≠ 0#4) :
    decode w = none := by
  have hformat : decodeNamed w = formatI w .ldi := by simp [decodeNamed, hop]
  have hreserved : formatI w .ldi = .error .reservedField := by simp [formatI, unlessReserved, hres]
  rw [decode, hformat, hreserved]

end Sys2Proof
end

section
/-!
The integer commands ADD, SUB, MUL, MOD and LDI (spec/41_arith.md R170 to R182): how each can end, and modular addition and
subtraction.
-/

namespace Sys2Proof.Machine

/-! ### The sources and the result -/

/-- What ADD, SUB, MUL and MOD share: both sources are read, then `f` answers from their values (R170 to R176). -/
def onSources (rs1 rs2 : Reg) (f : Int → Int → Cmd State) (s : State) : Cmd State := do
  let a ← readReg s rs1
  let b ← readReg s rs2
  f a b

section

variable {s : State} {rd rs1 rs2 : Reg} {a b m : Int}

theorem onSources_of_valid {f : Int → Int → Cmd State} (h1 : s.regs[rs1] = some a) (h2 : s.regs[rs2] = some b) :
    onSources rs1 rs2 f s = f a b := by
  rw [onSources, readReg_eq_ok.mpr h1, ok_bind, readReg_eq_ok.mpr h2, ok_bind]

/-- An invalid source raises NULL_ARGUMENT before anything else is looked at (R170 to R176). -/
theorem commit_onSources_of_invalid {f : Int → Int → Cmd State} (h : s.regs[rs1] = none ∨ s.regs[rs2] = none) :
    commit s (onSources rs1 rs2 f s) = .next (s.failed 1#3) := by
  suffices onSources rs1 rs2 f s = .error (.raises .nullArgument) by rw [this, commit_nullArgument]
  cases h1 : s.regs[rs1] with
  | none => rw [onSources, readReg_eq_error.mpr ⟨h1, rfl⟩, error_bind]
  | some a =>
    have h2 : s.regs[rs2] = none := h.resolve_left (by simp [h1])
    rw [onSources, readReg_eq_ok.mpr h1, ok_bind, readReg_eq_error.mpr ⟨h2, rfl⟩, error_bind]

/-- A register write of a value out of range raises ARITHMETIC_ERROR (R32). -/
theorem commit_writeReg_of_not_fits {v : Int} (hv : ¬Fits s.cfg v) :
    commit s (writeReg s rd v) = .next (s.failed 4#3) := by
  have hrange : inRange s.cfg v = false := Bool.eq_false_iff.mpr (mt inRange_iff.mp hv)
  rw [writeReg_eq_error.mpr ⟨hrange, rfl⟩, commit_arithmeticError]

/-- The three ends of ADD, SUB and MUL: the exact result, a result out of range, an invalid source (R170 to R174). -/
theorem commit_binaryOp_isExact (op : Int → Int → Int) (rd rs1 rs2 : Reg) (s : State) :
    (∀ a b : Int, s.regs[rs1] = some a → s.regs[rs2] = some b → Fits s.cfg (op a b) →
      commit s (binaryOp op rd rs1 rs2 s) = .next (s.wrote rd (op a b))) ∧
    (∀ a b : Int, s.regs[rs1] = some a → s.regs[rs2] = some b → ¬Fits s.cfg (op a b) →
      commit s (binaryOp op rd rs1 rs2 s) = .next (s.failed 4#3)) ∧
    (s.regs[rs1] = none ∨ s.regs[rs2] = none →
      commit s (binaryOp op rd rs1 rs2 s) = .next (s.failed 1#3)) := by
  have hsources : binaryOp op rd rs1 rs2 s = onSources rs1 rs2 (fun a b => writeReg s rd (op a b)) s := rfl
  refine ⟨fun a b h1 h2 hv => commit_binaryOp h1 h2 (inRange_iff.mpr hv), fun a b h1 h2 hv => ?_, fun h => ?_⟩
  · rw [hsources, onSources_of_valid h1 h2, commit_writeReg_of_not_fits hv]
  · rw [hsources, commit_onSources_of_invalid h]

theorem exec_sub (h1 : s.regs[rs1] = some a) (h2 : s.regs[rs2] = some b) (hv : inRange s.cfg (a - b) = true) :
    exec (.sub rd rs1 rs2) s = .next (s.wrote rd (a - b)) :=
  commit_binaryOp h1 h2 hv

/-! ### MOD -/

/-- For a modulus above 0 the remainder of the floor division is the Euclidean one (R176). -/
theorem sub_mul_fdiv (a : Int) (hm : 0 < m) : a - m * Int.fdiv a m = a % m := by
  rw [Int.fdiv_eq_ediv_of_nonneg a hm.le, Int.emod_def]

theorem exec_mod_eq : exec (.mod rd rs1 rs2) s = commit s (onSources rs1 rs2 (fun a m =>
    check (decide (0 < m)) .arithmeticError >>= fun _ => writeReg s rd (a - m * Int.fdiv a m)) s) := rfl

/-- The remainder lies in `[0, m)`, so it is in range whenever the modulus is (R176). -/
theorem exec_mod (h1 : s.regs[rs1] = some a) (h2 : s.regs[rs2] = some m) (hm : 0 < m)
    (hrange : inRange s.cfg m = true) : exec (.mod rd rs1 rs2) s = .next (s.wrote rd (a % m)) := by
  have hlt : a % m < m := Int.emod_lt_of_pos a hm
  rw [exec_mod_eq, onSources_of_valid h1 h2, check_eq_ok (u := ()).mpr (by simpa using hm), ok_bind,
    sub_mul_fdiv a hm, commit_writeReg (inRange_of_le (Int.emod_nonneg a hm.ne') hlt.le hrange)]

theorem exec_mod_of_nonpos (h1 : s.regs[rs1] = some a) (h2 : s.regs[rs2] = some m) (hm : m ≤ 0) :
    exec (.mod rd rs1 rs2) s = .next (s.failed 4#3) := by
  rw [exec_mod_eq, onSources_of_valid h1 h2, check_eq_error.mpr ⟨by simpa using hm, rfl⟩, error_bind,
    commit_arithmeticError]

theorem exec_mod_of_invalid (h : s.regs[rs1] = none ∨ s.regs[rs2] = none) :
    exec (.mod rd rs1 rs2) s = .next (s.failed 1#3) := by
  rw [exec_mod_eq, commit_onSources_of_invalid h]

/-- MOD of a result just written to `d` leaves that result's remainder there (R181). -/
theorem exec_mod_wrote {d q : Reg} (hne : d ≠ q) (hq : s.regs[q] = some m) (hm : 0 < m)
    (hrange : inRange s.cfg m = true) (x : Int) :
    exec (.mod d d q) (s.wrote d x) = .next (s.wrote d (x % m)) := by
  have hmodulus : (s.wrote d x).regs[q] = some m := (wrote_regs_other s x hne).trans hq
  rw [exec_mod (wrote_regs_same ..) hmodulus hm hrange, wrote_wrote]

end

/-! ### The statements -/

/-- Settles O11: the word is the number of its fields, and ADD ends in one of the three ways of a binary operation. -/
theorem addIsExact : Obligations.AddIsExact := fun rd rs1 rs2 =>
  ⟨decode_iff_encode.mpr (wordR_eq_ofNat 0x30#8 rd rs1 rs2), commit_binaryOp_isExact (fun a b => a + b) rd rs1 rs2⟩

/-- Settles O12: as for ADD, with the difference. -/
theorem subIsExact : Obligations.SubIsExact := fun rd rs1 rs2 =>
  ⟨decode_iff_encode.mpr (wordR_eq_ofNat 0x31#8 rd rs1 rs2), commit_binaryOp_isExact (fun a b => a - b) rd rs1 rs2⟩

/-- Settles O13: as for ADD, with the product. -/
theorem mulIsExact : Obligations.MulIsExact := fun rd rs1 rs2 =>
  ⟨decode_iff_encode.mpr (wordR_eq_ofNat 0x32#8 rd rs1 rs2), commit_binaryOp_isExact (fun a b => a * b) rd rs1 rs2⟩

/-- Settles O14: the invariant puts the modulus in range, and the remainder is below it. -/
theorem modIsTheEuclideanRemainder : Obligations.ModIsTheEuclideanRemainder := by
  refine fun rd rs1 rs2 => ⟨decode_iff_encode.mpr (wordR_eq_ofNat 0x33#8 rd rs1 rs2), fun s =>
    ⟨fun a m hregs h1 h2 hm => ?_, fun a m => exec_mod_of_nonpos, exec_mod_of_invalid⟩⟩
  exact exec_mod h1 h2 hm (hregs rs2 m h2)

/-- Settles O15: the remainder leaves `m` times the quotient. -/
theorem modLaw : Obligations.ModLaw := by
  intro rd rs1 rs2 s a m hregs h1 h2 hm
  refine ⟨s.wrote rd (a % m), a % m, a / m, exec_mod h1 h2 hm (hregs rs2 m h2), rfl, wrote_regs_same .., ?_⟩
  exact ⟨Int.emod_nonneg a hm.ne', Int.emod_lt_of_pos a hm, sub_eq_of_eq_add' (Int.emod_add_mul_ediv a m).symm⟩

/-- Settles O16: a legal INT_BITS leaves room for every immediate, and format I reserves [15:12]. -/
theorem ldiLoadsTheImmediate : Obligations.LdiLoadsTheImmediate := by
  refine fun rd imm => ⟨decode_iff_encode.mpr (wordI_eq_ofNat 0x40#8 rd imm), fun w hop hres => ?_,
    fun s hc => exec_ldi hc rd imm⟩
  have hnone : decode w = none := decode_ldi_reserved hop hres
  refine ⟨hnone, fun s hcore hpend => ?_⟩
  rw [step_eq_runCommand hcore hpend, runCommand_of_none hnone]

/-- Settles O17: the sum is below `2M` and the difference between `-M` and `M`, so each is in range for the MOD. -/
theorem modularAddAndSubtract : Obligations.ModularAddAndSubtract := by
  intro d ra rb rm s a b m hne ha hb hm ha0 ham hb0 hbm hbound
  have hpos : 0 < m := ha0.trans_lt ham
  have fits (v : Int) (hlo : -m ≤ v) (hhi : v < 2 * m) : inRange s.cfg v = true :=
    inRange_iff.mpr ⟨by omega, by omega⟩
  have hmod (x : Int) := exec_mod_wrote hne hm hpos (fits m (by omega) (by omega)) x
  exact ⟨⟨_, _, exec_add ha hb (fits _ (by omega) (by omega)), rfl, hmod _, rfl⟩,
    ⟨_, _, exec_sub ha hb (fits _ (by omega) (by omega)), rfl, hmod _, rfl⟩⟩

end Sys2Proof.Machine
end

section
/-!
The S-box and the round transformations of the cipher (spec/42_cipher.md R201 to R207), entry by entry.
-/

namespace Sys2Proof.Machine

/-! ### Bytes as elements of GF(2^8) -/

/-- The inverse of the affine map of R202. -/
def sboxUnaffine (b : Byte) : Byte := b.rotateRight 2 ^^^ b.rotateRight 5 ^^^ b.rotateRight 7 ^^^ 0x05#8

theorem sboxUnaffine_sboxAffine : ∀ b : Byte, sboxUnaffine (sboxAffine b) = b := by decide +kernel

theorem sboxAffine_sboxUnaffine : ∀ b : Byte, sboxAffine (sboxUnaffine b) = b := by decide +kernel

/-- The inverse in GF(2^8) with `inv(0) = 0`, read off the S-box table by undoing the affine map (R202). -/
def gfInv (b : Byte) : Byte := sboxUnaffine (sbox b)

theorem gfMul_gfInv : ∀ b : Byte, b ≠ 0x00#8 → gfMul b (gfInv b) = 0x01#8 := by decide +kernel

theorem gfInv_gfInv : ∀ b : Byte, gfInv (gfInv b) = b := by decide +kernel

theorem sbox_eq_sboxAffine (b : Byte) : sbox b = sboxAffine (gfInv b) := (sboxAffine_sboxUnaffine (sbox b)).symm

theorem gfMul_two : ∀ b : Byte, gfMul 2#8 b = xtime b := by decide +kernel

theorem gfMul_three : ∀ b : Byte, gfMul 3#8 b = times3 b := by decide +kernel

/-- Bit `i` of a byte rotated right by `k` is the byte's bit `i + k`, counted modulo 8 (R202). -/
theorem getLsbD_rotateRight_byte (c : Byte) {k : Nat} (hk : k < 8) (i : Fin 8) :
    (c.rotateRight k).getLsbD i.val = c.getLsbD ((i.val + k) % 8) := by
  have hi := i.isLt
  rw [BitVec.getLsbD_rotateRight, Nat.mod_eq_of_lt hk]
  by_cases h : i.val < 8 - k
  · simp [h, show (i.val + k) % 8 = k + i.val by omega]
  · simp [h, show (i.val + k) % 8 = i.val - (8 - k) by omega]

/-- Settles O31: the inverse is the table's value with the affine map undone. -/
theorem sboxIsTheAffineInverse : Obligations.SboxIsTheAffineInverse := by
  refine ⟨by decide, fun b hb => ⟨gfInv b, gfMul_gfInv b hb, sbox_eq_sboxAffine b⟩, fun c i => ?_⟩
  simp only [sboxAffine, BitVec.getLsbD_xor]
  iterate 4 rw [getLsbD_rotateRight_byte c (by decide)]

/-! ### Entries of a block -/

/-- Byte `r` of a column, its row `r` (R203). -/
def Column.byte (a : Column) : Fin 4 → Byte
  | 0 => a.b0
  | 1 => a.b1
  | 2 => a.b2
  | 3 => a.b3

/-- Column `c` of a block (R203). -/
def Block.column (s : Block) : Fin 4 → Column
  | 0 => s.c0
  | 1 => s.c1
  | 2 => s.c2
  | 3 => s.c3

theorem Column.getD_bytes (a : Column) (r : Fin 4) : a.bytes.getD r.val 0#8 = a.byte r := by
  fin_cases r <;> rfl

/-- Entry `s[r][c]` is byte `r` of column `c` (R203). -/
theorem cell_eq (s : Block) (r c : Fin 4) : cell s r c = (s.column c).byte r := by
  fin_cases c <;> fin_cases r <;> rfl

/-- `g` on each byte of a column. -/
def Column.map (g : Byte → Byte) (a : Column) : Column := ⟨g a.b0, g a.b1, g a.b2, g a.b3⟩

/-- `f` on each column of a block. -/
def Block.mapColumns (f : Column → Column) (s : Block) : Block := ⟨f s.c0, f s.c1, f s.c2, f s.c3⟩

theorem subWord_eq_map : subWord = Column.map sbox := rfl

theorem subBytes_eq_mapColumns : subBytes = Block.mapColumns subWord := rfl

theorem mixColumns_eq_mapColumns : mixColumns = Block.mapColumns mixColumn := rfl

@[simp] theorem Column.byte_map (g : Byte → Byte) (a : Column) (r : Fin 4) : (a.map g).byte r = g (a.byte r) := by
  fin_cases r <;> rfl

@[simp] theorem Block.column_mapColumns (f : Column → Column) (s : Block) (c : Fin 4) :
    (s.mapColumns f).column c = f (s.column c) := by
  fin_cases c <;> rfl

@[simp] theorem Column.byte_xor (a b : Column) (r : Fin 4) : (a.xor b).byte r = a.byte r ^^^ b.byte r := by
  fin_cases r <;> rfl

@[simp] theorem Block.column_xor (s t : Block) (c : Fin 4) : (s.xor t).column c = (s.column c).xor (t.column c) := by
  fin_cases c <;> rfl

theorem column_roundKey (w : List Column) (rnd : Nat) (c : Fin 4) :
    (roundKey w rnd).column c = w.getD (4 * rnd + c.val) zeroColumn := by
  fin_cases c <;> rfl

theorem cell_shiftRows (s : Block) (r c : Fin 4) : cell (shiftRows s) r c = cell s r (c + r) := by
  fin_cases c <;> fin_cases r <;> rfl

/-! ### Bytes in and out of a block -/

/-- The bytes of a word are the four of the string at its place (R208). -/
theorem bytes_wordAt {x : List Byte} {j : Nat} (h : 4 * j + 4 ≤ x.length) :
    (wordAt x j).bytes = (x.drop (4 * j)).take 4 := by
  have hlen : 4 * j < x.length ∧ 4 * j + 1 < x.length ∧ 4 * j + 2 < x.length ∧ 4 * j + 3 < x.length := by omega
  obtain ⟨h0, h1, h2, h3⟩ := hlen
  simp only [wordAt, Column.bytes, List.getD_eq_getElem, h0, h1, h2, h3]
  rw [List.drop_eq_getElem_cons h0, List.drop_eq_getElem_cons h1, List.drop_eq_getElem_cons h2,
    List.drop_eq_getElem_cons h3]
  rfl

/-- A 16-byte string taken into a block and out again is itself (R203). -/
theorem bytes_ofBytes {x : List Byte} (h : x.length = 16) : (Block.ofBytes x).bytes = x := by
  simp only [Block.bytes, Block.ofBytes]
  rw [bytes_wordAt (by omega), bytes_wordAt (by omega), bytes_wordAt (by omega), bytes_wordAt (by omega)]
  simp [← List.take_add, ← h]

/-- A block's bytes taken into a block are that block (R203). -/
@[simp] theorem ofBytes_bytes (s : Block) : Block.ofBytes s.bytes = s := rfl

/-- Settles O32: each transformation acts by columns and bytes; the products are the doubled and the tripled byte. -/
theorem roundTransformations : Obligations.RoundTransformations := by
  refine ⟨fun x hx => ⟨bytes_ofBytes hx, fun r c => ?_⟩, fun s r c => ?_, cell_shiftRows, fun s c => ?_,
    fun w rnd s r c => ?_⟩
  · rw [cell, bytes_ofBytes hx]
  · simp only [cell_eq, subBytes_eq_mapColumns, subWord_eq_map, Block.column_mapColumns, Column.byte_map]
  · simp only [cell_eq, mixColumns_eq_mapColumns, Block.column_mapColumns, gfMul_two, gfMul_three]
    exact ⟨rfl, rfl, rfl, rfl⟩
  · rw [Column.getD_bytes, cell_eq, addRoundKey, Block.column_xor, Column.byte_xor, column_roundKey, cell_eq]

end Sys2Proof.Machine
end

section
/-!
The key schedule and the round sequence of the cipher (spec/42_cipher.md R208, R209).
-/

namespace Sys2Proof.Machine

/-- A fold over `0, …, n − 1` ends where the chain of its states does. -/
theorem foldl_range_eq_of_chain {α : Type} {f : α → Nat → α} {y : Nat → α} {n : Nat}
    (h : ∀ j, j < n → y (j + 1) = f (y j) j) : (List.range n).foldl f (y 0) = y n := by
  induction n with
  | zero => rfl
  | succ n ih =>
    rw [List.range_succ, List.foldl_append, ih fun j hj => h j (by omega), h n (by omega)]
    rfl

/-! ### The key schedule -/

section

variable (nk n : Nat) (w : List Column)

theorem extendKey_length : (extendKey nk n w).length = w.length + n := by
  induction n generalizing w with
  | zero => rfl
  | succ n ih => rw [extendKey, ih, List.length_append, List.length_singleton]; omega

/-- Extending the schedule adds words after those it has (R208). -/
theorem exists_append_eq_extendKey : ∃ v, w ++ v = extendKey nk n w := by
  induction n generalizing w with
  | zero => exact ⟨[], List.append_nil w⟩
  | succ n ih =>
    obtain ⟨v, hv⟩ := ih (w ++ [nextKeyWord nk w])
    exact ⟨nextKeyWord nk w :: v, by rw [extendKey, ← hv, List.append_assoc, List.singleton_append]⟩

variable {nk n w}

theorem extendKey_getD_of_lt {i : Nat} (h : i < w.length) :
    (extendKey nk n w).getD i zeroColumn = w.getD i zeroColumn := by
  obtain ⟨v, hv⟩ := exists_append_eq_extendKey nk n w
  rw [← hv, List.getD_append _ _ _ _ h]

/-- Each word an extension adds is the next word of the schedule before it (R208). -/
theorem extendKey_getD_of_le {i : Nat} (hle : w.length ≤ i) (hlt : i < w.length + n) :
    (extendKey nk n w).getD i zeroColumn = nextKeyWord nk ((extendKey nk n w).take i) := by
  induction n generalizing w with
  | zero => omega
  | succ n ih =>
    have hlen : (w ++ [nextKeyWord nk w]).length = w.length + 1 := List.length_append
    rcases hle.eq_or_lt with rfl | hgt
    · have htake : (extendKey nk (n + 1) w).take w.length = w := by
        obtain ⟨v, hv⟩ := exists_append_eq_extendKey nk (n + 1) w
        rw [← hv, List.take_left]
      rw [htake, extendKey, extendKey_getD_of_lt (by omega), List.getD_append_right _ _ _ _ le_rfl, Nat.sub_self]
      rfl
    · rw [extendKey]
      exact ih (by omega) (by omega)

/-- The next word depends on the last word and on the one `Nk` words back (R208). -/
theorem nextKeyWord_take {i : Nat} (h0 : 0 < nk) (hnk : nk ≤ i) (hi : i ≤ w.length) :
    nextKeyWord nk (w.take i) = (w.getD (i - nk) zeroColumn).xor
      (if i % nk = 0 then
        (subWord (rotWord (w.getD (i - 1) zeroColumn))).xor ⟨roundConstant (i / nk), 0#8, 0#8, 0#8⟩
      else if nk = 8 ∧ i % nk = 4 then subWord (w.getD (i - 1) zeroColumn)
      else w.getD (i - 1) zeroColumn) := by
  have hget {j : Nat} (hj : j < i) : (w.take i).getD j zeroColumn = w.getD j zeroColumn := by
    simp [List.getD, hj]
  simp only [nextKeyWord, List.length_take, Nat.min_eq_left hi]
  rw [hget (by omega), hget (by omega)]

end

/-- The round constants are the powers of `x` (R208). -/
theorem roundConstant_eq : ∀ j, j < 11 → 1 ≤ j → roundConstant j = xtime^[j - 1] 0x01#8 := by decide

/-- A legal key has 4, 6 or 8 words (R200). -/
theorem LegalKey.length_div_four {key : List Byte} (h : LegalKey key) :
    key.length / 4 = 4 ∨ key.length / 4 = 6 ∨ key.length / 4 = 8 := by
  unfold LegalKey at h
  omega

/-- No key length uses more than ten round constants (R208). -/
theorem LegalKey.div_lt {key : List Byte} (h : LegalKey key) {i : Nat} (hi : i < 4 * (key.length / 4 + 7)) :
    i / (key.length / 4) < 11 := by
  rcases h.length_div_four with hnk | hnk | hnk <;> rw [hnk] at hi ⊢ <;> omega

/-- Settles O33: the schedule extends the key's words, each time by the next word. -/
theorem keyExpansionRecurrence : Obligations.KeyExpansionRecurrence := by
  intro key hkey
  have hpos : 0 < key.length / 4 := by rcases hkey.length_div_four with h | h | h <;> omega
  have hwords : ((List.range (keyWords key)).map (wordAt key)).length = key.length / 4 := by simp [keyWords]
  have hadded : key.length / 4 + (4 * (rounds key + 1) - keyWords key) = 4 * (key.length / 4 + 7) := by
    simp only [rounds, keyWords]; omega
  have hlength : (expandKey key).length = 4 * (key.length / 4 + 7) := by
    rw [expandKey, extendKey_length, hwords, hadded]
  refine ⟨hlength, fun i hi => ?_, fun i hle hlt => ?_⟩
  · rw [expandKey, extendKey_getD_of_lt (hwords ▸ hi)]
    simp [List.getD, keyWords, hi]
  · have hnext : (expandKey key).getD i zeroColumn = nextKeyWord (key.length / 4) ((expandKey key).take i) :=
      extendKey_getD_of_le (hwords ▸ hle) (by rw [hwords, hadded]; exact hlt)
    have hround : 1 ≤ i / (key.length / 4) := Nat.div_pos hle hpos
    rw [hnext, nextKeyWord_take hpos hle (by omega), roundConstant_eq _ (hkey.div_lt hlt) hround]

/-! ### The rounds -/

/-- Settles O34: the rounds before the last are a fold, whose states are the chain of the statement. -/
theorem cipherRoundSequence : Obligations.CipherRoundSequence := by
  intro key x st _ h0 hst
  have hfold : (List.range' 1 (key.length / 4 + 5)).foldl (fullRound (expandKey key)) (st 0) =
      st (key.length / 4 + 5) := by
    rw [List.range'_eq_map_range, List.foldl_map]
    refine foldl_range_eq_of_chain fun j hj => ?_
    rw [Nat.add_comm 1 j]
    exact hst (j + 1) (by omega) (by omega)
  rw [← hfold, h0]
  rfl

end Sys2Proof.Machine
end

section
/-!
`E_K` is a permutation of the blocks (spec/42_cipher.md R211): each step of a round has an inverse.
-/

namespace Sys2Proof.Machine

open Function

/-! ### SubBytes -/

/-- The S-box is the affine map, which has an inverse, after the inverse in GF(2^8), which is its own (R202). -/
theorem bijective_sbox : Bijective sbox := by
  have haffine : Bijective sboxAffine :=
    bijective_iff_has_inverse.mpr ⟨sboxUnaffine, sboxUnaffine_sboxAffine, sboxAffine_sboxUnaffine⟩
  have hinv : Bijective gfInv := Involutive.bijective gfInv_gfInv
  rw [show sbox = sboxAffine ∘ gfInv from funext sbox_eq_sboxAffine]
  exact haffine.comp hinv

theorem bijective_columnMap {g : Byte → Byte} (hg : Bijective g) : Bijective (Column.map g) := by
  obtain ⟨k, hkg, hgk⟩ := bijective_iff_has_inverse.mp hg
  exact bijective_iff_has_inverse.mpr
    ⟨Column.map k, fun a => by simp [Column.map, hkg _], fun a => by simp [Column.map, hgk _]⟩

theorem bijective_mapColumns {f : Column → Column} (hf : Bijective f) : Bijective (Block.mapColumns f) := by
  obtain ⟨k, hkf, hfk⟩ := bijective_iff_has_inverse.mp hf
  exact bijective_iff_has_inverse.mpr
    ⟨Block.mapColumns k, fun s => by simp [Block.mapColumns, hkf _], fun s => by simp [Block.mapColumns, hfk _]⟩

theorem bijective_subBytes : Bijective subBytes := bijective_mapColumns (bijective_columnMap bijective_sbox)

/-! ### ShiftRows -/

/-- Four shifts rotate each row all the way round (R205). -/
theorem bijective_shiftRows : Bijective shiftRows :=
  bijective_iff_has_inverse.mpr ⟨shiftRows^[3], fun _ => rfl, fun _ => rfl⟩

/-! ### MixColumns -/

theorem byte_xor_left_comm (a b c : Byte) : a ^^^ (b ^^^ c) = b ^^^ (a ^^^ c) := by ac_rfl

@[simp] theorem byte_xor_cancel_left (a b : Byte) : a ^^^ (a ^^^ b) = b := by
  rw [← BitVec.xor_assoc, BitVec.xor_self, BitVec.zero_xor]

/-- Doubling is additive (R201). -/
theorem xtime_xor (a b : Byte) : xtime (a ^^^ b) = xtime a ^^^ xtime b := by
  have hmsb (c : Byte) : xtime c = (c <<< 1) ^^^ (if c.msb then 0x1B#8 else 0x00#8) := by
    simp [xtime, BitVec.msb_eq_decide, BitVec.le_def]
  rw [hmsb, hmsb a, hmsb b, BitVec.shiftLeft_xor_distrib, BitVec.msb_xor]
  cases a.msb <;> cases b.msb <;> simp [BitVec.xor_assoc, BitVec.xor_comm, byte_xor_left_comm]

/-- Row `r` of a mixed column, from the entries of the column in order from row `r` (R206). -/
def mixRow (p q r s : Byte) : Byte := xtime p ^^^ times3 q ^^^ r ^^^ s

/-- Each row of a mixed column is made alike, the rows counted from it around the column (R206). -/
theorem mixColumn_eq_mixRow (a : Column) : mixColumn a =
    ⟨mixRow a.b0 a.b1 a.b2 a.b3, mixRow a.b1 a.b2 a.b3 a.b0, mixRow a.b2 a.b3 a.b0 a.b1,
     mixRow a.b3 a.b0 a.b1 a.b2⟩ := by
  simp only [mixColumn, mixRow, Column.mk.injEq, true_and]
  refine ⟨?_, ?_, ?_⟩ <;> ac_rfl

/-- Mixing twice adds four times the sum with the entry two rows on (R206). -/
theorem mixRow_mixRow (p q r s : Byte) :
    mixRow (mixRow p q r s) (mixRow q r s p) (mixRow r s p q) (mixRow s p q r) = p ^^^ xtime (xtime (p ^^^ r)) := by
  simp only [mixRow, times3, xtime_xor]
  simp [BitVec.xor_assoc, BitVec.xor_comm, byte_xor_left_comm]

theorem mixColumn_mixColumn (a : Column) : mixColumn (mixColumn a) =
    ⟨a.b0 ^^^ xtime (xtime (a.b0 ^^^ a.b2)), a.b1 ^^^ xtime (xtime (a.b1 ^^^ a.b3)),
     a.b2 ^^^ xtime (xtime (a.b2 ^^^ a.b0)), a.b3 ^^^ xtime (xtime (a.b3 ^^^ a.b1))⟩ := by
  simp only [mixColumn_eq_mixRow, mixRow_mixRow]

/-- Mixed twice and twice again, a column is itself (R206). -/
theorem involutive_mixColumn_mixColumn : Involutive (mixColumn ∘ mixColumn) := by
  intro a
  simp only [comp_apply, mixColumn_mixColumn, xtime_xor]
  simp [BitVec.xor_assoc, BitVec.xor_comm]

theorem bijective_mixColumns : Bijective mixColumns := by
  have htwice : Bijective (mixColumn ∘ mixColumn) := involutive_mixColumn_mixColumn.bijective
  exact bijective_mapColumns ⟨htwice.injective.of_comp, htwice.surjective.of_comp⟩

/-! ### AddRoundKey and the rounds -/

section

variable (w : List Column) (rnd : Nat)

/-- A round key added twice cancels (R207). -/
theorem involutive_addRoundKey : Involutive (addRoundKey w rnd) := by
  intro s
  simp [addRoundKey, Block.xor, Column.xor]

theorem bijective_addRoundKey : Bijective (addRoundKey w rnd) := (involutive_addRoundKey w rnd).bijective

theorem bijective_lastRound : Bijective fun s => lastRound w s rnd :=
  (bijective_addRoundKey w rnd).comp (bijective_shiftRows.comp bijective_subBytes)

theorem bijective_fullRound : Bijective fun s => fullRound w s rnd :=
  (bijective_addRoundKey w rnd).comp (bijective_mixColumns.comp (bijective_shiftRows.comp bijective_subBytes))

/-- Rounds in a row are a permutation (R209). -/
theorem bijective_foldl_fullRound (l : List Nat) : Bijective fun s => l.foldl (fullRound w) s := by
  induction l with
  | nil => exact bijective_id
  | cons rnd l ih => exact ih.comp (bijective_fullRound w rnd)

end

/-- `E_K` is one permutation after another (R209). -/
theorem encryptBlock_eq_comp (key : List Byte) : encryptBlock key =
    (fun s => lastRound (expandKey key) s (rounds key)) ∘
      (fun s => (List.range' 1 (rounds key - 1)).foldl (fullRound (expandKey key)) s) ∘
        addRoundKey (expandKey key) 0 := rfl

/-- Settles O35: `E_K` is a composition of permutations, for any key. -/
theorem cipherIsAPermutation : Obligations.CipherIsAPermutation := by
  intro key _
  rw [encryptBlock_eq_comp]
  exact (bijective_lastRound _ _).comp ((bijective_foldl_fullRound _ _).comp (bijective_addRoundKey _ 0))

end Sys2Proof.Machine
end

section
/-!
The blocks of a byte string and the CBC chain over them (spec/42_cipher.md R210 to R216).
-/

namespace Sys2Proof.Machine

/-! ### The blocks of a byte string -/

theorem blockAt_drop (x : List Byte) (j : Nat) : blockAt (x.drop 16) j = blockAt x (j + 1) := by
  rw [blockAt, blockAt, List.drop_drop, show 16 + 16 * j = 16 * (j + 1) by omega]

/-- The first `k` blocks, by position (R210). -/
theorem blocksOf_eq_map (k : Nat) (x : List Byte) : blocksOf k x = (List.range k).map (blockAt x) := by
  induction k generalizing x with
  | zero => rfl
  | succ k ih =>
    rw [blocksOf, ih, List.range_succ_eq_map, List.map_cons, List.map_map]
    exact congrArg _ (List.map_congr_left fun j _ => blockAt_drop x j)

/-- A block before a string is the string's first (R210). -/
theorem blocksOf_succ_append {b : List Byte} (hb : b.length = 16) (k : Nat) (x : List Byte) :
    blocksOf (k + 1) (b ++ x) = Block.ofBytes b :: blocksOf k x := by
  rw [blocksOf, ← hb, List.take_left, List.drop_left]

/-- The blocks of a string of whole blocks come before those of the string after it (R214). -/
theorem blocksOf_add_append {a : List Byte} {j : Nat} (ha : a.length = 16 * j) (k : Nat) (x : List Byte) :
    blocksOf (j + k) (a ++ x) = blocksOf j a ++ blocksOf k x := by
  induction j generalizing a with
  | zero => simp [List.length_eq_zero_iff.mp ha, blocksOf]
  | succ j ih =>
    have h16 : 16 ≤ a.length := by omega
    rw [Nat.add_right_comm, blocksOf, blocksOf, List.take_append_of_le_length h16, List.drop_append_of_le_length h16,
      ih (by rw [List.length_drop]; omega), List.cons_append]

/-! ### The CBC chain -/

/-- One block of the CBC chain (R213). -/
def cbcStep (key : List Byte) (y b : Block) : Block := encryptBlock key (y.xor b)

theorem cbcMac_eq_foldl (key : List Byte) (k : Nat) (x : List Byte) :
    cbcMac key k x = (blocksOf k x).foldl (cbcStep key) Block.zero := rfl

theorem zero_xor_block (b : Block) : Block.zero.xor b = b := by
  simp [Block.zero, Block.xor, Column.xor]

/-- The CBC chain over the blocks of a string ends where its states do (R213, R216). -/
theorem foldl_cbcStep_of_chain {key x : List Byte} {y : Nat → Block} {k : Nat}
    (hy : ∀ j, j < k → y (j + 1) = encryptBlock key ((y j).xor (blockAt x j))) :
    (blocksOf k x).foldl (cbcStep key) (y 0) = y k := by
  rw [blocksOf_eq_map, List.foldl_map]
  exact foldl_range_eq_of_chain hy

/-- After a first block the MAC is the chain from that block enciphered (R213). -/
theorem cbcMac_succ_append (key : List Byte) (b : Block) (k : Nat) (x : List Byte) :
    cbcMac key (k + 1) (b.bytes ++ x) = (blocksOf k x).foldl (cbcStep key) (encryptBlock key b) := by
  rw [cbcMac_eq_foldl, blocksOf_succ_append (block_bytes_length b), ofBytes_bytes, List.foldl_cons, cbcStep,
    zero_xor_block]

/-- Settles O37: both sides are the chain over `B'` from `E_K(PRF(A) ⊕ B_0)`. -/
theorem prfChaining : Obligations.PrfChaining := by
  intro key a b0 b' j k ha hb0 _
  rw [cbcMac_succ_append, cbcMac_eq_foldl, blocksOf_add_append ha, blocksOf_succ_append hb0, List.foldl_append,
    List.foldl_cons]
  rfl

/-- Settles O38: both sides are the chain over `Q'` from `E_K(P ⊕ Q_0)`. -/
theorem cbcWithIvFromPrf : Obligations.CbcWithIvFromPrf := by
  intro key q0 q' p k y hq0 _ hp hy
  rw [← foldl_cbcStep_of_chain hy, hp, blocksOf_succ_append hq0, List.foldl_cons, cbcMac_succ_append]
  rfl

/-! ### ECB -/

/-- One more block of output comes after those before it (R210). -/
theorem ecb_succ (key : List Byte) (k : Nat) (x : List Byte) :
    ecb key (k + 1) x = ecb key k x ++ (encryptBlock key (blockAt x k)).bytes := by
  simp [ecb, blocksOf_eq_map, List.range_succ]

theorem bytesAt_append {m : Memory} {a : Nat} {xs ys : List Byte} :
    BytesAt m a (xs ++ ys) ↔ BytesAt m a xs ∧ BytesAt m (a + xs.length) ys := by
  induction xs generalizing a with
  | nil => simp [bytesAt_nil]
  | cons x xs ih =>
    rw [List.cons_append, bytesAt_cons, bytesAt_cons, ih, List.length_cons, and_assoc,
      show a + 1 + xs.length = a + (xs.length + 1) by omega]

/-- A range holds CIPH's output exactly when each block of it holds that block enciphered (R210). -/
theorem bytesAt_ecb {m : Memory} {a k : Nat} {key x : List Byte} : BytesAt m a (ecb key k x) ↔
    ∀ j, j < k → BytesAt m (a + 16 * j) (encryptBlock key (blockAt x j)).bytes := by
  induction k with
  | zero => exact iff_of_true bytesAt_nil nofun
  | succ k ih => rw [ecb_succ, bytesAt_append, ih, ecb_length, Nat.forall_lt_succ_right]

/-- Two stores side by side are one store (R84). -/
theorem writeRange_append (m : Memory) (a : Nat) (xs ys : List Byte) :
    m.writeRange a (xs ++ ys) = (m.writeRange a xs).writeRange (a + xs.length) ys := by
  induction xs generalizing m a with
  | nil => rfl
  | cons x xs ih =>
    rw [List.cons_append, Memory.writeRange, Memory.writeRange, ih, List.length_cons,
      show a + 1 + xs.length = a + (xs.length + 1) by omega]

end Sys2Proof.Machine
end

section
/-!
The commands CIPH and PRF (spec/42_cipher.md R210, R213): the checks they share, how each can end, and CIPH block by
block.
-/

namespace Sys2Proof.Machine

/-! ### The checks and the source -/

/-- The checks of CIPH and PRF after the key's, in order, for an output of `out` bytes (R210, R213). -/
def cipherChecks (out : Nat) (s : State) : Cmd Unit := do
  checkBlockLen s.cfg s.len.toNat
  checkBounds s.cfg s.src.toNat s.len.toNat
  checkBounds s.cfg s.dst.toNat out

theorem cipherChecks_eq_ok {out : Nat} {s : State} (u : Unit) : cipherChecks out s = .ok u ↔ CipherOk out s := by
  simp only [cipherChecks, bind_eq_ok, checkBlockLen_eq_ok, checkBounds_eq_ok, CipherOk]
  simp [and_assoc]

theorem cipherChecks_eq_error {out : Nat} {s : State} {x : Stop} :
    cipherChecks out s = .error x ↔ ¬CipherOk out s ∧ x = .raises .invalidArgument :=
  error_iff_not_ok cipherChecks_eq_ok fun y h => by
    simp only [cipherChecks, bind_eq_error, checkBlockLen_eq_error, checkBounds_eq_error] at h
    rcases h with ⟨-, hy⟩ | ⟨_, -, ⟨-, hy⟩ | ⟨_, -, -, hy⟩⟩ <;> exact hy

/-- What CIPH and PRF share: the key, the checks for `out` bytes of output, the source bytes, and the store at DST of
what `f` makes of key and source (R210, R213). -/
def cipherCommand (out : Nat) (f : List Byte → List Byte → List Byte) (s : State) : Cmd State := do
  let key ← loadedKey s
  cipherChecks out s
  let x ← memRead s s.src.toNat s.len.toNat
  pure (memWrite s s.dst.toNat (f key x))

section

variable (s : State)

theorem exec_ciph_eq : exec .ciph s =
    commit s (cipherCommand s.len.toNat (fun key x => ecb key (s.len.toNat / 16) x) s) := by
  simp only [cipherCommand, cipherChecks, bind_assoc]
  rfl

theorem exec_prf_eq : exec .prf s =
    commit s (cipherCommand 16 (fun key x => (cbcMac key (s.len.toNat / 16) x).bytes) s) := by
  simp only [cipherCommand, cipherChecks, bind_assoc]
  rfl

end

section

variable {out : Nat} {f : List Byte → List Byte → List Byte} {s : State}

theorem commit_cipherCommand_of_no_key (h : s.keyLen = .empty) :
    commit s (cipherCommand out f s) = .next (s.failed 1#3) := by
  rw [cipherCommand, loadedKey_eq_error.mpr ⟨h, rfl⟩, error_bind, commit_nullArgument]

variable (hkey : s.keyLen ≠ .empty)
include hkey

theorem commit_cipherCommand_of_not_ok (h : ¬CipherOk out s) :
    commit s (cipherCommand out f s) = .next (s.failed 2#3) := by
  rw [cipherCommand, loadedKey_eq_ok.mpr ⟨hkey, rfl⟩, ok_bind, cipherChecks_eq_error.mpr ⟨h, rfl⟩, error_bind,
    commit_invalidArgument]

variable (hok : CipherOk out s)
include hok

theorem cipherCommand_of_ok : cipherCommand out f s =
    memRead s s.src.toNat s.len.toNat >>= fun x => pure (memWrite s s.dst.toNat (f s.aesKey x)) := by
  rw [cipherCommand, loadedKey_eq_ok.mpr ⟨hkey, rfl⟩, ok_bind, (cipherChecks_eq_ok ()).mpr hok, ok_bind]
  rfl

theorem commit_cipherCommand_of_unwritten (h : Unwritten s.buf s.src.toNat s.len.toNat) :
    commit s (cipherCommand out f s) = .fault (.uninitRead s.src.toNat s.len.toNat) := by
  rw [cipherCommand_of_ok hkey hok, memRead_eq_error.mpr ⟨h, rfl⟩, error_bind, commit_faults]

theorem commit_cipherCommand_of_bytesAt {x : List Byte} (hlen : x.length = s.len.toNat)
    (hx : BytesAt s.buf s.src.toNat x) : commit s (cipherCommand out f s) =
      .next { s.done with buf := s.buf.writeRange s.dst.toNat (f s.aesKey x) } := by
  rw [cipherCommand_of_ok hkey hok, memRead_eq_ok.mpr ⟨hlen, hx⟩]
  rfl

end

/-- CIPH stores its source enciphered block by block (R210). -/
theorem exec_ciph {s : State} {x : List Byte} (hkey : s.keyLen ≠ .empty) (hok : CipherOk s.len.toNat s)
    (hlen : x.length = s.len.toNat) (hx : BytesAt s.buf s.src.toNat x) : exec .ciph s =
      .next { s.done with buf := s.buf.writeRange s.dst.toNat (ecb s.aesKey (s.len.toNat / 16) x) } := by
  rw [exec_ciph_eq, commit_cipherCommand_of_bytesAt hkey hok hlen hx]

theorem CipherOk.sixteen_mul_div {out : Nat} {s : State} (h : CipherOk out s) :
    16 * (s.len.toNat / 16) = s.len.toNat := by
  obtain ⟨-, hmod, -⟩ := h
  omega

/-- Settles O30: each clause is one way the checks or the read can end. -/
theorem cipherErrors : Obligations.CipherErrors := by
  intro s
  rw [exec_ciph_eq, exec_prf_eq]
  exact ⟨fun h => ⟨commit_cipherCommand_of_no_key h, commit_cipherCommand_of_no_key h⟩,
    commit_cipherCommand_of_not_ok, commit_cipherCommand_of_not_ok,
    commit_cipherCommand_of_unwritten, commit_cipherCommand_of_unwritten⟩

/-- Settles O28: the source is read whole before the store. -/
theorem ciphEnciphersEachBlock : Obligations.CiphEnciphersEachBlock := by
  intro s x hkey hok hlen hx
  refine ⟨_, exec_ciph hkey hok hlen hx, bytesAt_ecb.mp (bytesAt_writeRange _ _ _), ?_⟩
  have hkept := keptOutside_writeRange s.buf s.dst.toNat (ecb s.aesKey (s.len.toNat / 16) x)
  rwa [ecb_length, hok.sixteen_mul_div] at hkept

/-- Settles O29: the MAC is the end of the chain. -/
theorem prfIsTheCbcMac : Obligations.PrfIsTheCbcMac := by
  intro s x y hkey hok hlen hx h0 hy
  have hmac : cbcMac s.aesKey (s.len.toNat / 16) x = y (s.len.toNat / 16) := by
    rw [cbcMac_eq_foldl, ← h0, foldl_cbcStep_of_chain hy]
  have hexec := (exec_prf_eq s).trans (commit_cipherCommand_of_bytesAt hkey hok hlen hx)
  rw [hmac] at hexec
  have hkept := keptOutside_writeRange s.buf s.dst.toNat (y (s.len.toNat / 16)).bytes
  rw [block_bytes_length] at hkept
  exact ⟨_, hexec, bytesAt_writeRange _ _ _, hkept⟩

end Sys2Proof.Machine
end

section
/-!
One CIPH of several blocks against as many CIPH commands of one block each (spec/42_cipher.md R211).
-/

namespace Sys2Proof.Machine

/-- A CIPH that completes without error passed its checks on a written source (R210). -/
theorem source_of_exec_ciph {s u : State} (h : exec .ciph s = .next u) (hu : u.err = false) :
    s.keyLen ≠ .empty ∧ CipherOk s.len.toNat s ∧
      ∃ x : List Byte, x.length = s.len.toNat ∧ BytesAt s.buf s.src.toNat x := by
  obtain ⟨hnokey, hnotok, -, hunwritten, -⟩ := cipherErrors s
  have hkey : s.keyLen ≠ .empty := fun hempty => ne_failed h hu s _ (hnokey hempty).1
  have hok : CipherOk s.len.toNat s := not_not.mp fun hbad => ne_failed h hu s _ (hnotok hkey hbad)
  refine ⟨hkey, hok, ?_⟩
  cases hread : s.buf.readRange s.src.toNat s.len.toNat with
  | none => simp [hunwritten hkey hok (Memory.readRange_eq_none.mp hread)] at h
  | some x => exact ⟨x, Memory.readRange_eq_some.mp hread⟩

/-! ### The states between the commands -/

/-- The operand registers of CIPH number `j` of one block each, from the operands of `s` (R211). -/
def State.withBlockOps (t s : State) (j : Nat) : State :=
  { t with
    src := BitVec.ofNat 32 (s.src.toNat + 16 * j)
    dst := BitVec.ofNat 32 (s.dst.toNat + 16 * j)
    len := 16#32 }

/-- CIPH of one block stores it enciphered (R210). -/
theorem exec_ciph_withBlockOps {t s : State} {j : Nat} {b : List Byte} (hkey : t.keyLen ≠ .empty)
    (hbuf : t.cfg.bufBytes < 2 ^ 32) (hmax : 16 ≤ t.cfg.maxLen)
    (hsrc : s.src.toNat + 16 * j + 16 ≤ t.cfg.bufBytes) (hdst : s.dst.toNat + 16 * j + 16 ≤ t.cfg.bufBytes)
    (hlen : b.length = 16) (hb : BytesAt t.buf (s.src.toNat + 16 * j) b) : exec .ciph (t.withBlockOps s j) =
      .next { (t.withBlockOps s j).done with
        buf := t.buf.writeRange (s.dst.toNat + 16 * j) (encryptBlock t.aesKey (Block.ofBytes b)).bytes } := by
  have hsrcj : (t.withBlockOps s j).src.toNat = s.src.toNat + 16 * j :=
    (BitVec.toNat_ofNat ..).trans (Nat.mod_eq_of_lt (by omega))
  have hdstj : (t.withBlockOps s j).dst.toNat = s.dst.toNat + 16 * j :=
    (BitVec.toNat_ofNat ..).trans (Nat.mod_eq_of_lt (by omega))
  have h16 : (t.withBlockOps s j).len.toNat = 16 := rfl
  have hok : CipherOk 16 (t.withBlockOps s j) := by
    rw [CipherOk, h16, hsrcj, hdstj]
    exact ⟨le_rfl, rfl, hmax, hsrc, hdst⟩
  have hecb (key : List Byte) : ecb key 1 b = (encryptBlock key (Block.ofBytes b)).bytes := by
    rw [ecb_succ, blockAt, Nat.mul_zero, List.drop_zero, ← hlen, List.take_length]
    rfl
  have hexec := exec_ciph (s := t.withBlockOps s j) hkey (h16 ▸ hok) (h16 ▸ hlen) (hsrcj ▸ hb)
  rw [h16, hecb, hdstj] at hexec
  exact hexec

/-- The state after the first `j` of the CIPH commands of one block each, over the source `x` (R211). -/
def ciphSoFar (s : State) (x : List Byte) : Nat → State
  | 0 => s
  | j + 1 => { ((ciphSoFar s x j).withBlockOps s j).done with
      buf := s.buf.writeRange s.dst.toNat (ecb s.aesKey (j + 1) x) }

section

variable {s : State} {x : List Byte}

theorem ciphSoFar_buf (j : Nat) :
    (ciphSoFar s x j).buf = s.buf.writeRange s.dst.toNat (ecb s.aesKey j x) := by
  cases j with
  | zero => rw [ecb, blocksOf]; rfl
  | succ j => rw [ciphSoFar]

/-- The commands of one block change neither the parameters nor the key (R34, R35). -/
theorem ciphSoFar_kept (j : Nat) : (ciphSoFar s x j).cfg = s.cfg ∧ (ciphSoFar s x j).keyLen = s.keyLen ∧
    (ciphSoFar s x j).aesKey = s.aesKey := by
  induction j with
  | zero => exact ⟨rfl, rfl, rfl⟩
  | succ j ih => exact ih

/-- Source block `j` still reads as at first, when no block stored before it overlaps it (R211). -/
theorem bytesAt_ciphSoFar {j : Nat} (hin : 16 * j + 16 ≤ x.length) (hx : BytesAt s.buf s.src.toNat x)
    (hsep : ∀ i, i < j → s.dst.toNat + 16 * i + 16 ≤ s.src.toNat + 16 * j ∨
      s.src.toNat + 16 * j + 16 ≤ s.dst.toNat + 16 * i) :
    BytesAt (ciphSoFar s x j).buf (s.src.toNat + 16 * j) ((x.drop (16 * j)).take 16) := by
  intro r hr
  have hr16 : r < 16 := by rw [List.length_take] at hr; omega
  have hout : s.src.toNat + 16 * j + r < s.dst.toNat ∨ s.dst.toNat + 16 * j ≤ s.src.toNat + 16 * j + r := by
    have := hsep ((s.src.toNat + 16 * j + r - s.dst.toNat) / 16)
    omega
  rw [ciphSoFar_buf, Memory.read_writeRange_outside _ (by rwa [ecb_length]), List.getElem_take, List.getElem_drop,
    Nat.add_assoc]
  exact hx (16 * j + r) (by omega)

/-- Each command of one block takes the state to the next, in a buffer that 32-bit addresses reach (R211). -/
theorem exec_ciph_ciphSoFar {j : Nat} (hkey : s.keyLen ≠ .empty) (hok : CipherOk s.len.toNat s)
    (hlen : x.length = s.len.toNat) (hx : BytesAt s.buf s.src.toNat x) (hbuf : s.cfg.bufBytes < 2 ^ 32)
    (hj : 16 * j + 16 ≤ s.len.toNat)
    (hsep : ∀ i, i < j → s.dst.toNat + 16 * i + 16 ≤ s.src.toNat + 16 * j ∨
      s.src.toNat + 16 * j + 16 ≤ s.dst.toNat + 16 * i) :
    exec .ciph ((ciphSoFar s x j).withBlockOps s j) = .next (ciphSoFar s x (j + 1)) := by
  obtain ⟨hmin, -, hmax, hsrc, hdst⟩ := hok
  obtain ⟨hcfg, hkeyLen, haes⟩ := ciphSoFar_kept (s := s) (x := x) j
  rw [exec_ciph_withBlockOps (hkeyLen ▸ hkey) (hcfg ▸ hbuf) (by rw [hcfg]; omega) (by rw [hcfg]; omega)
    (by rw [hcfg]; omega) (by rw [List.length_take, List.length_drop]; omega)
    (bytesAt_ciphSoFar (by omega) hx hsep), haes, ciphSoFar_buf, ciphSoFar, ecb_succ, writeRange_append, ecb_length,
    blockAt]

end

/-- Settles O36: the commands of one block each store the same output piece by piece. -/
theorem ciphBlockByBlock : Obligations.CiphBlockByBlock := by
  intro s u k hwf hk hexec hu hsep
  obtain ⟨hkey, hok, x, hlen, hx⟩ := source_of_exec_ciph hexec hu
  have hbuf : s.cfg.bufBytes < 2 ^ 32 := by
    simp only [Config.wf, Bool.and_eq_true, decide_eq_true_eq] at hwf
    omega
  refine ⟨ciphSoFar s x, rfl, fun j hj => ⟨?_, rfl⟩, fun a => ?_⟩
  · exact exec_ciph_ciphSoFar hkey hok hlen hx hbuf (by omega) fun i hi => hsep i j (by omega) hj (by omega)
  · obtain rfl : _ = u := by simpa only [exec_ciph hkey hok hlen hx, Host.Outcome.next.injEq] using hexec
    rw [ciphSoFar_buf, hk, Nat.mul_div_cancel_left k (by decide)]

end Sys2Proof.Machine
end

section
/-!
The key and control commands KEYLD, KEYCLR and NOP (spec/43_control.md R250, R252, R254).
-/

namespace Sys2Proof.Machine

/-! ### NOP -/

/-- The only word with opcode 0x00 that decodes is 0 (R113, R120, R254). -/
theorem decode_nop_reserved {w : Word} (hop : opcodeField w = 0x00#8) (hne : w ≠ 0x00000000#32) :
    decode w = none := by
  refine Option.eq_none_iff_forall_ne_some.mpr fun i hi => hne ?_
  have hformat : formatN w .nop = .ok i := by simpa [decodeNamed, hop] using decode_eq_some.mp hi
  obtain ⟨-, rfl⟩ := unlessReserved_eq_ok.mp hformat
  exact (decodeThenEncode w .nop hi).symm

/-- Settles O8: a NOP commits no writes, and format N reserves [31:8]. -/
theorem nopCompletes : Obligations.NopCompletes := by
  refine ⟨decode_iff_encode.mpr rfl, fun s => commit_ok s s, fun s w hcore hpend hop hne => ?_⟩
  rw [step_eq_runCommand hcore hpend, runCommand_of_none (decode_nop_reserved hop hne)]

/-! ### KEYCLR -/

/-- Of the commands only KEYLD puts a key into an empty key store (R35). -/
theorem Writes.eq_keyld {s u : State} {i : Instr} (h : Writes s i u) (hs : s.keyLen = .empty)
    (hu : u.keyLen ≠ .empty) : i = .keyld := by
  by_contra hld
  by_cases hclr : i = .keyclr
  · subst hclr
    cases h
    exact hu rfl
  · obtain ⟨-, hkept, -⟩ := h.keyKept hld hclr
    exact hu (hkept.trans hs)

/-- A command after which a key is loaded, where none was before, is a KEYLD that completed (R252). -/
theorem eq_keyld_of_exec {i : Instr} {s t : State} (hs : s.keyLen = .empty) (h : exec i s = .next t)
    (ht : t.keyLen ≠ .empty) : i = .keyld ∧ t.err = false := by
  obtain ⟨e, -, rfl⟩ | ⟨u, hw, rfl⟩ := exec_cases h
  · exact absurd hs ht
  · exact ⟨hw.eq_keyld hs ht, rfl⟩

/-- Settles O9: KEYCLR commits an empty key store, which CIPH and PRF look at first and which only KEYLD fills. -/
theorem keyclrForgetsTheKey : Obligations.KeyclrForgetsTheKey := by
  refine ⟨decode_iff_encode.mpr rfl, fun s => ⟨_, _, commit_ok s (clearKey s)⟩, fun s hs => ?_,
    fun _ _ _ => eq_keyld_of_exec⟩
  obtain ⟨hnokey, -⟩ := cipherErrors s
  exact ⟨Bool.eq_false_iff.mpr fun hkeyv => keyv_iff.mp hkeyv hs, hnokey hs⟩

/-! ### KEYLD -/

/-- Every legal key length is a length of the key store (R35, R250). -/
theorem exists_keyLen_of_legal {n : Nat} (h : n = 16 ∨ n = 24 ∨ n = 32) : ∃ k : KeyLen, k ≠ .empty ∧ n = k.bytes := by
  obtain rfl | rfl | rfl := h
  exacts [⟨.k16, nofun, rfl⟩, ⟨.k24, nofun, rfl⟩, ⟨.k32, nofun, rfl⟩]

/-- What KEYLD does after the length check, for the key length `k`: the range is checked, read and made the key (R250). -/
def loadRange (k : KeyLen) (s : State) : Cmd State := do
  checkBounds s.cfg s.src.toNat s.len.toNat
  let bs ← memRead s s.src.toNat s.len.toNat
  pure (setKey s k bs)

theorem exec_keyld_eq (s : State) :
    exec .keyld s = commit s (checkKeyLen s.len.toNat >>= fun k => loadRange k s) := rfl

section

variable {s : State}

/-- An illegal length raises INVALID_KEY before the range is looked at (R250). -/
theorem exec_keyld_of_illegal (h : s.len.toNat ≠ 16 ∧ s.len.toNat ≠ 24 ∧ s.len.toNat ≠ 32) :
    exec .keyld s = .next (s.failed 3#3) := by
  rw [exec_keyld_eq, checkKeyLen_eq_error.mpr ⟨h, rfl⟩, error_bind]
  rfl

theorem exec_keyld_of_legal (h : s.len.toNat = 16 ∨ s.len.toNat = 24 ∨ s.len.toNat = 32) :
    ∃ k : KeyLen, s.len.toNat = k.bytes ∧ exec .keyld s = commit s (loadRange k s) := by
  obtain ⟨k, hk, hlen⟩ := exists_keyLen_of_legal h
  refine ⟨k, hlen, ?_⟩
  rw [exec_keyld_eq, checkKeyLen_eq_ok.mpr ⟨hk, hlen⟩, ok_bind]

variable (hlegal : s.len.toNat = 16 ∨ s.len.toNat = 24 ∨ s.len.toNat = 32)
include hlegal

theorem exec_keyld_of_out_of_bounds (h : s.cfg.bufBytes < s.src.toNat + s.len.toNat) :
    exec .keyld s = .next (s.failed 2#3) := by
  obtain ⟨k, -, hexec⟩ := exec_keyld_of_legal hlegal
  rw [hexec, loadRange, checkBounds_eq_error.mpr ⟨h.not_ge, rfl⟩, error_bind, commit_invalidArgument]

variable (hin : s.src.toNat + s.len.toNat ≤ s.cfg.bufBytes)
include hin

theorem exec_keyld_of_unwritten (h : Unwritten s.buf s.src.toNat s.len.toNat) :
    exec .keyld s = .fault (.uninitRead s.src.toNat s.len.toNat) := by
  obtain ⟨k, -, hexec⟩ := exec_keyld_of_legal hlegal
  rw [hexec, loadRange, (checkBounds_eq_ok ()).mpr hin, ok_bind, memRead_eq_error.mpr ⟨h, rfl⟩, error_bind, commit_faults]

/-- A written range of legal length becomes the key (R250). -/
theorem exec_keyld_of_bytesAt {bs : List Byte} (hlen : bs.length = s.len.toNat)
    (hbs : BytesAt s.buf s.src.toNat bs) :
    ∃ k : KeyLen, k.bytes = s.len.toNat ∧ exec .keyld s = .next (complete (setKey s k bs)) := by
  obtain ⟨k, hk, hexec⟩ := exec_keyld_of_legal hlegal
  refine ⟨k, hk.symm, ?_⟩
  rw [hexec, loadRange, (checkBounds_eq_ok ()).mpr hin, ok_bind, memRead_eq_ok.mpr ⟨hlen, hbs⟩, ok_bind, pure_eq_ok, commit_ok]

end

/-- Settles O10: each clause is one way the checks or the read can end. -/
theorem keyldLoadsTheKey : Obligations.KeyldLoadsTheKey := by
  refine ⟨decode_iff_encode.mpr rfl, fun s => ⟨fun bs hlegal hlen hin hbs => ?_,
    fun h16 h24 h32 => exec_keyld_of_illegal ⟨h16, h24, h32⟩, exec_keyld_of_out_of_bounds, exec_keyld_of_unwritten⟩⟩
  unfold LegalKey at hlegal
  obtain ⟨k, hk, hexec⟩ := exec_keyld_of_bytesAt (hlen ▸ hlegal) (hlen ▸ hin) hlen.symm hbs
  exact ⟨keyStore bs s.draws, k, _, hexec, hk.trans hlen, keyStore_take bs s.draws (by omega)⟩

end Sys2Proof.Machine
end

section
/-!
How a turn ends otherwise than by a completion: error completions (spec/60_exceptions.md R272), turns after a model fault
(R280), refused host accesses (R281) and idle turns (R295).
-/

namespace Sys2Proof.Machine

/-! ### Errors -/

/-- A raise is an error completion with one of the codes in use; 5 is reserved for FATAL (R270, R272, R274). -/
theorem exists_failed_of_raise {e : ErrKind} (he : e ≠ .fatal) (s : State) :
    ∃ code ∈ [1#3, 2#3, 3#3, 4#3, 6#3], raise e s = s.failed code := by
  refine ⟨e.code, ?_, rfl⟩
  cases e with
  | fatal => exact absurd rfl he
  | nullArgument | invalidArgument | invalidKey | arithmeticError | illegalCommand => decide

/-- Of the steps, whoever's turn they take, only a raise sets ERR (R48, R110, R272). -/
theorem exists_raise_of_err_set {s t : State} (herr : s.err = false) (h : step s = .next t) (ht : t.err = true) :
    ∃ e ≠ ErrKind.fatal, t = raise e s.afterTurn := by
  cases step_cases h with
  | raised e he => exact ⟨e, he, rfl⟩
  | completed | reset | taken => nomatch ht
  | kept | faulted | replied | operands | stored =>
    have hkept : s.err = true := ht
    simp [herr] at hkept

/-- Settles O42: the step is a raise, and a raise changes nothing but the report. -/
theorem errorsArePrecise : Obligations.ErrorsArePrecise := by
  intro s t _ _ herr h ht
  obtain ⟨e, he, rfl⟩ := exists_raise_of_err_set herr h ht
  exact exists_failed_of_raise he s.afterTurn

/-! ### Idle turns -/

/-- Settles O6: the core's turn does nothing while no command is pending. -/
theorem idleKeepsEverything : Obligations.IdleKeepsEverything := by
  rintro s ⟨hstopped, hturn⟩ hidle
  rw [step_eq_coreTurn hturn]
  simp [coreTurn, State.afterTurn, hstopped, hidle]

/-! ### Turns after a model fault -/

section

variable {s : State} {f : Fault} (hs : s.stopped = some f)
include hs

theorem step_core_of_stopped (h : s.turns = [] ∨ s.turns.head? = some .core) : step s = .fault f := by
  rw [step_eq_coreTurn h]
  simp [coreTurn, State.afterTurn, hs]

theorem step_hostRead_of_stopped {o : BitVec 17} {ts : List Turn} (ht : s.turns = .hostRead o :: ts)
    (ho : aligned o = true) : step s = .fault f := by
  rw [step_eq_hostTurn ht (by simp)]
  simp [hostTurn, ho, State.afterTurn, hs]

theorem step_hostWrite_of_stopped {o : BitVec 17} {v : Word} {ts : List Turn} (ht : s.turns = .hostWrite o v :: ts)
    (ho : aligned o = true) (hv : isSoftReset (targetOf o) v = false) : step s = .fault f := by
  rw [step_eq_hostTurn ht (by simp)]
  simp [hostTurn, ho, hv, State.afterTurn, hs]

end

/-- Settles O7, turn by turn. -/
theorem noStepAfterAFault : Obligations.NoStepAfterAFault := by
  refine fun s f hs => ⟨fun ht => step_core_of_stopped hs (.inl ht),
    fun ts ht => step_core_of_stopped hs (.inr (by simp [ht])),
    fun o ts ht ho => step_hostRead_of_stopped hs ht (by simpa [aligned] using ho),
    fun o v ts ht ho hreset => step_hostWrite_of_stopped hs ht (by simpa [aligned] using ho) ?_⟩
  exact Bool.eq_false_iff.mpr fun h => hreset (isSoftReset_targetOf.mp h)

/-! ### Refused host accesses -/

section

variable {s : State} {o : BitVec 17} {ts : List Turn}

theorem step_hostOther {bits : Nat} (ht : s.turns = .hostOther bits o :: ts) :
    step s = .refused (.hostAccessForm bits o.toNat) := by
  rw [step_eq_hostTurn ht (by simp), hostTurn]

variable (ho : aligned o = false)
include ho

theorem step_hostRead_misaligned (ht : s.turns = .hostRead o :: ts) :
    step s = .refused (.hostAccessForm 32 o.toNat) := by
  rw [step_eq_hostTurn ht (by simp)]
  simp [hostTurn, ho]

theorem step_hostWrite_misaligned {v : Word} (ht : s.turns = .hostWrite o v :: ts) :
    step s = .refused (.hostAccessForm 32 o.toNat) := by
  rw [step_eq_hostTurn ht (by simp)]
  simp [hostTurn, ho]

end

/-- Settles O60: a turn of another width, a misaligned read and a misaligned write. -/
theorem otherHostAccessesAreRefused : Obligations.OtherHostAccessesAreRefused := by
  intro s ts o
  have misaligned (h : o.toNat % 4 ≠ 0) : aligned o = false := by simpa [aligned] using h
  exact ⟨fun _ ht => step_hostOther ht, fun h ht => step_hostRead_misaligned (misaligned h) ht,
    fun _ h ht => step_hostWrite_misaligned (misaligned h) ht⟩

end Sys2Proof.Machine
end

section
/-!
Reset and the busy hazard (spec/70_reset_and_hazards.md): the state of power-on reset (R300), the soft reset (R301), and
host accesses while a command is pending (R310, R312).
-/

namespace Sys2Proof.Machine

/-! ### Power-on reset -/

section

variable (c : Config)

/-- No register is valid at power-on reset (R300). -/
theorem resetWith_regs (r : Reg) : (State.resetWith c).regs[r] = none := by
  simp [State.resetWith]

/-- No byte of the buffer is written at power-on reset (R300). -/
@[simp] theorem resetWith_buf : (State.resetWith c).buf = [] := rfl

@[simp] theorem resetWith_err : (State.resetWith c).err = false := rfl

@[simp] theorem resetWith_errcode : (State.resetWith c).errcode = 0#3 := rfl

theorem resetWith_statusWord : (State.resetWith c).statusWord = 0#32 := statusWord_eq _

theorem resetWith_errcodeWord : (State.resetWith c).errcodeWord = 0#32 := errcodeWord_eq _

end

/-- Power-on reset of a legal configuration meets the invariant: there is no valid register, written byte, error, pending
command or recorded fault that could break it. -/
theorem inv_resetWith {c : Config} (hc : c.wf = true) : (State.resetWith c).Inv where
  config := hc
  regs r _ hv := nomatch (resetWith_regs c r).symm.trans hv
  buffer := by simp [BufferOk, Memory.wf, Memory.below]
  report := ⟨by simp, by simp, by simp, fun _ => rfl⟩
  command _ hw := nomatch hw
  faults := ⟨List.nodup_nil, fun _ hf => nomatch hf⟩

/-- Settles O44: `State.reset` is the reset of CFG-A, which is legal. -/
theorem invariantAtReset : Obligations.InvariantAtReset :=
  ⟨fun _ hc => inv_resetWith hc, inv_resetWith (by decide)⟩

/-- Settles O51, piece by piece. -/
theorem resetValues : Obligations.ResetValues := fun c =>
  ⟨resetWith_regs c, rfl, fun a => by simp, rfl, resetWith_statusWord c, resetWith_errcodeWord c,
    rfl, rfl, rfl, rfl, rfl, rfl, rfl, rfl⟩

/-! ### Soft reset -/

/-- A write of CTRL with bit 0 set resets the block, whether or not a model fault stands (R45, R301). -/
theorem step_softReset {s : State} {v : Word} {ts : List Turn} (ht : s.turns = .hostWrite 0x010#17 v :: ts)
    (hv : v.getLsbD 0 = true) : step s = .next (softReset { s with turns := ts }) := by
  obtain hs | ⟨f, hs⟩ := Option.eq_none_or_eq_some s.stopped
  · rw [step_writeCsr .ctrl hs ht (.inr rfl), csrWrite, if_pos hv]
  · have haligned : aligned 0x010#17 = true := aligned_csrOffset .ctrl
    have hreset : isSoftReset (targetOf 0x010#17) v = true := isSoftReset_targetOf.mpr ⟨rfl, hv⟩
    rw [step_eq_hostTurn ht (by simp), afterTurn_of_cons ht]
    simp [hostTurn, haligned, hs, hreset]

/-- Settles O52: the step is `softReset`, which names the fields that the reset state does not fix. -/
theorem softResetRestoresResetState : Obligations.SoftResetRestoresResetState :=
  fun _ _ _ ht hv => ⟨_, _, step_softReset ht hv⟩

/-! ### Accesses while a command is pending -/

/-- The busy hazard covers CMD, the operand registers and the window (R310). -/
theorem hazardous_targetOf {o : BitVec 17}
    (h : o ∈ [0x01C#17, 0x020#17, 0x024#17, 0x028#17, 0x02C#17] ∨ 0x10000 ≤ o.toNat) :
    hazardous (targetOf o) = true := by
  obtain hcsr | hwindow := h
  · obtain ⟨c, rfl, hc⟩ : ∃ c, o = BitVec.ofNat 17 (csrOffset c) ∧ hazardous (.csr c) = true := by
      simp only [List.mem_cons, List.not_mem_nil, or_false] at hcsr
      obtain h | h | h | h | h := hcsr
      exacts [⟨.cmd, h, rfl⟩, ⟨.src, h, rfl⟩, ⟨.dst, h, rfl⟩, ⟨.len, h, rfl⟩, ⟨.radix, h, rfl⟩]
    rw [targetOf_csrOffset, hc]
  · obtain ⟨a, ho⟩ := Nat.exists_eq_add_of_le hwindow
    rw [targetOf_eq_window ho, hazardous]

section

variable {s : State} {ts : List Turn} {o : BitVec 17} (hbusy : s.pending ≠ none)
include hbusy

/-- A host write that the busy hazard forbids is recorded as HOST_PROTOCOL and stores nothing (R280, R310). -/
theorem step_hostWrite_of_hazardous {v : Word} (hs : s.stopped = none) (ht : s.turns = .hostWrite o v :: ts)
    (ho : aligned o = true) (hz : hazardous (targetOf o) = true) :
    step s = .next (State.faulted { s with turns := ts } (.hostProtocol o.toNat)) := by
  have hb : ({ s with turns := ts } : State).busy = true := busy_iff.mpr hbusy
  rw [step_hostWrite hs ht ho, hostWrite, hb, hz]
  rfl

/-- A window read while busy answers a free value and changes nothing of the block (R312). -/
theorem windowRead_of_busy (a : Nat) :
    windowRead a s = { reply s (Config.busyWord s.draws) with draws := s.draws + 1 } :=
  if_pos (busy_iff.mpr hbusy)

end

/-- Settles O58: every one of these offsets is under the busy hazard. -/
theorem busyWritesAreProtocolFaults : Obligations.BusyWritesAreProtocolFaults :=
  fun _ _ _ _ hs hbusy ht halign ho =>
    ⟨_, step_hostWrite_of_hazardous hbusy hs ht (by simpa [aligned] using halign) (hazardous_targetOf ho)⟩

/-- Settles O59: the word is a free value of the model, whatever the buffer holds at the address read. -/
theorem busyWindowReadsReturnSomeWord : Obligations.BusyWindowReadsReturnSomeWord := by
  intro s ts o hs hbusy ht halign ho
  obtain ⟨a, ha⟩ := Nat.exists_eq_add_of_le ho
  have hread := windowRead_of_busy (s := { s with turns := ts }) hbusy a
  exact ⟨_, _, (step_readWindow hs halign ha ht).trans (congrArg _ hread)⟩

end Sys2Proof.Machine
end
